-- ==== Sys2Proof/Word.lean ====
section
/-! DEFINITION. The machine's words: 00_scope.md rules R7, R12 and R13 (32-bit data, bit 0 least significant). -/

namespace Sys2Proof

/-- XLEN = 32: every register, memory word and address (R7). -/
abbrev Word := BitVec 32

/-- The smallest addressable unit of memory (R70). -/
abbrev Byte := BitVec 8

/-- A five-bit register field: the number of a slot of the one register file (30_encoding.md R116). -/
abbrev RegIdx := BitVec 5

end Sys2Proof
end

