-- ==== Sys2Proof/Config.lean ====
section
/-! DEFINITION. What is fixed outside the core: THE ONE CONFIGURATION RECORD of 00_scope.md rules R6, R9 and R10, with the FPU model of
60_exceptions.md rule R362 as one of its fields, and the free values. The record's value, every parameter at its default, is
`Param.config` of Machine/Params.lean: a later repair may mend it there. -/

namespace Sys2Proof

/-! ### The FPU (R362 to R366; 92_eei_decisions.md D38: OPEN) -/

/-- The four FPU device words (20_memory.md R74). -/
inductive FpuReg where
  | x | y | z | ctrl
deriving DecidableEq, Repr

/-- A call of the FPU port other than the tick (60_exceptions.md R362, R347). -/
inductive FpuCall where
  | read (r : FpuReg)
  | write (r : FpuReg) (v : Word)
  | setStatus
deriving DecidableEq, Repr

/-- A call and the number of ticks the FPU had received before it. -/
structure FpuAccess where
  tick : Nat
  call : FpuCall
deriving DecidableEq, Repr

/-- The FPU's state in this model, as plain data: whether it is engaged, that is, may have an operation in flight, and everything
it has been told since reset: how many ticks, and the port calls, newest first (log entries 1 and 2). -/
structure FpuPort where
  engaged : Bool
  ticks : Nat
  accesses : List FpuAccess
deriving DecidableEq, Repr

/-- A request `fpu_tick` answers with: a priority and a cause (R364, R365). -/
structure FpuRequest where
  prio : Nat
  cause : Word
deriving DecidableEq, Repr

/-- FPU_MODEL over a state type: "a state type, an initial state, `fpu_read`, `fpu_write`, `fpu_tick` and `fpu_set_status`"
(R362). A tick answers at most one request, and no component touches core state (R365). -/
structure FpuModel (σ : Type) where
  initial : σ
  read : σ → FpuReg → Word × σ
  write : σ → FpuReg → Word → σ
  setStatus : σ → σ
  tick : σ → Option FpuRequest × σ

/-- FREE VALUE (log entry 1): the word the FPU answers to `fpu_read` of a register in a state (R362). -/
opaque Config.fpuRead : FpuPort → FpuReg → Word

/-- FREE VALUE (log entry 1): what `fpu_tick` of an engaged FPU answers, the tick itself counted (R364). -/
opaque Config.fpuTick : FpuPort → Option FpuRequest

/-! ### The kinds of value the record maps to -/

/-- What a primary opcode selects: an instruction, or one of the two families (30_encoding.md R117). -/
inductive Opcode where
  | mov | movs | add | sub | shiftMulDiv | cmp | and | or | not | xor | push | pop
  | addi | subi | muli | divi | modi | cmpi | l8 | l16 | l32 | s8 | s16 | s32
  | callF | ret | reti | bitSetClear | bae | bat | bbe | bbt | beq | bge | bgt | biv
  | ble | blt | bne | bni | bnz | bun | bzd | callS | int
deriving DecidableEq, Repr

/-- The family of opcode 0x04 (30_encoding.md R118). -/
inductive ShiftMulDivOp where
  | mul | sll | muls | sla | div | srl | divs | sra
deriving DecidableEq, Repr

/-- The pair of opcode 0x21 (30_encoding.md R119). -/
inductive BitOp where
  | cbr | sbr
deriving DecidableEq, Repr

/-- FORMAT_U (30_encoding.md R112, D1): the lowest bits of Z, X, Y, L and IMM21 in the word, and, within L, those of I and of the
list fields V and W. The widths are those of R112. -/
structure FormatU where
  z : Nat
  x : Nat
  y : Nat
  l : Nat
  imm21 : Nat
  i : Nat
  v : Nat
  w : Nat
deriving DecidableEq, Repr

/-- FORMAT_F (R113, D1): the lowest bits of Z, X and IMM16. -/
structure FormatF where
  z : Nat
  x : Nat
  imm16 : Nat
deriving DecidableEq, Repr

/-- FORMAT_S (R114, D1): the lowest bit of IMM26. -/
structure FormatS where
  imm26 : Nat
deriving DecidableEq, Repr

/-- The fifteen branches (47_control_transfer.md R270). -/
inductive BranchOp where
  | bae | bat | bbe | bbt | beq | bge | bgt | biv | ble | blt | bne | bni | bnz | bun | bzd
deriving DecidableEq, Repr

/-- A secondary discriminant of `n` bits: where its lowest bit stands within L, and what its values select. -/
structure Subop (n : Nat) (α : Type) where
  position : Nat
  members : List (BitVec n × α)

namespace Machine

/-- The seven flags of SR (10_state.md R39). -/
inductive Flag where
  | cy | ie | iv | ov | sn | zd | zn
deriving DecidableEq, Repr

/-- The priority classes 1 to 4 of hardware interrupts; a lower number has precedence (10_state.md R50, D7). -/
inductive Prio where
  | class1 | class2 | class3 | class4
deriving DecidableEq, Repr

end Machine

/-- HW_CLASS[p]: the vector of a hardware priority class, and whether its entry sets the FPU status bit (R10). -/
structure HwClass where
  vector : Word
  setsFpuStatus : Bool
deriving DecidableEq, Repr

/-- The configuration record: one field for each parameter of 00_scope.md R9 and R10, and for each other parameter that
92_eei_decisions.md or 93_implementation_defined.md section 1 names. -/
structure Parameters where
  formatU : FormatU
  formatF : FormatF
  formatS : FormatS
  /-- OPCODE_MAP: the assigned primary opcodes and what each selects (D2). -/
  opcodeMap : List (BitVec 6 × Opcode)
  /-- SUBOP_FIELD of opcode 0x04 (D3). -/
  shiftSubop : Subop 3 ShiftMulDivOp
  /-- SUBOP_FIELD of opcode 0x21 (D3). -/
  bitSubop : Subop 1 BitOp
  /-- SR_POS (D4). -/
  srPos : Machine.Flag → Nat
  /-- The condition table of the branches, over the flags (D36). -/
  branchTaken : BranchOp → (Machine.Flag → Bool) → Bool
  vecInvalid : Word
  vecDivZero : Word
  vecSwi : Word
  /-- HW_CLASS[1..4] (D5, D7). -/
  hwClass : Machine.Prio → HwClass
  causeDivZero : Word
  causeWdt : Word
  prioWdt : Nat
  /-- The direction of precedence: whether the first class goes before the second (D7; 90_conflicts.md C4). -/
  precedes : Machine.Prio → Machine.Prio → Bool
  /-- Where a new entry goes among the classes of the entries pending, under a direction (60_exceptions.md R340, R344, D8). -/
  insertPosition : (Machine.Prio → Machine.Prio → Bool) → Machine.Prio → List Machine.Prio → Nat
  addrWdt : Word
  addrFpu : FpuReg → Word
  addrTerm : Word
  memBytes : Nat
  /-- The registers, SR and the PC among them, after reset (D29). -/
  resetRegs : Vector Word 32
  /-- Every byte of memory that no image covers, after reset (D29). -/
  resetByte : Byte
  /-- The watchdog word after reset (D29). -/
  resetWdt : Word
  /-- FPU_MODEL (R362, D38). -/
  fpuModel : FpuModel FpuPort

end Sys2Proof
end

