-- ==== Sys2Proof/Machine/Params.lean ====
section
/-! DEFINITION. The value of the configuration record, every parameter of 00_scope.md rules R6, R9 and R10 at its default, and its
fields by name. All are the spec's own decisions (92_eei_decisions.md D1 to D8, D16, D17, D29, D36; log entry 3) but FPU_MODEL, which is
the model's (log entries 1 and 2). Everything else in the model reads a parameter through this record; a later repair may mend
a value here. -/

namespace Sys2Proof

/-! ### FPU_MODEL -/

/-- A state after a call of the port: engaged, with the call recorded. -/
def FpuPort.called (p : FpuPort) (c : FpuCall) : FpuPort := ⟨true, p.ticks, ⟨p.ticks, c⟩ :: p.accesses⟩

/-- A state after a tick. -/
def FpuPort.ticked (p : FpuPort) : FpuPort := ⟨p.engaged, p.ticks + 1, p.accesses⟩

namespace Machine.Param

/-- The model's FPU: its answers are free values of everything it has been told (log entry 1), but that it requests nothing
while it is not engaged; it starts so, and any port call engages it (log entry 2). -/
def freeFpu : FpuModel FpuPort where
  initial := ⟨false, 0, []⟩
  read p r := (Config.fpuRead p r, p.called (.read r))
  write p r v := p.called (.write r v)
  setStatus p := p.called .setStatus
  tick p := (if p.engaged then Config.fpuTick p.ticked else none, p.ticked)

/-! ### The record -/

/-- The map of 30_encoding.md R117, in three runs of assigned opcodes and `int`. -/
def opcodeRows : List (BitVec 6 × Opcode) :=
  [(0x00#6, .mov), (0x01#6, .movs), (0x02#6, .add), (0x03#6, .sub), (0x04#6, .shiftMulDiv), (0x05#6, .cmp),
   (0x06#6, .and), (0x07#6, .or), (0x08#6, .not), (0x09#6, .xor), (0x0a#6, .push), (0x0b#6, .pop)] ++
  [(0x12#6, .addi), (0x13#6, .subi), (0x14#6, .muli), (0x15#6, .divi), (0x16#6, .modi), (0x17#6, .cmpi),
   (0x18#6, .l8), (0x19#6, .l16), (0x1a#6, .l32), (0x1b#6, .s8), (0x1c#6, .s16), (0x1d#6, .s32),
   (0x1e#6, .callF), (0x1f#6, .ret), (0x20#6, .reti), (0x21#6, .bitSetClear)] ++
  [(0x2a#6, .bae), (0x2b#6, .bat), (0x2c#6, .bbe), (0x2d#6, .bbt), (0x2e#6, .beq), (0x2f#6, .bge),
   (0x30#6, .bgt), (0x31#6, .biv), (0x32#6, .ble), (0x33#6, .blt), (0x34#6, .bne), (0x35#6, .bni),
   (0x36#6, .bnz), (0x37#6, .bun), (0x38#6, .bzd), (0x39#6, .callS), (0x3f#6, .int)]

/-- The number of a priority class (10_state.md R50). -/
def prioNumber : Prio → Nat
  | .class1 => 1
  | .class2 => 2
  | .class3 => 3
  | .class4 => 4

/-- Immediately after the last entry that the new one does not precede, and first where it precedes all (60_exceptions.md
R340). -/
def afterLastNotPreceded (precedes : Prio → Prio → Bool) (p : Prio) : List Prio → Nat
  | [] => 0
  | q :: qs => if (q :: qs).any (fun r => !precedes p r) then afterLastNotPreceded precedes p qs + 1 else 0

/-- Every parameter at its default (R6, R9, R10). -/
def config : Parameters where
  formatU := { z := 21, x := 16, y := 11, l := 0, imm21 := 0, i := 0, v := 6, w := 0 }
  formatF := { z := 21, x := 16, imm16 := 0 }
  formatS := { imm26 := 0 }
  opcodeMap := opcodeRows
  shiftSubop := ⟨8, [(0#3, .mul), (1#3, .sll), (2#3, .muls), (3#3, .sla), (4#3, .div), (5#3, .srl), (6#3, .divs), (7#3, .sra)]⟩
  bitSubop := ⟨0, [(0#1, .cbr), (1#1, .sbr)]⟩
  srPos
    | .cy => 0
    | .ie => 1
    | .iv => 2
    | .ov => 3
    | .sn => 4
    | .zd => 5
    | .zn => 6
  branchTaken
    | .bae, f => !f .cy
    | .bat, f => !f .zn && !f .cy
    | .bbe, f => f .zn || f .cy
    | .bbt, f => f .cy
    | .beq, f => f .zn
    | .bge, f => f .sn == f .ov
    | .bgt, f => !f .zn && f .sn == f .ov
    | .biv, f => f .iv
    | .ble, f => f .zn || f .sn != f .ov
    | .blt, f => f .sn != f .ov
    | .bne, f => !f .zn
    | .bni, f => !f .iv
    | .bnz, f => !f .zd
    | .bun, _ => true
    | .bzd, f => f .zd
  vecInvalid := 0x00000004#32
  vecDivZero := 0x00000008#32
  vecSwi := 0x0000000c#32
  hwClass
    | .class1 => ⟨0x00000010#32, false⟩
    | .class2 => ⟨0x00000014#32, true⟩
    | .class3 => ⟨0x00000018#32, false⟩
    | .class4 => ⟨0x0000001c#32, false⟩
  causeDivZero := 0x00000000#32
  causeWdt := 0xe1ac04da#32
  prioWdt := 1
  precedes p q := decide (prioNumber p < prioNumber q)
  insertPosition := afterLastNotPreceded
  addrWdt := 0x80808080#32
  addrFpu
    | .x => 0x80808880#32
    | .y => 0x80808884#32
    | .z => 0x80808888#32
    | .ctrl => 0x8080888c#32
  addrTerm := 0x80808890#32
  memBytes := 32768
  resetRegs := Vector.replicate 32 0#32
  resetByte := 0#8
  resetWdt := 0#32
  fpuModel := freeFpu

/-! ### Its fields -/

/-- MEM_BYTES (R9, D16). -/
def memBytes : Nat := config.memBytes
/-- SR_POS (10_state.md R39, D4). -/
def srPos (f : Flag) : Nat := config.srPos f
/-- The condition of a branch over the flags (47_control_transfer.md R270, D36). -/
def branchTaken (b : BranchOp) (flags : Flag → Bool) : Bool := config.branchTaken b flags
/-- VEC_INVALID (60_exceptions.md R320, D5). -/
def vecInvalid : Word := config.vecInvalid
/-- VEC_DIVZERO (R320, D5). -/
def vecDivZero : Word := config.vecDivZero
/-- VEC_SWI (R320, D5). -/
def vecSwi : Word := config.vecSwi
/-- HW_CLASS[p] (R342, D5): the vector. -/
def hwVector (p : Prio) : Word := (config.hwClass p).vector
/-- HW_CLASS[p] (R342, R347, D7): whether entry sets the FPU status bit. -/
def setsFpuStatus (p : Prio) : Bool := (config.hwClass p).setsFpuStatus
/-- CAUSE_DIVZERO (R320, D6). -/
def causeDivZero : Word := config.causeDivZero
/-- CAUSE_WDT (R320, D6). -/
def causeWdt : Word := config.causeWdt
/-- PRIO_WDT (R359, D7). -/
def prioWdt : Nat := config.prioWdt
/-- The place of a new entry among the classes pending (R340, D7, D8). -/
def insertPosition (p : Prio) (pending : List Prio) : Nat := config.insertPosition config.precedes p pending
/-- ADDR_WDT (20_memory.md R74, D17). -/
def addrWdt : Word := config.addrWdt
/-- ADDR_FPU_X, _Y, _Z and _CTRL (R74, D17). -/
def addrFpu (r : FpuReg) : Word := config.addrFpu r
/-- ADDR_TERM (R74, D17, 90_conflicts.md C9). -/
def addrTerm : Word := config.addrTerm
/-- FPU_MODEL (60_exceptions.md R362, D38). -/
def fpuModel : FpuModel FpuPort := config.fpuModel

/-- The class of a priority number; other numbers have none (60_exceptions.md R341). -/
def prioOfNumber : Nat → Option Prio
  | 1 => some .class1
  | 2 => some .class2
  | 3 => some .class3
  | 4 => some .class4
  | _ => none

end Machine.Param

/-! ### The two maps, read in both directions -/

/-- What a value selects in a table, if anything. -/
def selected {n : Nat} {α : Type} (table : List (BitVec n × α)) (k : BitVec n) : Option α :=
  (table.find? fun row => row.1 == k).map (·.2)

/-- The value that selects an entry; 0 for an entry that the table does not have. -/
def numberOf {n : Nat} {α : Type} [DecidableEq α] (table : List (BitVec n × α)) (a : α) : BitVec n :=
  ((table.find? fun row => row.2 == a).map (·.1)).getD 0#n

end Sys2Proof
end

