-- ==== Sys2Proof/Machine/State.lean ====
section
/-! DEFINITION. The state record of 10_state.md rule R56, as plain data, with the FPU's state and the
event stream beside it, and the state after reset (rules R57, R382). -/

namespace Sys2Proof.Machine

/-- The model-level faults (00_scope.md R18, 40_fetch_dispatch.md R155). Each ends the run; each is SAFE: the model stops
where the sources give no behaviour. -/
inductive Fault where
  /-- A data access at `a` that is neither a device word nor in backing memory (20_memory.md R72); raised by `memRead` and
  `memWrite`. Safe. -/
  | memFault (a : Word)
  /-- A device word accessed in a form that 20_memory.md R80 does not list; `bytes` is the width. Raised by `memRead` and
  `memWrite`. Safe. -/
  | deviceFault (a : Word) (bytes : Nat)
  /-- A fetch from a device word or from outside backing memory (20_memory.md R83); raised by `fetch`. Safe. -/
  | fetchFault (pc : Word)
  /-- A request with a priority that has no class (60_exceptions.md R341); raised by `schedule`. Safe. -/
  | priorityFault (p : Nat)
deriving DecidableEq, Repr

/-- Why `exec` gives an instruction no meaning. -/
inductive Refusal where
  /-- An instruction whose arm has no meaning yet. No arm answers it: every instruction is modelled. Safe. -/
  | notModelled (mnemonic : String)
deriving DecidableEq, Repr

/-- Backing memory (10_state.md R44): bytes by address; `Memory.wf` (Machine/Memory.lean) is its canonical form. -/
structure Memory where
  cells : List Host.Cell
deriving DecidableEq, Repr

/-- A pending entry of the interrupt controller (10_state.md R50). -/
structure PendingEntry where
  prio : Prio
  cause : Word
  savedPC : Word
deriving DecidableEq, Repr

/-- The events of 40_fetch_dispatch.md R156. -/
inductive Event where
  | start
  | exec (pc ir : Word)
  | invalid (pc ir : Word)
  | softwareInterrupt (cause : Word)
  | hardwareInterrupt (prio : Prio) (cause : Word)
  | termByte (b : Byte)
  | endRun
deriving DecidableEq, Repr

/-- The machine's state (10_state.md R56). -/
structure State where
  /-- The register file, slots 0 to 31 (R30); read and written through `State.reg` and `State.writeReg` alone, which make
  slot 0 read as zero (R31). -/
  regs : Vector Word 32
  /-- Backing memory (R44). -/
  mem : Memory
  /-- The watchdog word: EN = bit 31, COUNT = bits [30:0] (R45). -/
  wdt : Word
  /-- The pending list, head first (R51). -/
  pending : List PendingEntry
  /-- Set by `int 0` (R46). -/
  halted : Bool
  /-- The fault mark (R47). A run that faults ends with `Outcome.fault`, so no next state ever carries a mark
  (log entry 5). -/
  fault : Option Fault
  /-- The FPU's state, held for the external agent of R53; the core passes it to FPU_MODEL and reads nothing in it (log
  entry 1). -/
  fpu : FpuPort
  /-- The model's own: the events emitted, NEWEST FIRST (R156). -/
  events : List Event
deriving DecidableEq, Repr

/-- Reset with no image loaded (R57, R382), the FPU in FPU_MODEL's initial state; `Start` follows the load
(70_reset_and_hazards.md R380). -/
def State.reset : State where
  regs := Param.config.resetRegs
  mem := ⟨[]⟩
  wdt := Param.config.resetWdt
  pending := []
  halted := false
  fault := none
  fpu := Param.fpuModel.initial
  events := [.start]

end Sys2Proof.Machine
end

