-- ==== Sys2Proof/Machine/Registers.lean ====
section
/-! DEFINITION. The register file and the flags of SR: 10_state.md rules R30 to R42, 00_scope.md rules R14 to R16. -/

namespace Sys2Proof.Machine

/-! ### Slots with a name (10_state.md R33) -/

abbrev CR : RegIdx := 26#5
abbrev IPC : RegIdx := 27#5
abbrev IR : RegIdx := 28#5
abbrev PC : RegIdx := 29#5
abbrev SP : RegIdx := 30#5
abbrev SR : RegIdx := 31#5

/-- `x[r]`: slot 0 reads as zero always (R31). -/
def State.reg (s : State) (r : RegIdx) : Word :=
  if r = 0#5 then 0#32 else s.regs[r.toNat]'(r.isLt)

/-- `x[r] <- v`: a write to slot 0 is discarded (R31). -/
def State.writeReg (s : State) (r : RegIdx) (v : Word) : State :=
  if r = 0#5 then s else { s with regs := s.regs.set r.toNat v r.isLt }

/-- `pc <- t`: writes t - 4, so that ADVANCE makes t the next fetch (00_scope.md R16, 40_fetch_dispatch.md R147). -/
def State.jump (s : State) (t : Word) : State := s.writeReg PC (t - 4#32)

/-! ### Single bits of a word and the flags -/

/-- `w` with bit `k` made `b`. -/
def putBit (w : Word) (k : Nat) (b : Bool) : Word :=
  if b then w ||| (1#32 <<< k) else w &&& ~~~(1#32 <<< k)

/-- `SR.F` (00_scope.md R15). -/
def State.flag (s : State) (f : Flag) : Bool := (s.reg SR).getLsbD (Param.srPos f)

/-- `SR.F <- b`: writes that one bit of x[31] (R15). -/
def State.setFlag (s : State) (f : Flag) (b : Bool) : State := s.writeReg SR (putBit (s.reg SR) (Param.srPos f) b)

/-! ### The other fields -/

def State.setMem (s : State) (m : Memory) : State := { s with mem := m }
def State.setWdt (s : State) (v : Word) : State := { s with wdt := v }
def State.setPending (s : State) (l : List PendingEntry) : State := { s with pending := l }
def State.setFpu (s : State) (p : FpuPort) : State := { s with fpu := p }

/-- Sets `halted` (10_state.md R46). -/
def State.halt (s : State) : State := { s with halted := true }

/-- Emits an event (40_fetch_dispatch.md R156). -/
def State.emit (s : State) (e : Event) : State := { s with events := e :: s.events }

/-- The event stream, oldest first (R156). -/
def State.eventStream (s : State) : List Event := s.events.reverse

/-- The terminal byte stream: the bytes of the `TermByte` events in order (20_memory.md R96). -/
def State.terminal (s : State) : List Byte :=
  s.eventStream.filterMap fun e => match e with
    | .termByte b => some b
    | _ => none

end Sys2Proof.Machine
end

