-- ==== Sys2Proof/Machine/Flags.lean ====
section
/-! DEFINITION. Every flag computation: 41_arithmetic.md rule R169, 42_shift_mul_div.md rules R193, R200, R201,
44_logic.md rule R234, 47_control_transfer.md rule R270. Flags are computed from the operands and the true result, and written
after the registers (10_state.md rules R41, R42). -/

namespace Sys2Proof.Machine

/-- Bit 32 of the 64-bit sum (R169 addflags). -/
def addCarry (a b : Word) : Bool := (a.setWidth 64 + b.setWidth 64).getLsbD 32

/-- Operands share a sign and the result's sign differs (R169 addflags). -/
def addOverflow (a b : Word) : Bool := a.msb == b.msb && (a + b).msb != a.msb

/-- Bit 32 of the 64-bit difference, the borrow (R169 subflags). -/
def subBorrow (a b : Word) : Bool := (a.setWidth 64 - b.setWidth 64).getLsbD 32

/-- Operand signs differ and the result's sign differs from the minuend's (R169 subflags). -/
def subOverflow (a b : Word) : Bool := a.msb != b.msb && (a - b).msb != a.msb

/-- addflags(a, b): ZN, SN, CY, OV (R169). -/
def addFlags (a b : Word) (s : State) : State :=
  (((s.setFlag .zn (a + b == 0#32)).setFlag .sn (a + b).msb).setFlag .cy (addCarry a b)).setFlag .ov (addOverflow a b)

/-- subflags(a, b): ZN, SN, CY, OV (R169). -/
def subFlags (a b : Word) (s : State) : State :=
  (((s.setFlag .zn (a - b == 0#32)).setFlag .sn (a - b).msb).setFlag .cy (subBorrow a b)).setFlag .ov (subOverflow a b)

/-- Logic: exactly ZN and SN (R234). -/
def logicFlags (r : Word) (s : State) : State := (s.setFlag .zn (r == 0#32)).setFlag .sn r.msb

/-- The high and low words of a 64-bit result. -/
def hiWord (r : BitVec 64) : Word := r.extractLsb' 32 32
def loWord (r : BitVec 64) : Word := r.extractLsb' 0 32

/-- r != sext_64(r[31:0]): the signed result does not fit in 32 bits (R193, R166). -/
def signedOverflow (r : BitVec 64) : Bool := r != (loWord r).signExtend 64

/-- The unsigned widening forms: ZN over 64 bits, CY = (high word != 0) (R193). -/
def wideUnsignedFlags (r : BitVec 64) (s : State) : State :=
  (s.setFlag .zn (r == 0#64)).setFlag .cy (hiWord r != 0#32)

/-- The signed widening forms: ZN over 64 bits, OV = the signed result does not fit (R193). -/
def wideSignedFlags (r : BitVec 64) (s : State) : State :=
  (s.setFlag .zn (r == 0#64)).setFlag .ov (signedOverflow r)

/-- muli: ZN over the low word, OV over the exact product (R166). -/
def mulImmFlags (p : BitVec 64) (s : State) : State :=
  (s.setFlag .zn (loWord p == 0#32)).setFlag .ov (signedOverflow p)

/-- A signed division that succeeded, of the result `r` tested by ZN (R167, R168, R201). -/
def signedDivFlags (a b r : Word) (s : State) : State :=
  ((s.setFlag .zn (r == 0#32)).setFlag .zd false).setFlag .ov (a == 0x80000000#32 && b == 0xffffffff#32)

/-- div: ZN of the quotient, ZD cleared, CY = (remainder != 0) (R200). -/
def unsignedDivFlags (q m : Word) (s : State) : State :=
  ((s.setFlag .zn (q == 0#32)).setFlag .zd false).setFlag .cy (m != 0#32)

/-! ### Branch conditions over SR (R270, D36) -/

/-- Whether a branch's condition holds. -/
def State.takes (s : State) (b : BranchOp) : Bool := Param.branchTaken b s.flag

end Sys2Proof.Machine
end

