-- ==== Sys2Proof/Syntax.lean ====
section
/-! DEFINITION. The instructions: one constructor for each row of spec/opcode_table.json, its arguments the fields the
instruction reads (30_encoding.md rules R112 to R114). Bits an instruction ignores (R121) are no part of it. -/

namespace Sys2Proof

/-- `z`, `x`, `y` and `i` are the fields Z, X, Y and I; immediates keep their width; `push` and `pop` carry their ACTIVE list
of registers, in list order (46_stack.md R260). -/
inductive Instr where
  -- 41_arithmetic.md
  | mov (z : RegIdx) (imm : BitVec 21)
  | movs (z : RegIdx) (imm : BitVec 21)
  | add (z x y : RegIdx)
  | sub (z x y : RegIdx)
  | addi (z x : RegIdx) (imm : BitVec 16)
  | subi (z x : RegIdx) (imm : BitVec 16)
  | muli (z x : RegIdx) (imm : BitVec 16)
  | divi (z x : RegIdx) (imm : BitVec 16)
  | modi (z x : RegIdx) (imm : BitVec 16)
  -- 42_shift_mul_div.md: `i` is a register in mul, muls, div, divs and a count in the shifts
  | mul (z x y i : RegIdx)
  | muls (z x y i : RegIdx)
  | sll (z x y : RegIdx) (i : BitVec 5)
  | sla (z x y : RegIdx) (i : BitVec 5)
  | srl (z x y : RegIdx) (i : BitVec 5)
  | sra (z x y : RegIdx) (i : BitVec 5)
  | div (z x y i : RegIdx)
  | divs (z x y i : RegIdx)
  -- 43_compare.md
  | cmp (x y : RegIdx)
  | cmpi (x : RegIdx) (imm : BitVec 16)
  -- 44_logic.md
  | and (z x y : RegIdx)
  | or (z x y : RegIdx)
  | not (z x : RegIdx)
  | xor (z x y : RegIdx)
  -- 45_load_store.md
  | l8 (z x : RegIdx) (imm : BitVec 16)
  | l16 (z x : RegIdx) (imm : BitVec 16)
  | l32 (z x : RegIdx) (imm : BitVec 16)
  | s8 (z x : RegIdx) (imm : BitVec 16)
  | s16 (z x : RegIdx) (imm : BitVec 16)
  | s32 (z x : RegIdx) (imm : BitVec 16)
  -- 46_stack.md
  | push (regs : List RegIdx)
  | pop (regs : List RegIdx)
  -- 47_control_transfer.md: `callF` is the register-relative call, `callS` the PC-relative one
  | bae (imm : BitVec 26)
  | bat (imm : BitVec 26)
  | bbe (imm : BitVec 26)
  | bbt (imm : BitVec 26)
  | beq (imm : BitVec 26)
  | bge (imm : BitVec 26)
  | bgt (imm : BitVec 26)
  | biv (imm : BitVec 26)
  | ble (imm : BitVec 26)
  | blt (imm : BitVec 26)
  | bne (imm : BitVec 26)
  | bni (imm : BitVec 26)
  | bnz (imm : BitVec 26)
  | bun (imm : BitVec 26)
  | bzd (imm : BitVec 26)
  | callF (x : RegIdx) (imm : BitVec 16)
  | callS (imm : BitVec 26)
  | ret
  | reti
  -- 48_bit_set_clear.md: `x` is a bit number
  | cbr (z : RegIdx) (x : BitVec 5)
  | sbr (z : RegIdx) (x : BitVec 5)
  -- 49_software_trap.md
  | int (imm : BitVec 26)
deriving DecidableEq, Repr

end Sys2Proof
end

