-- ==== Sys2Proof/WellFormed.lean ====
section
/-! DEFINITION. Which terms of `Instr` are instructions. Field widths are in the types; the one thing left to check is the
register list of push and pop: at most five registers, none of them slot 0 (46_stack.md rule R260). -/

namespace Sys2Proof

/-- At most five registers (V, W, X, Y, Z) are named (R260). -/
def listFits (regs : List RegIdx) : Bool := decide (regs.length ≤ 5)

/-- "index 0 means absent": slot 0 is never a member of an active list (R260). -/
def listHasNoZero (regs : List RegIdx) : Bool := regs.all (· != 0#5)

/-- Every instruction but push and pop is well-formed by its type. -/
def Instr.wellFormed : Instr → Bool
  | .push regs => listFits regs && listHasNoZero regs
  | .pop regs => listFits regs && listHasNoZero regs
  | .mov _ _ => true
  | .movs _ _ => true
  | .add _ _ _ => true
  | .sub _ _ _ => true
  | .addi _ _ _ => true
  | .subi _ _ _ => true
  | .muli _ _ _ => true
  | .divi _ _ _ => true
  | .modi _ _ _ => true
  | .mul _ _ _ _ => true
  | .muls _ _ _ _ => true
  | .sll _ _ _ _ => true
  | .sla _ _ _ _ => true
  | .srl _ _ _ _ => true
  | .sra _ _ _ _ => true
  | .div _ _ _ _ => true
  | .divs _ _ _ _ => true
  | .cmp _ _ => true
  | .cmpi _ _ => true
  | .and _ _ _ => true
  | .or _ _ _ => true
  | .not _ _ => true
  | .xor _ _ _ => true
  | .l8 _ _ _ => true
  | .l16 _ _ _ => true
  | .l32 _ _ _ => true
  | .s8 _ _ _ => true
  | .s16 _ _ _ => true
  | .s32 _ _ _ => true
  | .bae _ => true
  | .bat _ => true
  | .bbe _ => true
  | .bbt _ => true
  | .beq _ => true
  | .bge _ => true
  | .bgt _ => true
  | .biv _ => true
  | .ble _ => true
  | .blt _ => true
  | .bne _ => true
  | .bni _ => true
  | .bnz _ => true
  | .bun _ => true
  | .bzd _ => true
  | .callF _ _ => true
  | .callS _ => true
  | .ret => true
  | .reti => true
  | .cbr _ _ => true
  | .sbr _ _ => true
  | .int _ => true

end Sys2Proof
end

