-- ==== Sys2Proof/Decode.lean ====
section
/-! DEFINITION. Decoding and encoding: 30_encoding.md rules R110 to R126 and 40_fetch_dispatch.md rules R143, R144.
The places of the fields, the opcode map and the secondary discriminants are read from the configuration record (FORMAT_U,
FORMAT_F, FORMAT_S, OPCODE_MAP, SUBOP_FIELD). -/

namespace Sys2Proof

/-- Why a word, or a run of bytes, is no instruction (R120). -/
inductive DecodeError where
  /-- The primary opcode has no entry in the map of R117. -/
  | unknownOpcode (op : BitVec 6)
  /-- A secondary discriminant with no entry (R120). Every value is assigned under the record's default. -/
  | unknownDiscriminant (op : BitVec 6)
  /-- Fewer bytes than one word (R110). -/
  | truncated
deriving DecidableEq, Repr

/-! ### Fields (R111 to R114) -/

/-- The fields' places (FORMAT_U, FORMAT_F, FORMAT_S). -/
abbrev formatU : FormatU := Machine.Param.config.formatU
abbrev formatF : FormatF := Machine.Param.config.formatF
abbrev formatS : FormatS := Machine.Param.config.formatS

/-- OP = IR[31:26], in every format (R111). -/
def fieldOp (w : Word) : BitVec 6 := w.extractLsb' 26 6
/-- Z of format U, IR[25:21] by default (R112). -/
def fieldZ (w : Word) : RegIdx := w.extractLsb' formatU.z 5
/-- X of format U, IR[20:16] by default (R112). -/
def fieldX (w : Word) : RegIdx := w.extractLsb' formatU.x 5
/-- Y of format U, IR[15:11] by default (R112). -/
def fieldY (w : Word) : RegIdx := w.extractLsb' formatU.y 5
/-- L, IR[10:0] by default (R112). -/
def fieldL (w : Word) : BitVec 11 := w.extractLsb' formatU.l 11
/-- L.SUB, L[10:8] by default (R112, R118). -/
def fieldSub (w : Word) : BitVec 3 := (fieldL w).extractLsb' Machine.Param.config.shiftSubop.position 3
/-- I, L[4:0] by default (R112). -/
def fieldI (w : Word) : BitVec 5 := (fieldL w).extractLsb' formatU.i 5
/-- V, L[10:6] by default (R112). -/
def fieldV (w : Word) : RegIdx := (fieldL w).extractLsb' formatU.v 5
/-- W, L[4:0] by default (R112). -/
def fieldW (w : Word) : RegIdx := (fieldL w).extractLsb' formatU.w 5
/-- L.B, L[0] by default (R112, R119). -/
def fieldB (w : Word) : BitVec 1 := (fieldL w).extractLsb' Machine.Param.config.bitSubop.position 1
/-- IMM21, IR[20:0] by default (R112). -/
def fieldImm21 (w : Word) : BitVec 21 := w.extractLsb' formatU.imm21 21
/-- Z of format F, IR[25:21] by default (R113). -/
def fieldZF (w : Word) : RegIdx := w.extractLsb' formatF.z 5
/-- X of format F, IR[20:16] by default (R113). -/
def fieldXF (w : Word) : RegIdx := w.extractLsb' formatF.x 5
/-- IMM16, IR[15:0] by default (R113). -/
def fieldImm16 (w : Word) : BitVec 16 := w.extractLsb' formatF.imm16 16
/-- IMM26, IR[25:0] by default (R114). -/
def fieldImm26 (w : Word) : BitVec 26 := w.extractLsb' formatS.imm26 26

/-! ### Decoding (R117 to R120, R144) -/

/-- The active list: the longest prefix of (V, W, X, Y, Z) without a zero index (46_stack.md R260). -/
def activeList (v w x y z : RegIdx) : List RegIdx := [v, w, x, y, z].takeWhile (· != 0#5)

/-- What a primary opcode selects (R117). -/
def opcodeAt (op : BitVec 6) : Option Opcode := selected Machine.Param.config.opcodeMap op

/-- The primary opcode of an instruction or family (R117). -/
def opcodeOf (o : Opcode) : BitVec 6 := numberOf Machine.Param.config.opcodeMap o

/-- The value of L.SUB of a member of the family of opcode 0x04 (R118). -/
def subOf (o : ShiftMulDivOp) : BitVec 3 := numberOf Machine.Param.config.shiftSubop.members o

/-- The value of L.B of a member of the pair of opcode 0x21 (R119). -/
def bitOf (o : BitOp) : BitVec 1 := numberOf Machine.Param.config.bitSubop.members o

/-- The shift/multiply/divide family, told apart by L.SUB (R118). -/
def decodeFamily04 (w : Word) : Except DecodeError Instr :=
  match selected Machine.Param.config.shiftSubop.members (fieldSub w) with
  | some .mul => .ok (.mul (fieldZ w) (fieldX w) (fieldY w) (fieldI w))
  | some .sll => .ok (.sll (fieldZ w) (fieldX w) (fieldY w) (fieldI w))
  | some .muls => .ok (.muls (fieldZ w) (fieldX w) (fieldY w) (fieldI w))
  | some .sla => .ok (.sla (fieldZ w) (fieldX w) (fieldY w) (fieldI w))
  | some .div => .ok (.div (fieldZ w) (fieldX w) (fieldY w) (fieldI w))
  | some .srl => .ok (.srl (fieldZ w) (fieldX w) (fieldY w) (fieldI w))
  | some .divs => .ok (.divs (fieldZ w) (fieldX w) (fieldY w) (fieldI w))
  | some .sra => .ok (.sra (fieldZ w) (fieldX w) (fieldY w) (fieldI w))
  | none => .error (.unknownDiscriminant (fieldOp w))

/-- The bit-clear/bit-set pair, told apart by L.B (R119). -/
def decodeFamily21 (w : Word) : Except DecodeError Instr :=
  match selected Machine.Param.config.bitSubop.members (fieldB w) with
  | some .cbr => .ok (.cbr (fieldZ w) (fieldX w))
  | some .sbr => .ok (.sbr (fieldZ w) (fieldX w))
  | none => .error (.unknownDiscriminant (fieldOp w))

/-- The instruction of what a primary opcode selected, its fields taken from the word. -/
def decodeAs (o : Opcode) (w : Word) : Except DecodeError Instr :=
  match o with
  | .mov => .ok (.mov (fieldZ w) (fieldImm21 w))
  | .movs => .ok (.movs (fieldZ w) (fieldImm21 w))
  | .add => .ok (.add (fieldZ w) (fieldX w) (fieldY w))
  | .sub => .ok (.sub (fieldZ w) (fieldX w) (fieldY w))
  | .shiftMulDiv => decodeFamily04 w
  | .cmp => .ok (.cmp (fieldX w) (fieldY w))
  | .and => .ok (.and (fieldZ w) (fieldX w) (fieldY w))
  | .or => .ok (.or (fieldZ w) (fieldX w) (fieldY w))
  | .not => .ok (.not (fieldZ w) (fieldX w))
  | .xor => .ok (.xor (fieldZ w) (fieldX w) (fieldY w))
  | .push => .ok (.push (activeList (fieldV w) (fieldW w) (fieldX w) (fieldY w) (fieldZ w)))
  | .pop => .ok (.pop (activeList (fieldV w) (fieldW w) (fieldX w) (fieldY w) (fieldZ w)))
  | .addi => .ok (.addi (fieldZF w) (fieldXF w) (fieldImm16 w))
  | .subi => .ok (.subi (fieldZF w) (fieldXF w) (fieldImm16 w))
  | .muli => .ok (.muli (fieldZF w) (fieldXF w) (fieldImm16 w))
  | .divi => .ok (.divi (fieldZF w) (fieldXF w) (fieldImm16 w))
  | .modi => .ok (.modi (fieldZF w) (fieldXF w) (fieldImm16 w))
  | .cmpi => .ok (.cmpi (fieldXF w) (fieldImm16 w))
  | .l8 => .ok (.l8 (fieldZF w) (fieldXF w) (fieldImm16 w))
  | .l16 => .ok (.l16 (fieldZF w) (fieldXF w) (fieldImm16 w))
  | .l32 => .ok (.l32 (fieldZF w) (fieldXF w) (fieldImm16 w))
  | .s8 => .ok (.s8 (fieldZF w) (fieldXF w) (fieldImm16 w))
  | .s16 => .ok (.s16 (fieldZF w) (fieldXF w) (fieldImm16 w))
  | .s32 => .ok (.s32 (fieldZF w) (fieldXF w) (fieldImm16 w))
  | .callF => .ok (.callF (fieldXF w) (fieldImm16 w))
  | .ret => .ok .ret
  | .reti => .ok .reti
  | .bitSetClear => decodeFamily21 w
  | .bae => .ok (.bae (fieldImm26 w))
  | .bat => .ok (.bat (fieldImm26 w))
  | .bbe => .ok (.bbe (fieldImm26 w))
  | .bbt => .ok (.bbt (fieldImm26 w))
  | .beq => .ok (.beq (fieldImm26 w))
  | .bge => .ok (.bge (fieldImm26 w))
  | .bgt => .ok (.bgt (fieldImm26 w))
  | .biv => .ok (.biv (fieldImm26 w))
  | .ble => .ok (.ble (fieldImm26 w))
  | .blt => .ok (.blt (fieldImm26 w))
  | .bne => .ok (.bne (fieldImm26 w))
  | .bni => .ok (.bni (fieldImm26 w))
  | .bnz => .ok (.bnz (fieldImm26 w))
  | .bun => .ok (.bun (fieldImm26 w))
  | .bzd => .ok (.bzd (fieldImm26 w))
  | .callS => .ok (.callS (fieldImm26 w))
  | .int => .ok (.int (fieldImm26 w))

/-- The instruction of a primary opcode. Every opcode without an entry in the map is rejected by name (R120). -/
def decodeOp (op : BitVec 6) (w : Word) : Except DecodeError Instr :=
  match opcodeAt op with
  | some o => decodeAs o w
  | none => .error (.unknownOpcode op)

/-- The decoder: total and pure (R123, R144). -/
def decode (w : Word) : Except DecodeError Instr := decodeOp (fieldOp w) w

/-! ### Bytes (20_memory.md R73: big-endian) -/

/-- The four bytes of a word, the one at the lowest address (bits [31:24]) first. -/
def wordBytes (w : Word) : List Byte := [w.extractLsb' 24 8, w.extractLsb' 16 8, w.extractLsb' 8 8, w.extractLsb' 0 8]

/-- The word whose bytes at addresses w+0 to w+3 are these (R73). -/
def bytesWord (b0 b1 b2 b3 : Byte) : Word := b0 ++ b1 ++ b2 ++ b3

/-- Decodes the instruction at the head of a run of bytes and returns the rest. -/
def decodeBytes : List Byte → Except DecodeError (Instr × List Byte)
  | b0 :: b1 :: b2 :: b3 :: rest =>
    match decode (bytesWord b0 b1 b2 b3) with
    | .ok i => .ok (i, rest)
    | .error e => .error e
  | _ => .error .truncated

/-! ### Encoding (R126), ignored bits as zeros -/

/-- A field of a word with its lowest bit at `k`, every other bit 0. -/
def place {n : Nat} (v : BitVec n) (k : Nat) : Word := v.setWidth 32 <<< k
/-- A field of L, likewise. -/
def placeL {n : Nat} (v : BitVec n) (k : Nat) : BitVec 11 := v.setWidth 11 <<< k
/-- Format U. -/
def packU (op : BitVec 6) (z x y : RegIdx) (l : BitVec 11) : Word :=
  place op 26 ||| place z formatU.z ||| place x formatU.x ||| place y formatU.y ||| place l formatU.l
/-- Format U with IMM21. -/
def packMov (op : BitVec 6) (z : RegIdx) (imm : BitVec 21) : Word :=
  place op 26 ||| place z formatU.z ||| place imm formatU.imm21
/-- Format F. -/
def packF (op : BitVec 6) (z x : RegIdx) (imm : BitVec 16) : Word :=
  place op 26 ||| place z formatF.z ||| place x formatF.x ||| place imm formatF.imm16
/-- Format S. -/
def packS (op : BitVec 6) (imm : BitVec 26) : Word := place op 26 ||| place imm formatS.imm26
/-- L for the family of opcode 0x04: L.SUB and I. -/
def packSub (sub : BitVec 3) (i : BitVec 5) : BitVec 11 :=
  placeL sub Machine.Param.config.shiftSubop.position ||| placeL i formatU.i
/-- L for the pair of opcode 0x21: L.B. -/
def packBit (b : BitVec 1) : BitVec 11 := placeL b Machine.Param.config.bitSubop.position
/-- L for push and pop: V and W. -/
def packVW (v w : RegIdx) : BitVec 11 := placeL v formatU.v ||| placeL w formatU.w
/-- The k-th register of a list, 0 where there is none. -/
def listReg (regs : List RegIdx) (k : Nat) : RegIdx := regs.getD k 0#5
/-- The words of push and pop: V, W, X, Y, Z in list order, absent registers as index 0 (R260). -/
def packList (op : BitVec 6) (regs : List RegIdx) : Word :=
  packU op (listReg regs 4) (listReg regs 2) (listReg regs 3) (packVW (listReg regs 0) (listReg regs 1))

/-- The word of a well-formed instruction. -/
def encode : Instr → Word
  | .mov z imm => packMov (opcodeOf .mov) z imm
  | .movs z imm => packMov (opcodeOf .movs) z imm
  | .add z x y => packU (opcodeOf .add) z x y 0#11
  | .sub z x y => packU (opcodeOf .sub) z x y 0#11
  | .mul z x y i => packU (opcodeOf .shiftMulDiv) z x y (packSub (subOf .mul) i)
  | .sll z x y i => packU (opcodeOf .shiftMulDiv) z x y (packSub (subOf .sll) i)
  | .muls z x y i => packU (opcodeOf .shiftMulDiv) z x y (packSub (subOf .muls) i)
  | .sla z x y i => packU (opcodeOf .shiftMulDiv) z x y (packSub (subOf .sla) i)
  | .div z x y i => packU (opcodeOf .shiftMulDiv) z x y (packSub (subOf .div) i)
  | .srl z x y i => packU (opcodeOf .shiftMulDiv) z x y (packSub (subOf .srl) i)
  | .divs z x y i => packU (opcodeOf .shiftMulDiv) z x y (packSub (subOf .divs) i)
  | .sra z x y i => packU (opcodeOf .shiftMulDiv) z x y (packSub (subOf .sra) i)
  | .cmp x y => packU (opcodeOf .cmp) 0#5 x y 0#11
  | .and z x y => packU (opcodeOf .and) z x y 0#11
  | .or z x y => packU (opcodeOf .or) z x y 0#11
  | .not z x => packU (opcodeOf .not) z x 0#5 0#11
  | .xor z x y => packU (opcodeOf .xor) z x y 0#11
  | .push regs => packList (opcodeOf .push) regs
  | .pop regs => packList (opcodeOf .pop) regs
  | .addi z x imm => packF (opcodeOf .addi) z x imm
  | .subi z x imm => packF (opcodeOf .subi) z x imm
  | .muli z x imm => packF (opcodeOf .muli) z x imm
  | .divi z x imm => packF (opcodeOf .divi) z x imm
  | .modi z x imm => packF (opcodeOf .modi) z x imm
  | .cmpi x imm => packF (opcodeOf .cmpi) 0#5 x imm
  | .l8 z x imm => packF (opcodeOf .l8) z x imm
  | .l16 z x imm => packF (opcodeOf .l16) z x imm
  | .l32 z x imm => packF (opcodeOf .l32) z x imm
  | .s8 z x imm => packF (opcodeOf .s8) z x imm
  | .s16 z x imm => packF (opcodeOf .s16) z x imm
  | .s32 z x imm => packF (opcodeOf .s32) z x imm
  | .callF x imm => packF (opcodeOf .callF) 0#5 x imm
  | .ret => packF (opcodeOf .ret) 0#5 0#5 0#16
  | .reti => packF (opcodeOf .reti) 0#5 0#5 0#16
  | .cbr z x => packU (opcodeOf .bitSetClear) z x 0#5 (packBit (bitOf .cbr))
  | .sbr z x => packU (opcodeOf .bitSetClear) z x 0#5 (packBit (bitOf .sbr))
  | .bae imm => packS (opcodeOf .bae) imm
  | .bat imm => packS (opcodeOf .bat) imm
  | .bbe imm => packS (opcodeOf .bbe) imm
  | .bbt imm => packS (opcodeOf .bbt) imm
  | .beq imm => packS (opcodeOf .beq) imm
  | .bge imm => packS (opcodeOf .bge) imm
  | .bgt imm => packS (opcodeOf .bgt) imm
  | .biv imm => packS (opcodeOf .biv) imm
  | .ble imm => packS (opcodeOf .ble) imm
  | .blt imm => packS (opcodeOf .blt) imm
  | .bne imm => packS (opcodeOf .bne) imm
  | .bni imm => packS (opcodeOf .bni) imm
  | .bnz imm => packS (opcodeOf .bnz) imm
  | .bun imm => packS (opcodeOf .bun) imm
  | .bzd imm => packS (opcodeOf .bzd) imm
  | .callS imm => packS (opcodeOf .callS) imm
  | .int imm => packS (opcodeOf .int) imm

/-- The bytes of a well-formed instruction, lowest address first. -/
def encodeBytes (i : Instr) : List Byte := wordBytes (encode i)

/-- The instruction the decoder reads from a word numbered as spec/opcode_table.json numbers it. -/
def decodeTableWord (nbits w : Nat) : Option Instr :=
  match decodeBytes (wordBytes (BitVec.ofNat 32 (w % 2 ^ nbits))) with
  | .ok (i, _) => some i
  | .error _ => none

end Sys2Proof
end

