-- ==== Sys2Proof/Machine/Memory.lean ====
section
/-! DEFINITION. Backing memory: 10_state.md rule R44 and 20_memory.md rules R71, R73, R75 to R78. One canonical form:
addresses strictly rising, below MEM_BYTES, and no byte equal to what an unlisted address reads as. -/

namespace Sys2Proof.Machine

/-- What an unlisted address reads as: "every other word is 0" at reset (R44, R380). -/
def unlistedByte : Byte := Param.config.resetByte

/-- Looks an address up among the cells. -/
def cellsRead : List Host.Cell → Nat → Byte
  | [], _ => unlistedByte
  | c :: cs, a => if c.1 = a then c.2 else cellsRead cs a

/-- Puts a cell before the first cell of a higher address. -/
def cellsInsert (c : Host.Cell) : List Host.Cell → List Host.Cell
  | [] => [c]
  | d :: ds => if c.1 < d.1 then c :: d :: ds else d :: cellsInsert c ds

/-- Drops every cell of an address. -/
def cellsErase (a : Nat) : List Host.Cell → List Host.Cell
  | [] => []
  | d :: ds => if d.1 = a then cellsErase a ds else d :: cellsErase a ds

/-- One byte of backing memory. -/
def Memory.read (m : Memory) (a : Nat) : Byte := cellsRead m.cells a

/-- Writes one byte, keeping the canonical form. -/
def Memory.write (m : Memory) (a : Nat) (v : Byte) : Memory :=
  if v = unlistedByte then ⟨cellsErase a m.cells⟩ else ⟨cellsInsert (a, v) (cellsErase a m.cells)⟩

/-- The canonical form of a memory. -/
abbrev Memory.wf (m : Memory) : Prop :=
  m.cells.Pairwise (fun c d => c.1 < d.1) ∧ ∀ c ∈ m.cells, c.2 ≠ unlistedByte ∧ c.1 < Param.memBytes

/-- The byte address of the word holding byte address `a`: `mem[a >> 2]` (R71, R75: the low two bits are dropped). -/
def wordBase (a : Nat) : Nat := a / 4 * 4

/-- The byte address of the halfword holding byte address `a` (R76: bit 0 is dropped). -/
def halfBase (a : Nat) : Nat := a / 2 * 2

/-- `mem[a >> 2]`, big-endian (R73, R75). -/
def Memory.loadWord (m : Memory) (a : Nat) : Word :=
  bytesWord (m.read (wordBase a)) (m.read (wordBase a + 1)) (m.read (wordBase a + 2)) (m.read (wordBase a + 3))

/-- The addressed halfword (R76). -/
def Memory.loadHalf (m : Memory) (a : Nat) : BitVec 16 := m.read (halfBase a) ++ m.read (halfBase a + 1)

/-- `mem[a >> 2] <- v` (R75). -/
def Memory.storeWord (m : Memory) (a : Nat) (v : Word) : Memory :=
  (((m.write (wordBase a) (v.extractLsb' 24 8)).write (wordBase a + 1) (v.extractLsb' 16 8)).write
    (wordBase a + 2) (v.extractLsb' 8 8)).write (wordBase a + 3) (v.extractLsb' 0 8)

/-- Writes the low 16 bits of `v` to the addressed halfword (R76). -/
def Memory.storeHalf (m : Memory) (a : Nat) (v : Word) : Memory :=
  (m.write (halfBase a) (v.extractLsb' 8 8)).write (halfBase a + 1) (v.extractLsb' 0 8)

/-- Writes the low 8 bits of `v` to the addressed byte (R77). -/
def Memory.storeByte (m : Memory) (a : Nat) (v : Word) : Memory := m.write a (v.extractLsb' 0 8)

end Sys2Proof.Machine
end

