-- ==== Sys2Proof/Machine/Operands.lean ====
section
/-! DEFINITION. Operand forms: immediates (30_encoding.md rule R115), the one addressing mode (45_load_store.md rule R240),
branch and call targets (47_control_transfer.md rules R270, R286, R287), register pairs and counts of the shifts
(42_shift_mul_div.md rule R198), and the arithmetic helpers of 41_arithmetic.md rule R169. -/

namespace Sys2Proof.Machine

/-- IMM21 zero-extended (mov, R115). -/
def zext21 (imm : BitVec 21) : Word := imm.setWidth 32
/-- IMM21 sign-extended (movs, R115). -/
def sext21 (imm : BitVec 21) : Word := imm.signExtend 32
/-- simm16: every IMM16 is sign-extended (R115). -/
def sext16 (imm : BitVec 16) : Word := imm.signExtend 32
/-- The operand of int, zero-extended (R115, D6). -/
def zext26 (imm : BitVec 26) : Word := imm.setWidth 32
/-- disp = sext_32(IMM26) << 2, of branches and call (S) (R115). -/
def disp26 (imm : BitVec 26) : Word := imm.signExtend 32 <<< 2

/-- ea = x[X] + sext_32(IMM16), in bytes, not scaled (R240). -/
def effectiveAddress (s : State) (x : RegIdx) (imm : BitVec 16) : Word := s.reg x + sext16 imm

/-- x[29] + 4: the return address of a call or an entry (R286, R287; 60_exceptions.md R322). -/
def returnAddress (s : State) : Word := s.reg PC + 4#32

/-- The target of a branch or of call (S), relative to the next instruction (R270, R287). -/
def relativeTarget (s : State) (imm : BitVec 26) : Word := s.reg PC + 4#32 + disp26 imm

/-- The target of call (F): x[X] + (sext_32(IMM16) << 2) (R286). -/
def registerTarget (s : State) (x : RegIdx) (imm : BitVec 16) : Word := s.reg x + (sext16 imm <<< 2)

/-- v = {x[Z], x[Y]}, the pair the shifts read (R198). -/
def shiftPair (s : State) (z y : RegIdx) : BitVec 64 := s.reg z ++ s.reg y

/-- s = I + 1, 1 to 32 (R198). -/
def shiftCount (i : BitVec 5) : Nat := i.toNat + 1

/-- 1 << X, the bit a cbr or sbr names (48_bit_set_clear.md R300). -/
def bitMask (x : BitVec 5) : Word := 1#32 <<< x.toNat

/-- zext_64(a) * zext_64(b) (R190). -/
def unsignedProduct (a b : Word) : BitVec 64 := a.setWidth 64 * b.setWidth 64

/-- sext_64(a) * sext_64(b) mod 2^64 (R191, R166). -/
def signedProduct (a b : Word) : BitVec 64 := a.signExtend 64 * b.signExtend 64

/-- sdivq: the signed quotient, truncated toward zero; 0x80000000 / -1 wraps (R169). -/
def signedQuotient (a b : Word) : Word :=
  if a = 0x80000000#32 ∧ b = 0xffffffff#32 then 0x80000000#32 else BitVec.ofInt 32 (a.toInt.tdiv b.toInt)

/-- sdivr: the signed remainder, with the sign of the dividend (R169). -/
def signedRemainder (a b : Word) : Word :=
  if a = 0x80000000#32 ∧ b = 0xffffffff#32 then 0#32
  else BitVec.ofInt 32 (a.toInt - b.toInt * a.toInt.tdiv b.toInt)

/-- a /u b and a %u b (R200). -/
def unsignedQuotient (a b : Word) : Word := BitVec.ofNat 32 (a.toNat / b.toNat)
def unsignedRemainder (a b : Word) : Word := BitVec.ofNat 32 (a.toNat % b.toNat)

end Sys2Proof.Machine
end

