-- ==== Sys2Proof/Machine/Ops.lean ====
section
/-! DEFINITION. The shared operations: memory with its device words (20_memory.md), the stack, TAKING AN EXCEPTION and
returning from one (60_exceptions.md section 2), the interrupt controller (section 3), the watchdog and FPU ticks
(sections 4 and 5), and loading an image (70_reset_and_hazards.md rule R380). -/

namespace Sys2Proof.Machine

/-- The answer of a shared operation as an outcome of the machine. -/
def finish : Except Fault State → Host.Outcome State Fault Refusal
  | .ok s => .next s
  | .error f => .fault f

/-! ### The FPU port: FPU_MODEL on the FPU's state (20_memory.md R95; 60_exceptions.md R347, R362) -/

/-- `fpu_read`: the word the FPU answers. -/
def fpuRead (r : FpuReg) (s : State) : Word × State :=
  let (v, p) := Param.fpuModel.read s.fpu r
  (v, s.setFpu p)

/-- `fpu_write`. -/
def fpuWrite (r : FpuReg) (v : Word) (s : State) : State := s.setFpu (Param.fpuModel.write s.fpu r v)

/-- `fpu_set_status`. -/
def fpuSetStatus (s : State) : State := s.setFpu (Param.fpuModel.setStatus s.fpu)

/-! ### Device words (20_memory.md R74, R80) -/

/-- The devices of the device sub-range. -/
inductive Device where
  | wdt
  | fpu (r : FpuReg)
  | term
deriving DecidableEq, Repr

/-- Access widths (20_memory.md R82). -/
inductive Width where
  | byte | half | word
deriving DecidableEq, Repr

/-- The number of bytes of an access. -/
def Width.bytes : Width → Nat
  | .byte => 1
  | .half => 2
  | .word => 4

/-- `a & ~3`. -/
def wordAddress (a : Word) : Word := a &&& ~~~3#32

/-- The device whose word holds byte address `a` (R72 step 1, R74). -/
def deviceAt (a : Word) : Option Device :=
  if wordAddress a = Param.addrWdt then some .wdt
  else if wordAddress a = Param.addrFpu .x then some (.fpu .x)
  else if wordAddress a = Param.addrFpu .y then some (.fpu .y)
  else if wordAddress a = Param.addrFpu .z then some (.fpu .z)
  else if wordAddress a = Param.addrFpu .ctrl then some (.fpu .ctrl)
  else if wordAddress a = wordAddress Param.addrTerm then some .term
  else none

/-- A load from a device word: the watchdog (60_exceptions.md R358) and the FPU words (R95) by word at the exact address;
anything else is a DeviceFault (R80). -/
def deviceRead (d : Device) (a : Word) (n : Width) (s : State) : Except Fault (Word × State) :=
  match d with
  | .wdt => if n = .word ∧ a = Param.addrWdt then .ok (s.wdt, s) else .error (.deviceFault a n.bytes)
  | .fpu r =>
    if n = .word ∧ a = Param.addrFpu r then .ok (fpuRead r s)
    else .error (.deviceFault a n.bytes)
  | .term => .error (.deviceFault a n.bytes)

/-- A store to a device word: the watchdog (60_exceptions.md R357) and the FPU words (R95) by word at the exact address, the
terminal (R96) by byte at the exact address; anything else is a DeviceFault (R80). -/
def deviceWrite (d : Device) (a : Word) (n : Width) (v : Word) (s : State) : Except Fault State :=
  match d with
  | .wdt => if n = .word ∧ a = Param.addrWdt then .ok (s.setWdt v) else .error (.deviceFault a n.bytes)
  | .fpu r =>
    if n = .word ∧ a = Param.addrFpu r then .ok (fpuWrite r v s) else .error (.deviceFault a n.bytes)
  | .term =>
    if n = .byte ∧ a = Param.addrTerm then .ok (s.emit (.termByte (v.extractLsb' 0 8)))
    else .error (.deviceFault a n.bytes)

/-! ### MemRead and MemWrite (20_memory.md R72, R75 to R78) -/

/-- A load from backing memory, zero-extended to a word (R75 to R77, R82). -/
def backingRead (m : Memory) (a : Word) : Width → Word
  | .byte => (m.read a.toNat).setWidth 32
  | .half => (m.loadHalf a.toNat).setWidth 32
  | .word => m.loadWord a.toNat

/-- A store to backing memory of the low bytes of `v` (R75 to R78, R82). -/
def backingWrite (m : Memory) (a : Word) (v : Word) : Width → Memory
  | .byte => m.storeByte a.toNat v
  | .half => m.storeHalf a.toNat v
  | .word => m.storeWord a.toNat v

/-- `MemRead(a, n)`: device word, else backing memory, else MemFault (R72). -/
def memRead (a : Word) (n : Width) (s : State) : Except Fault (Word × State) :=
  match deviceAt a with
  | some d => deviceRead d a n s
  | none => if a.toNat < Param.memBytes then .ok (backingRead s.mem a n, s) else .error (.memFault a)

/-- `MemWrite(a, n, v)`: device word, else backing memory, else MemFault (R72). -/
def memWrite (a : Word) (n : Width) (v : Word) (s : State) : Except Fault State :=
  match deviceAt a with
  | some d => deviceWrite d a n v s
  | none => if a.toNat < Param.memBytes then .ok (s.setMem (backingWrite s.mem a v n)) else .error (.memFault a)

/-! ### Stack (20_memory.md R84, R85) -/

/-- `push(v)`: word store at SP, then SP -= 4 (R84). Every push is a word of the stack, and a device word takes none: l32 and s32
alone reach it (92_eei_decisions.md D18, D41; 46_stack.md R261; log entry 9). -/
def push (v : Word) (s : State) : Except Fault State :=
  if (deviceAt (s.reg SP)).isSome then .error (.deviceFault (s.reg SP) 4)
  else do
    let t ← memWrite (s.reg SP) .word v s
    .ok (t.writeReg SP (t.reg SP - 4#32))

/-- `pop()`: SP += 4, then the word at SP (R85); from a device word, a fault as at push (46_stack.md R262; D18). -/
def pop (s : State) : Except Fault (Word × State) :=
  if (deviceAt (s.reg SP + 4#32)).isSome then .error (.deviceFault (s.reg SP + 4#32) 4)
  else memRead (s.reg SP + 4#32) .word (s.writeReg SP (s.reg SP + 4#32))

/-- Pops a word into a register. -/
def popInto (r : RegIdx) (s : State) : Except Fault State := do
  let (v, t) ← pop s
  .ok (t.writeReg r v)

/-- Pushes the registers of a list, first to last, each read when its own push happens (46_stack.md R261). -/
def pushList : List RegIdx → State → Except Fault State
  | [], s => .ok s
  | r :: rs, s => do
    let t ← push (s.reg r) s
    pushList rs t

/-- Pops into the registers of a list, first to last. -/
def popList : List RegIdx → State → Except Fault State
  | [], s => .ok s
  | r :: rs, s => do
    let t ← popInto r s
    popList rs t

/-! ### Taking an exception and returning from one (60_exceptions.md R322, R327) -/

/-- The entry protocol, shared by every trap and interrupt (R322): pushes x[29] + 4, CR and IPC, then CR <- cause,
IPC <- ipcval, pc <- vector. It changes nothing else, IE included (R323). -/
def enter (cause vector ipcval : Word) (s : State) : Except Fault State := do
  let s1 ← push (returnAddress s) s
  let s2 ← push (s1.reg CR) s1
  let s3 ← push (s2.reg IPC) s2
  .ok (((s3.writeReg CR cause).writeReg IPC ipcval).jump vector)

/-- The return from an interrupt (R327; 47_control_transfer.md R289): pops IPC, CR, then the PC. -/
def returnFromInterrupt (s : State) : Except Fault State := do
  let s1 ← popInto IPC s
  let s2 ← popInto CR s1
  let (t, s3) ← pop s2
  .ok (s3.jump t)

/-- The invalid-instruction trap of the captured word `w` (R324). -/
def invalidTrap (w : Word) (s : State) : Except Fault State :=
  let s1 := s.setFlag .iv true
  enter ((fieldOp w).setWidth 32) Param.vecInvalid (s1.reg PC) (s1.emit (.invalid (s1.reg PC) w))

/-- Division by zero: ZD <- 1, then the trap if IE = 1, nothing more if IE = 0 (R325; 42_shift_mul_div.md R199). -/
def divideByZero (s : State) : Except Fault State :=
  let s1 := s.setFlag .zd true
  if s1.flag .ie then
    enter Param.causeDivZero Param.vecDivZero (s1.reg PC) (s1.emit (.softwareInterrupt Param.causeDivZero))
  else .ok s1

/-- The software-interrupt trap, taken whatever IE says (R326). -/
def softwareInterrupt (c : Word) (s : State) : Except Fault State :=
  enter c Param.vecSwi (s.reg PC) (s.emit (.softwareInterrupt c))

/-! ### The interrupt controller (60_exceptions.md section 3) -/

/-- Entry of a hardware interrupt; a class that sets the FPU status bit, class 2, does so first (R342, R347). -/
def hwEnter (p : Prio) (cause ipcval : Word) (s : State) : Except Fault State :=
  let s1 := if Param.setsFpuStatus p then fpuSetStatus s else s
  enter cause (Param.hwVector p) ipcval (s1.emit (.hardwareInterrupt p cause))

/-- A list with `a` put at a position; past the end, last. -/
def insertAt {α : Type} (a : α) : Nat → List α → List α
  | 0, l => a :: l
  | _ + 1, [] => [a]
  | k + 1, d :: ds => d :: insertAt a k ds

/-- Inserts an entry at its place by class (R340). -/
def insertPending (e : PendingEntry) (l : List PendingEntry) : List PendingEntry :=
  insertAt e (Param.insertPosition e.prio (l.map (·.prio))) l

/-- Drops every entry with this priority and cause (R340, 10_state.md R52). -/
def evictPending (p : Prio) (cause : Word) (l : List PendingEntry) : List PendingEntry :=
  l.filter fun f => !(f.prio = p ∧ f.cause = cause)

/-- `schedule(p, c, s)`: PriorityFault on a priority with no class, immediate entry while IE = 1, else the pending list
(R340, R341). -/
def schedule (p : Nat) (cause savedPC : Word) (s : State) : Except Fault State :=
  match Param.prioOfNumber p with
  | none => .error (.priorityFault p)
  | some q =>
    if s.flag .ie then hwEnter q cause savedPC s
    else .ok (s.setPending (insertPending ⟨q, cause, savedPC⟩ (evictPending q cause s.pending)))

/-- drainOneIfPending: phase 5 (R345). -/
def drain (s : State) : Except Fault State :=
  match s.pending with
  | [] => .ok s
  | e :: rest => if s.flag .ie then hwEnter e.prio e.cause e.savedPC (s.setPending rest) else .ok s

/-! ### The watchdog and FPU ticks -/

/-- WDT.EN (10_state.md R45). -/
def wdtEnabled (v : Word) : Bool := v.getLsbD 31
/-- WDT.COUNT (10_state.md R45). -/
def wdtCount (v : Word) : BitVec 31 := v.extractLsb' 0 31

/-- wdt_tick: phase 6 (60_exceptions.md R359). -/
def wdtTick (s : State) : Except Fault State :=
  if wdtEnabled s.wdt then
    if wdtCount s.wdt = 0#31 then do
      let t ← schedule Param.prioWdt Param.causeWdt (s.reg PC) s
      .ok (t.setWdt (putBit t.wdt 31 false))
    else .ok (s.setWdt (1#1 ++ (wdtCount s.wdt - 1#31)))
  else .ok s

/-- Schedules what a tick of the FPU answered (R364). -/
def serveFpu (r : Option FpuRequest) (s : State) : Except Fault State :=
  match r with
  | none => .ok s
  | some q => schedule q.prio q.cause (s.reg PC) s

/-- The FPU tick: phase 7 (R364). -/
def fpuTick (s : State) : Except Fault State :=
  let (r, p) := Param.fpuModel.tick s.fpu
  serveFpu r (s.setFpu p)

/-! ### Loading an image (70_reset_and_hazards.md R380) -/

/-- Stores the words from byte address `a` on: the backing array directly, no MemWrite. -/
def storeImage : List Word → Nat → Memory → Memory
  | [], _, m => m
  | w :: ws, a, m => storeImage ws (a + 4) (m.storeWord a w)

/-- Loads an image at address 0; one longer than memory is refused before the run (R380, D42). -/
def loadImage (image : List Word) (s : State) : Option State :=
  if 4 * image.length ≤ Param.memBytes then some (s.setMem (storeImage image 0 s.mem)) else none

end Sys2Proof.Machine
end

