-- ==== Sys2Proof/Machine/Arithmetic.lean ====
section
/-! DEFINITION. The arithmetic instructions: 41_arithmetic.md. -/

namespace Sys2Proof.Machine

/-- Writes the sum of `a` and `b` to x[Z] and addflags (R162, R164). -/
def addInto (z : RegIdx) (a b : Word) (s : State) : Host.Outcome State Fault Refusal := .next (addFlags a b (s.writeReg z (a + b)))

/-- Writes the difference to x[Z] and subflags (R163, R165). -/
def subInto (z : RegIdx) (a b : Word) (s : State) : Host.Outcome State Fault Refusal := .next (subFlags a b (s.writeReg z (a - b)))

/-- mov (R160). -/
def execMov (z : RegIdx) (imm : BitVec 21) (s : State) : Host.Outcome State Fault Refusal := .next (s.writeReg z (zext21 imm))

/-- movs (R161). -/
def execMovs (z : RegIdx) (imm : BitVec 21) (s : State) : Host.Outcome State Fault Refusal := .next (s.writeReg z (sext21 imm))

/-- add (R162). -/
def execAdd (z x y : RegIdx) (s : State) : Host.Outcome State Fault Refusal := addInto z (s.reg x) (s.reg y) s

/-- sub (R163). -/
def execSub (z x y : RegIdx) (s : State) : Host.Outcome State Fault Refusal := subInto z (s.reg x) (s.reg y) s

/-- addi (R164). -/
def execAddi (z x : RegIdx) (imm : BitVec 16) (s : State) : Host.Outcome State Fault Refusal := addInto z (s.reg x) (sext16 imm) s

/-- subi (R165). -/
def execSubi (z x : RegIdx) (imm : BitVec 16) (s : State) : Host.Outcome State Fault Refusal := subInto z (s.reg x) (sext16 imm) s

/-- muli: signed, low word (R166). -/
def execMuli (z x : RegIdx) (imm : BitVec 16) (s : State) : Host.Outcome State Fault Refusal :=
  let p := signedProduct (s.reg x) (sext16 imm)
  .next (mulImmFlags p (s.writeReg z (loWord p)))

/-- divi: signed quotient (R167). -/
def execDivi (z x : RegIdx) (imm : BitVec 16) (s : State) : Host.Outcome State Fault Refusal :=
  let a := s.reg x
  let b := sext16 imm
  if b = 0#32 then finish (divideByZero s)
  else
    let q := signedQuotient a b
    .next (signedDivFlags a b q (s.writeReg z q))

/-- modi: signed remainder (R168). -/
def execModi (z x : RegIdx) (imm : BitVec 16) (s : State) : Host.Outcome State Fault Refusal :=
  let a := s.reg x
  let b := sext16 imm
  if b = 0#32 then finish (divideByZero s)
  else
    let m := signedRemainder a b
    .next (signedDivFlags a b m (s.writeReg z m))

end Sys2Proof.Machine
end

