-- ==== Sys2Proof/Machine/BitTrap.lean ====
section
/-! DEFINITION. Bit clear and set (48_bit_set_clear.md) and the software trap (49_software_trap.md). -/

namespace Sys2Proof.Machine

/-- cbr: x[Z] <- x[Z] & ~(1 << X) (R301). -/
def execCbr (z : RegIdx) (x : BitVec 5) (s : State) : Host.Outcome State Fault Refusal := .next (s.writeReg z (s.reg z &&& ~~~bitMask x))

/-- sbr: x[Z] <- x[Z] | (1 << X) (R302). -/
def execSbr (z : RegIdx) (x : BitVec 5) (s : State) : Host.Outcome State Fault Refusal := .next (s.writeReg z (s.reg z ||| bitMask x))

/-- int: halts on operand 0, emitting End, and otherwise takes the software-interrupt trap (R310). -/
def execInt (imm : BitVec 26) (s : State) : Host.Outcome State Fault Refusal :=
  if zext26 imm = 0#32 then .next (s.halt.emit .endRun) else finish (softwareInterrupt (zext26 imm) s)

end Sys2Proof.Machine
end

