-- ==== Sys2Proof/Machine/CompareLogic.lean ====
section
/-! DEFINITION. The compare instructions (43_compare.md) and the logic instructions (44_logic.md). -/

namespace Sys2Proof.Machine

/-- cmp: the flags of sub, no other register (R220). -/
def execCmp (x y : RegIdx) (s : State) : Host.Outcome State Fault Refusal := .next (subFlags (s.reg x) (s.reg y) s)

/-- cmpi: the flags of subi (R221). -/
def execCmpi (x : RegIdx) (imm : BitVec 16) (s : State) : Host.Outcome State Fault Refusal := .next (subFlags (s.reg x) (sext16 imm) s)

/-- Writes a logic result and its flags (R234). -/
def logicInto (z : RegIdx) (r : Word) (s : State) : Host.Outcome State Fault Refusal := .next (logicFlags r (s.writeReg z r))

/-- and (R230). -/
def execAnd (z x y : RegIdx) (s : State) : Host.Outcome State Fault Refusal := logicInto z (s.reg x &&& s.reg y) s

/-- or (R231). -/
def execOr (z x y : RegIdx) (s : State) : Host.Outcome State Fault Refusal := logicInto z (s.reg x ||| s.reg y) s

/-- not (R232). -/
def execNot (z x : RegIdx) (s : State) : Host.Outcome State Fault Refusal := logicInto z (~~~s.reg x) s

/-- xor (R233). -/
def execXor (z x y : RegIdx) (s : State) : Host.Outcome State Fault Refusal := logicInto z (s.reg x ^^^ s.reg y) s

end Sys2Proof.Machine
end

