-- ==== Sys2Proof/Machine/Control.lean ====
section
/-! DEFINITION. The control-transfer instructions: 47_control_transfer.md. -/

namespace Sys2Proof.Machine

/-- A branch: to the target where the condition holds, else nothing (R270). -/
def branchIf (cond : Bool) (imm : BitVec 26) (s : State) : Host.Outcome State Fault Refusal :=
  if cond then .next (s.jump (relativeTarget s imm)) else .next s

/-- bae: CY = 0 (R271). -/
def execBae (imm : BitVec 26) (s : State) : Host.Outcome State Fault Refusal := branchIf (s.takes .bae) imm s

/-- bat: ZN = 0 and CY = 0 (R272). -/
def execBat (imm : BitVec 26) (s : State) : Host.Outcome State Fault Refusal := branchIf (s.takes .bat) imm s

/-- bbe: ZN = 1 or CY = 1 (R273). -/
def execBbe (imm : BitVec 26) (s : State) : Host.Outcome State Fault Refusal := branchIf (s.takes .bbe) imm s

/-- bbt: CY = 1 (R274). -/
def execBbt (imm : BitVec 26) (s : State) : Host.Outcome State Fault Refusal := branchIf (s.takes .bbt) imm s

/-- beq: ZN = 1 (R275). -/
def execBeq (imm : BitVec 26) (s : State) : Host.Outcome State Fault Refusal := branchIf (s.takes .beq) imm s

/-- bge: SN = OV (R276). -/
def execBge (imm : BitVec 26) (s : State) : Host.Outcome State Fault Refusal := branchIf (s.takes .bge) imm s

/-- bgt: ZN = 0 and SN = OV (R277). -/
def execBgt (imm : BitVec 26) (s : State) : Host.Outcome State Fault Refusal := branchIf (s.takes .bgt) imm s

/-- biv: IV = 1 (R278). -/
def execBiv (imm : BitVec 26) (s : State) : Host.Outcome State Fault Refusal := branchIf (s.takes .biv) imm s

/-- ble: ZN = 1 or SN != OV (R279). -/
def execBle (imm : BitVec 26) (s : State) : Host.Outcome State Fault Refusal := branchIf (s.takes .ble) imm s

/-- blt: SN != OV (R280). -/
def execBlt (imm : BitVec 26) (s : State) : Host.Outcome State Fault Refusal := branchIf (s.takes .blt) imm s

/-- bne: ZN = 0 (R281). -/
def execBne (imm : BitVec 26) (s : State) : Host.Outcome State Fault Refusal := branchIf (s.takes .bne) imm s

/-- bni: IV = 0 (R282). -/
def execBni (imm : BitVec 26) (s : State) : Host.Outcome State Fault Refusal := branchIf (s.takes .bni) imm s

/-- bnz: ZD = 0 (R283). -/
def execBnz (imm : BitVec 26) (s : State) : Host.Outcome State Fault Refusal := branchIf (s.takes .bnz) imm s

/-- bun: always (R284). -/
def execBun (imm : BitVec 26) (s : State) : Host.Outcome State Fault Refusal := branchIf (s.takes .bun) imm s

/-- bzd: ZD = 1 (R285). -/
def execBzd (imm : BitVec 26) (s : State) : Host.Outcome State Fault Refusal := branchIf (s.takes .bzd) imm s

/-- A call: the return address is pushed, then pc <- target (R286, R287). -/
def callTo (target : Word) (s : State) : Except Fault State := do
  let t ← push (returnAddress s) s
  .ok (t.jump target)

/-- call (F): the target is computed before the push (R286). -/
def execCallF (x : RegIdx) (imm : BitVec 16) (s : State) : Host.Outcome State Fault Refusal := finish (callTo (registerTarget s x imm) s)

/-- call (S) (R287). -/
def execCallS (imm : BitVec 26) (s : State) : Host.Outcome State Fault Refusal := finish (callTo (relativeTarget s imm) s)

/-- Pops the next instruction's address (R288). -/
def returnFromCall (s : State) : Except Fault State := do
  let (v, t) ← pop s
  .ok (t.jump v)

/-- ret (R288). -/
def execRet (s : State) : Host.Outcome State Fault Refusal := finish (returnFromCall s)

/-- reti (R289). -/
def execReti (s : State) : Host.Outcome State Fault Refusal := finish (returnFromInterrupt s)

end Sys2Proof.Machine
end

