-- ==== Sys2Proof/Machine/LoadStore.lean ====
section
/-! DEFINITION. The load and store instructions: 45_load_store.md. No flag is written (rule R247). -/

namespace Sys2Proof.Machine

/-- x[Z] <- zext_32(MemRead(ea, n)); with Z = 0 the access still happens (R240, R241). -/
def loadInto (n : Width) (z x : RegIdx) (imm : BitVec 16) (s : State) : Except Fault State := do
  let (v, t) ← memRead (effectiveAddress s x imm) n s
  .ok (t.writeReg z v)

/-- MemWrite(ea, n, x[Z]) (R240, R244). -/
def storeFrom (n : Width) (z x : RegIdx) (imm : BitVec 16) (s : State) : Except Fault State :=
  memWrite (effectiveAddress s x imm) n (s.reg z) s

/-- l8 (R241). -/
def execL8 (z x : RegIdx) (imm : BitVec 16) (s : State) : Host.Outcome State Fault Refusal := finish (loadInto .byte z x imm s)

/-- l16 (R242). -/
def execL16 (z x : RegIdx) (imm : BitVec 16) (s : State) : Host.Outcome State Fault Refusal := finish (loadInto .half z x imm s)

/-- l32 (R243). -/
def execL32 (z x : RegIdx) (imm : BitVec 16) (s : State) : Host.Outcome State Fault Refusal := finish (loadInto .word z x imm s)

/-- s8 (R244). -/
def execS8 (z x : RegIdx) (imm : BitVec 16) (s : State) : Host.Outcome State Fault Refusal := finish (storeFrom .byte z x imm s)

/-- s16 (R245). -/
def execS16 (z x : RegIdx) (imm : BitVec 16) (s : State) : Host.Outcome State Fault Refusal := finish (storeFrom .half z x imm s)

/-- s32 (R246). -/
def execS32 (z x : RegIdx) (imm : BitVec 16) (s : State) : Host.Outcome State Fault Refusal := finish (storeFrom .word z x imm s)

end Sys2Proof.Machine
end

