-- ==== Sys2Proof/Machine/ShiftMulDiv.lean ====
section
/-! DEFINITION. The shift, multiply and divide family of opcode 0x04: 42_shift_mul_div.md. -/

namespace Sys2Proof.Machine

/-- The low part to one register, then the high part to another: the second write wins where both name one slot (R192). -/
def writePair (lowDest highDest : RegIdx) (low high : Word) (s : State) : State :=
  (s.writeReg lowDest low).writeReg highDest high

/-- mul: unsigned widening multiply (R190). -/
def execMul (z x y i : RegIdx) (s : State) : Host.Outcome State Fault Refusal :=
  let p := unsignedProduct (s.reg x) (s.reg y)
  .next (wideUnsignedFlags p (writePair z i (loWord p) (hiWord p) s))

/-- muls: signed widening multiply (R191). -/
def execMuls (z x y i : RegIdx) (s : State) : Host.Outcome State Fault Refusal :=
  let p := signedProduct (s.reg x) (s.reg y)
  .next (wideSignedFlags p (writePair z i (loWord p) (hiWord p) s))

/-- A shift's result: low word to x[X], high word to x[Z] (R198). -/
def shiftResult (z x : RegIdx) (r : BitVec 64) (s : State) : State := writePair x z (loWord r) (hiWord r) s

/-- sll: logical shift left of the pair (R194). -/
def execSll (z x y : RegIdx) (i : BitVec 5) (s : State) : Host.Outcome State Fault Refusal :=
  let r := shiftPair s z y <<< shiftCount i
  .next (wideUnsignedFlags r (shiftResult z x r s))

/-- sla: the same bits as sll, with the signed flags (R195). -/
def execSla (z x y : RegIdx) (i : BitVec 5) (s : State) : Host.Outcome State Fault Refusal :=
  let r := shiftPair s z y <<< shiftCount i
  .next (wideSignedFlags r (shiftResult z x r s))

/-- srl: logical shift right of the pair (R196). -/
def execSrl (z x y : RegIdx) (i : BitVec 5) (s : State) : Host.Outcome State Fault Refusal :=
  let r := shiftPair s z y >>> shiftCount i
  .next (wideUnsignedFlags r (shiftResult z x r s))

/-- sra: arithmetic shift right of the pair (R197). -/
def execSra (z x y : RegIdx) (i : BitVec 5) (s : State) : Host.Outcome State Fault Refusal :=
  let r := (shiftPair s z y).sshiftRight (shiftCount i)
  .next (wideSignedFlags r (shiftResult z x r s))

/-- div: unsigned, quotient to x[Z], remainder to x[I] (R199, R200). -/
def execDiv (z x y i : RegIdx) (s : State) : Host.Outcome State Fault Refusal :=
  let a := s.reg x
  let b := s.reg y
  if b = 0#32 then finish (divideByZero s)
  else
    let q := unsignedQuotient a b
    let m := unsignedRemainder a b
    .next (unsignedDivFlags q m (writePair z i q m s))

/-- divs: signed, quotient to x[Z], remainder to x[I] (R199, R201). -/
def execDivs (z x y i : RegIdx) (s : State) : Host.Outcome State Fault Refusal :=
  let a := s.reg x
  let b := s.reg y
  if b = 0#32 then finish (divideByZero s)
  else
    let q := signedQuotient a b
    .next (signedDivFlags a b q (writePair z i q (signedRemainder a b) s))

end Sys2Proof.Machine
end

