-- ==== Sys2Proof/Machine/Stack.lean ====
section
/-! DEFINITION. The stack instructions: 46_stack.md. -/

namespace Sys2Proof.Machine

/-- push: the list first to last (R261). -/
def execPush (regs : List RegIdx) (s : State) : Host.Outcome State Fault Refusal := finish (pushList regs s)

/-- pop: the list last to first (R262). -/
def execPop (regs : List RegIdx) (s : State) : Host.Outcome State Fault Refusal := finish (popList regs.reverse s)

end Sys2Proof.Machine
end

