-- ==== Sys2Proof/Machine/Dispatch.lean ====
section
/-! DEFINITION. One arm for each instruction (40_fetch_dispatch.md rule R144). -/

namespace Sys2Proof.Machine

def exec (i : Instr) (s : State) : Host.Outcome State Fault Refusal :=
  match i with
  | .mov z imm => Sys2Proof.Machine.execMov z imm s
  | .movs z imm => Sys2Proof.Machine.execMovs z imm s
  | .add z x y => Sys2Proof.Machine.execAdd z x y s
  | .sub z x y => Sys2Proof.Machine.execSub z x y s
  | .addi z x imm => Sys2Proof.Machine.execAddi z x imm s
  | .subi z x imm => Sys2Proof.Machine.execSubi z x imm s
  | .muli z x imm => Sys2Proof.Machine.execMuli z x imm s
  | .divi z x imm => Sys2Proof.Machine.execDivi z x imm s
  | .modi z x imm => Sys2Proof.Machine.execModi z x imm s
  | .mul z x y h => Sys2Proof.Machine.execMul z x y h s
  | .muls z x y h => Sys2Proof.Machine.execMuls z x y h s
  | .sll z x y n => Sys2Proof.Machine.execSll z x y n s
  | .sla z x y n => Sys2Proof.Machine.execSla z x y n s
  | .srl z x y n => Sys2Proof.Machine.execSrl z x y n s
  | .sra z x y n => Sys2Proof.Machine.execSra z x y n s
  | .div z x y h => Sys2Proof.Machine.execDiv z x y h s
  | .divs z x y h => Sys2Proof.Machine.execDivs z x y h s
  | .cmp x y => Sys2Proof.Machine.execCmp x y s
  | .cmpi x imm => Sys2Proof.Machine.execCmpi x imm s
  | .and z x y => Sys2Proof.Machine.execAnd z x y s
  | .or z x y => Sys2Proof.Machine.execOr z x y s
  | .not z x => Sys2Proof.Machine.execNot z x s
  | .xor z x y => Sys2Proof.Machine.execXor z x y s
  | .l8 z x imm => Sys2Proof.Machine.execL8 z x imm s
  | .l16 z x imm => Sys2Proof.Machine.execL16 z x imm s
  | .l32 z x imm => Sys2Proof.Machine.execL32 z x imm s
  | .s8 z x imm => Sys2Proof.Machine.execS8 z x imm s
  | .s16 z x imm => Sys2Proof.Machine.execS16 z x imm s
  | .s32 z x imm => Sys2Proof.Machine.execS32 z x imm s
  | .push regs => Sys2Proof.Machine.execPush regs s
  | .pop regs => Sys2Proof.Machine.execPop regs s
  | .bae imm => Sys2Proof.Machine.execBae imm s
  | .bat imm => Sys2Proof.Machine.execBat imm s
  | .bbe imm => Sys2Proof.Machine.execBbe imm s
  | .bbt imm => Sys2Proof.Machine.execBbt imm s
  | .beq imm => Sys2Proof.Machine.execBeq imm s
  | .bge imm => Sys2Proof.Machine.execBge imm s
  | .bgt imm => Sys2Proof.Machine.execBgt imm s
  | .biv imm => Sys2Proof.Machine.execBiv imm s
  | .ble imm => Sys2Proof.Machine.execBle imm s
  | .blt imm => Sys2Proof.Machine.execBlt imm s
  | .bne imm => Sys2Proof.Machine.execBne imm s
  | .bni imm => Sys2Proof.Machine.execBni imm s
  | .bnz imm => Sys2Proof.Machine.execBnz imm s
  | .bun imm => Sys2Proof.Machine.execBun imm s
  | .bzd imm => Sys2Proof.Machine.execBzd imm s
  | .callF x imm => Sys2Proof.Machine.execCallF x imm s
  | .callS imm => Sys2Proof.Machine.execCallS imm s
  | .ret => Sys2Proof.Machine.execRet s
  | .reti => Sys2Proof.Machine.execReti s
  | .cbr z x => Sys2Proof.Machine.execCbr z x s
  | .sbr z x => Sys2Proof.Machine.execSbr z x s
  | .int imm => Sys2Proof.Machine.execInt imm s

end Sys2Proof.Machine
end

