-- ==== Sys2Proof/Machine/Cycle.lean ====
section
/-! DEFINITION. The fetch cycle: 40_fetch_dispatch.md rules R140 to R149. -/

namespace Sys2Proof.Machine

/-- FETCH: the word at PC from backing memory, PC[1:0] ignored; IR <- word; `Exec` is emitted (R141, R156; 20_memory.md
R83). The word is also returned: it is the one decoded. -/
def fetch (s : State) : Except Fault (Word × State) :=
  let pc := s.reg PC
  match deviceAt pc with
  | some _ => .error (.fetchFault pc)
  | none =>
    if pc.toNat < Param.memBytes then
      let w := s.mem.loadWord pc.toNat
      .ok (w, (s.writeReg IR w).emit (.exec pc w))
    else .error (.fetchFault pc)

/-- DECODE and EXECUTE of the captured word: the instruction's rule, or the invalid-instruction trap (R144, R145). -/
def execute (w : Word) (s : State) : Host.Outcome State Fault Refusal :=
  match decode w with
  | .ok i => exec i s
  | .error _ => finish (invalidTrap w s)

/-- ADVANCE: x[29] <- x[29] + 4 (R146). -/
def advance (s : State) : State := s.writeReg PC (s.reg PC + 4#32)

/-- Phases 5 to 8: drain, watchdog tick, FPU tick, advance (R140). -/
def afterExecute (s : State) : Except Fault State := do
  let s1 ← drain s
  let s2 ← wdtTick s1
  let s3 ← fpuTick s2
  .ok (advance s3)

/-- Phase 4 on: a cycle that halted performs no phase 5 to 8 (R149). -/
def endCycle : Host.Outcome State Fault Refusal → Host.Outcome State Fault Refusal
  | .next s => if s.halted then .next s else finish (afterExecute s)
  | .fault f => .fault f
  | .refused r => .refused r

/-- One fetch cycle (R140). -/
def cycle (s : State) : Host.Outcome State Fault Refusal :=
  match fetch s with
  | .ok (w, s1) => endCycle (execute w s1)
  | .error f => .fault f

/-- A PC that `fetch` can read (20_memory.md R83). -/
def fetchable (pc : Word) : Bool := (deviceAt pc).isNone && decide (pc.toNat < Param.memBytes)

end Sys2Proof.Machine
end

