-- ==== Sys2Proof/Machine/Step.lean ====
section
/-! DEFINITION. The step: one fetch cycle while `halted` = 0 and `fault` = none (40_fetch_dispatch.md rule R140), and placing
one instruction where the next fetch reads. -/

namespace Sys2Proof.Machine

/-- A fault mark ends the run (R155); a halted core runs no further cycle and its state stands (60_exceptions.md R375;
log entry 4, DESIGN CHOICE); otherwise one fetch cycle. -/
def step (s : State) : Host.Outcome State Fault Refusal :=
  match s.fault with
  | some f => .fault f
  | none => if s.halted then .next s else cycle s

/-- `s` with a word of spec/opcode_table.json stored where `step` fetches next, by the image load's direct write to the
backing array (70_reset_and_hazards.md R380). Where `s` could not run a cycle there, it is made to: not halted, no fault
mark, PC at the reset vector if it cannot be fetched from (log entry 6). -/
def State.withFetchWord (s : State) (nbits w : Nat) : State :=
  let s1 := if fetchable (s.reg PC) then s else s.writeReg PC 0#32
  { s1 with
    mem := s1.mem.storeWord (s1.reg PC).toNat (BitVec.ofNat 32 (w % 2 ^ nbits))
    halted := false
    fault := none }

end Sys2Proof.Machine
end

