-- ==== Sys2Proof/Safety.lean ====
section
/-! DEFINITION. What a good state and a good run are, in the terms the statements use. -/

namespace Sys2Proof.Machine

/-- The pending list is sorted by ascending priority number (10_state.md R51). -/
def PendingSorted (l : List PendingEntry) : Prop :=
  l.Pairwise fun d e => Param.prioNumber d.prio ≤ Param.prioNumber e.prio

/-- "at most one pending entry exists per (priority, cause) pair" (10_state.md R52). -/
def PendingDistinct (l : List PendingEntry) : Prop :=
  l.Pairwise fun d e => ¬(d.prio = e.prio ∧ d.cause = e.cause)

/-- The run has ended exactly when the stream says so, and a halted run's last event is `End` (40_fetch_dispatch.md R156). -/
def EventsMatchHalt (s : State) : Prop :=
  (s.halted = true → s.events.head? = some .endRun) ∧ (s.halted = false → Event.endRun ∉ s.events)

/-- The stream opens with `Start` and holds no other (R156). -/
def StartsOnce (s : State) : Prop := ∃ es, s.events = es ++ [.start] ∧ Event.start ∉ es

/-- Every port call the FPU has received came before its next tick, and an FPU that has received one is engaged. -/
def FpuRecordOrdered (p : FpuPort) : Prop :=
  (∀ a ∈ p.accesses, a.tick ≤ p.ticks) ∧ (p.accesses.Pairwise fun a b => b.tick ≤ a.tick) ∧
  (p.accesses ≠ [] → p.engaged = true)

/-- The invariant of the machine: canonical memory, a sorted pending list without duplicates, no fault mark, an event stream
that matches the run state, and an ordered record of the FPU port. -/
structure Inv (s : State) : Prop where
  memory : s.mem.wf
  sorted : PendingSorted s.pending
  distinct : PendingDistinct s.pending
  noFault : s.fault = none
  events : EventsMatchHalt s
  started : StartsOnce s
  fpu : FpuRecordOrdered s.fpu

/-- A run has ended well: halted, with no fault mark (40_fetch_dispatch.md R150). -/
def WellEnded (s : State) : Prop := s.halted = true ∧ s.fault = none

/-- A run of `k` steps from `s` meets no fault and no refusal. -/
def SafeFor (k : Nat) (s : State) : Prop := ∃ t, Host.Core.run Sys2Proof.core k s = .next t

/-! ### What an instruction changes and what it leaves -/

/-- An address of backing memory (20_memory.md R71). -/
abbrev InBacking (a : Word) : Prop := a.toNat < Param.memBytes

/-- The word of an address is one of the device words, spelled out (R74). -/
abbrev IsDeviceWord (a : Word) : Prop :=
  a &&& 0xfffffffc#32 ∈
    [0x80808080#32, 0x80808880#32, 0x80808884#32, 0x80808888#32, 0x8080888c#32, 0x80808890#32]

/-- The fault of a push or pop whose stack address is not in backing memory: "a store outside memory or to a device word is a
model fault" (46_stack.md R261, R262; 20_memory.md R72, R80; 60_exceptions.md R322). -/
def stackFault (a : Word) : Fault := if IsDeviceWord a then .deviceFault a 4 else .memFault a

/-- `mem[i]`: the backing word of index `i` as the concatenation of its four bytes, the lowest address first (R73). -/
def wordAt (m : Memory) (i : Nat) : Word := m.read (4 * i) ++ m.read (4 * i + 1) ++ m.read (4 * i + 2) ++ m.read (4 * i + 3)

/-- Every register reads as before. -/
def SameRegs (s t : State) : Prop := ∀ r, t.reg r = s.reg r

/-- Every byte of memory reads as before. -/
def SameMem (s t : State) : Prop := ∀ a, t.mem.read a = s.mem.read a

/-- Every byte of memory outside the words of the addresses `l` reads as before. -/
def SameMemOutside (l : List Word) (s t : State) : Prop :=
  ∀ b, (∀ a ∈ l, b / 4 ≠ a.toNat / 4) → t.mem.read b = s.mem.read b

/-- The pending list, the run state and the fault mark are as before. -/
def SameControl (s t : State) : Prop := t.pending = s.pending ∧ t.halted = s.halted ∧ t.fault = s.fault

/-- The watchdog, the FPU port and the event stream are as before. -/
def SameDevices (s t : State) : Prop := t.wdt = s.wdt ∧ t.fpu = s.fpu ∧ t.events = s.events

/-- What slot `r` holds after the register writes `ws`, made in order: the last write to it wins, and a write to slot 0 is
discarded (10_state.md R31; 42_shift_mul_div.md R192). -/
def lastWrite (ws : List (RegIdx × Word)) (r : RegIdx) (old : Word) : Word :=
  ws.foldl (fun v p => if p.1 = r ∧ r ≠ 0#5 then p.2 else v) old

/-- `t` is `s` after the register writes `ws` and then the flag writes `fs`, and nothing else: with destination SR the flags
win and every other bit of SR holds the written result (10_state.md R41, R42). -/
def Wrote (s t : State) (ws : List (RegIdx × Word)) (fs : List (Flag × Bool)) : Prop :=
  (∀ r, r ≠ SR → t.reg r = lastWrite ws r (s.reg r)) ∧
  (∀ p ∈ fs, t.flag p.1 = p.2) ∧
  (∀ j, j < 32 → (∀ p ∈ fs, Param.srPos p.1 ≠ j) →
    (t.reg SR).getLsbD j = (lastWrite ws SR (s.reg SR)).getLsbD j) ∧
  SameMem s t ∧ SameControl s t ∧ SameDevices s t

/-- The three words an entry pushes lie in backing memory. -/
abbrev StackRoom (s : State) : Prop :=
  InBacking (s.reg SP) ∧ InBacking (s.reg SP - 4#32) ∧ InBacking (s.reg SP - 8#32)

/-- `t` is `s` after the entry protocol onto backing memory: PC + 4, CR and IPC are stacked from high to low address, SP is 12
lower, CR, IPC and the PC hold the cause, `ipcval` and the compensated vector, and nothing else has changed but the events
and the FPU port, of which this says nothing (60_exceptions.md R322, R323). -/
def Entered (s t : State) (cause vector ipcval : Word) : Prop :=
  (∀ r, r ∉ [CR, IPC, PC, SP] → t.reg r = s.reg r) ∧
  t.reg CR = cause ∧ t.reg IPC = ipcval ∧ t.reg PC = vector - 4#32 ∧ t.reg SP = s.reg SP - 12#32 ∧
  wordAt t.mem ((s.reg SP).toNat / 4) = s.reg PC + 4#32 ∧
  wordAt t.mem ((s.reg SP - 4#32).toNat / 4) = s.reg CR ∧
  wordAt t.mem ((s.reg SP - 8#32).toNat / 4) = s.reg IPC ∧
  SameMemOutside [s.reg SP, s.reg SP - 4#32, s.reg SP - 8#32] s t ∧ t.wdt = s.wdt ∧ SameControl s t

/-- ZN, SN, CY and OV of a + b, as 41_arithmetic.md R169 gives them. -/
def sumFlags (a b : Word) : List (Flag × Bool) :=
  [(.zn, decide (a + b = 0#32)), (.sn, (a + b).getLsbD 31), (.cy, decide (2 ^ 32 ≤ a.toNat + b.toNat)),
   (.ov, decide (a.getLsbD 31 = b.getLsbD 31 ∧ (a + b).getLsbD 31 ≠ a.getLsbD 31))]

/-- ZN, SN, CY and OV of a - b, as 41_arithmetic.md R169 gives them. -/
def differenceFlags (a b : Word) : List (Flag × Bool) :=
  [(.zn, decide (a - b = 0#32)), (.sn, (a - b).getLsbD 31), (.cy, decide (a.toNat < b.toNat)),
   (.ov, decide (a.getLsbD 31 ≠ b.getLsbD 31 ∧ (a - b).getLsbD 31 ≠ a.getLsbD 31))]

/-- ZN and SN of a logic result (44_logic.md R234). -/
def logicResultFlags (r : Word) : List (Flag × Bool) := [(.zn, decide (r = 0#32)), (.sn, r.getLsbD 31)]

/-- An integer that 32-bit two's complement cannot hold. -/
abbrev OutOfRange (v : Int) : Prop := v < -2 ^ 31 ∨ 2 ^ 31 ≤ v

/-- The registers an instruction names as destinations. -/
def destRegs : Instr → List RegIdx
  | .mov z _ => [z]
  | .movs z _ => [z]
  | .add z _ _ => [z]
  | .sub z _ _ => [z]
  | .addi z _ _ => [z]
  | .subi z _ _ => [z]
  | .muli z _ _ => [z]
  | .divi z _ _ => [z]
  | .modi z _ _ => [z]
  | .mul z _ _ i => [z, i]
  | .muls z _ _ i => [z, i]
  | .sll z x _ _ => [z, x]
  | .sla z x _ _ => [z, x]
  | .srl z x _ _ => [z, x]
  | .sra z x _ _ => [z, x]
  | .div z _ _ i => [z, i]
  | .divs z _ _ i => [z, i]
  | .cmp _ _ => []
  | .cmpi _ _ => []
  | .and z _ _ => [z]
  | .or z _ _ => [z]
  | .not z _ => [z]
  | .xor z _ _ => [z]
  | .l8 z _ _ => [z]
  | .l16 z _ _ => [z]
  | .l32 z _ _ => [z]
  | .s8 _ _ _ => []
  | .s16 _ _ _ => []
  | .s32 _ _ _ => []
  | .push _ => []
  | .pop regs => regs
  | .bae _ => []
  | .bat _ => []
  | .bbe _ => []
  | .bbt _ => []
  | .beq _ => []
  | .bge _ => []
  | .bgt _ => []
  | .biv _ => []
  | .ble _ => []
  | .blt _ => []
  | .bne _ => []
  | .bni _ => []
  | .bnz _ => []
  | .bun _ => []
  | .bzd _ => []
  | .callF _ _ => []
  | .callS _ => []
  | .ret => []
  | .reti => []
  | .cbr z _ => [z]
  | .sbr z _ => [z]
  | .int _ => []

/-- The registers an instruction writes besides: SR for the flags, the PC of a control transfer, SP of a stack access, and
all that the entry protocol writes where the instruction can trap. -/
def implicitRegs : Instr → List RegIdx
  | .mov _ _ => []
  | .movs _ _ => []
  | .add _ _ _ => [SR]
  | .sub _ _ _ => [SR]
  | .addi _ _ _ => [SR]
  | .subi _ _ _ => [SR]
  | .muli _ _ _ => [SR]
  | .divi _ _ _ => [SR, SP, CR, IPC, PC]
  | .modi _ _ _ => [SR, SP, CR, IPC, PC]
  | .mul _ _ _ _ => [SR]
  | .muls _ _ _ _ => [SR]
  | .sll _ _ _ _ => [SR]
  | .sla _ _ _ _ => [SR]
  | .srl _ _ _ _ => [SR]
  | .sra _ _ _ _ => [SR]
  | .div _ _ _ _ => [SR, SP, CR, IPC, PC]
  | .divs _ _ _ _ => [SR, SP, CR, IPC, PC]
  | .cmp _ _ => [SR]
  | .cmpi _ _ => [SR]
  | .and _ _ _ => [SR]
  | .or _ _ _ => [SR]
  | .not _ _ => [SR]
  | .xor _ _ _ => [SR]
  | .l8 _ _ _ => []
  | .l16 _ _ _ => []
  | .l32 _ _ _ => []
  | .s8 _ _ _ => []
  | .s16 _ _ _ => []
  | .s32 _ _ _ => []
  | .push _ => [SP]
  | .pop _ => [SP]
  | .bae _ => [PC]
  | .bat _ => [PC]
  | .bbe _ => [PC]
  | .bbt _ => [PC]
  | .beq _ => [PC]
  | .bge _ => [PC]
  | .bgt _ => [PC]
  | .biv _ => [PC]
  | .ble _ => [PC]
  | .blt _ => [PC]
  | .bne _ => [PC]
  | .bni _ => [PC]
  | .bnz _ => [PC]
  | .bun _ => [PC]
  | .bzd _ => [PC]
  | .callF _ _ => [SP, PC]
  | .callS _ => [SP, PC]
  | .ret => [SP, PC]
  | .reti => [SP, IPC, CR, PC]
  | .cbr _ _ => []
  | .sbr _ _ => []
  | .int _ => [SP, CR, IPC, PC]

/-- The instructions that can store: the stores, the pushes, and those that can enter a trap. -/
def canStore : Instr → Bool
  | .s8 _ _ _ => true
  | .s16 _ _ _ => true
  | .s32 _ _ _ => true
  | .push _ => true
  | .callF _ _ => true
  | .callS _ => true
  | .int _ => true
  | .divi _ _ _ => true
  | .modi _ _ _ => true
  | .div _ _ _ _ => true
  | .divs _ _ _ _ => true
  | .mov _ _ => false
  | .movs _ _ => false
  | .add _ _ _ => false
  | .sub _ _ _ => false
  | .addi _ _ _ => false
  | .subi _ _ _ => false
  | .muli _ _ _ => false
  | .mul _ _ _ _ => false
  | .muls _ _ _ _ => false
  | .sll _ _ _ _ => false
  | .sla _ _ _ _ => false
  | .srl _ _ _ _ => false
  | .sra _ _ _ _ => false
  | .cmp _ _ => false
  | .cmpi _ _ => false
  | .and _ _ _ => false
  | .or _ _ _ => false
  | .not _ _ => false
  | .xor _ _ _ => false
  | .l8 _ _ _ => false
  | .l16 _ _ _ => false
  | .l32 _ _ _ => false
  | .pop _ => false
  | .bae _ => false
  | .bat _ => false
  | .bbe _ => false
  | .bbt _ => false
  | .beq _ => false
  | .bge _ => false
  | .bgt _ => false
  | .biv _ => false
  | .ble _ => false
  | .blt _ => false
  | .bne _ => false
  | .bni _ => false
  | .bnz _ => false
  | .bun _ => false
  | .bzd _ => false
  | .ret => false
  | .reti => false
  | .cbr _ _ => false
  | .sbr _ _ => false

/-- The fifteen branches: constructor, primary opcode and condition, over the bits of SR by number
(47_control_transfer.md R270; 10_state.md R39: CY 0, IV 2, OV 3, SN 4, ZD 5, ZN 6). -/
def branchTable : List ((BitVec 26 → Instr) × BitVec 6 × (Word → Bool)) :=
  [(.bae, 0x2a#6, fun sr => !sr.getLsbD 0),
   (.bat, 0x2b#6, fun sr => !sr.getLsbD 6 && !sr.getLsbD 0),
   (.bbe, 0x2c#6, fun sr => sr.getLsbD 6 || sr.getLsbD 0),
   (.bbt, 0x2d#6, fun sr => sr.getLsbD 0),
   (.beq, 0x2e#6, fun sr => sr.getLsbD 6),
   (.bge, 0x2f#6, fun sr => sr.getLsbD 4 == sr.getLsbD 3),
   (.bgt, 0x30#6, fun sr => !sr.getLsbD 6 && (sr.getLsbD 4 == sr.getLsbD 3)),
   (.biv, 0x31#6, fun sr => sr.getLsbD 2),
   (.ble, 0x32#6, fun sr => sr.getLsbD 6 || (sr.getLsbD 4 != sr.getLsbD 3)),
   (.blt, 0x33#6, fun sr => sr.getLsbD 4 != sr.getLsbD 3),
   (.bne, 0x34#6, fun sr => !sr.getLsbD 6),
   (.bni, 0x35#6, fun sr => !sr.getLsbD 2),
   (.bnz, 0x36#6, fun sr => !sr.getLsbD 5),
   (.bun, 0x37#6, fun _ => true),
   (.bzd, 0x38#6, fun sr => sr.getLsbD 5)]

/-- The ten branches that compare, and the comparison each means after `cmp a, b` (R270, last column). -/
def comparingBranches : List ((BitVec 26 → Instr) × (Word → Word → Bool)) :=
  [(.bae, fun a b => decide (b.toNat ≤ a.toNat)),
   (.bat, fun a b => decide (b.toNat < a.toNat)),
   (.bbe, fun a b => decide (a.toNat ≤ b.toNat)),
   (.bbt, fun a b => decide (a.toNat < b.toNat)),
   (.beq, fun a b => decide (a = b)),
   (.bne, fun a b => decide (a ≠ b)),
   (.bge, fun a b => decide (b.toInt ≤ a.toInt)),
   (.bgt, fun a b => decide (b.toInt < a.toInt)),
   (.ble, fun a b => decide (a.toInt ≤ b.toInt)),
   (.blt, fun a b => decide (a.toInt < b.toInt))]

/-- The displacement of a branch or call (S): 4 times the signed immediate (30_encoding.md R115). -/
def wordDisplacement (imm : BitVec 26) : Word := BitVec.ofInt 32 (4 * imm.toInt)

/-- The bits an instruction of an opcode reads: the complement of the table of 30_encoding.md R121. -/
def readMask (op : BitVec 6) : Word :=
  if op ∈ [0x02#6, 0x03#6, 0x06#6, 0x07#6, 0x09#6] then 0xfffff800#32
  else if op = 0x08#6 then 0xffff0000#32
  else if op = 0x05#6 then 0xfc1ff800#32
  else if op = 0x04#6 then 0xffffff1f#32
  else if op ∈ [0x0a#6, 0x0b#6] then 0xffffffdf#32
  else if op ∈ [0x17#6, 0x1e#6] then 0xfc1fffff#32
  else if op ∈ [0x1f#6, 0x20#6] then 0xfc000000#32
  else if op = 0x21#6 then 0xffff0001#32
  else 0xffffffff#32

/-- The 19 primary opcodes without an entry (30_encoding.md R120). -/
def unassignedOpcodes : List (BitVec 6) :=
  [0x0c#6, 0x0d#6, 0x0e#6, 0x0f#6, 0x10#6, 0x11#6, 0x22#6, 0x23#6, 0x24#6, 0x25#6, 0x26#6, 0x27#6, 0x28#6, 0x29#6,
   0x3a#6, 0x3b#6, 0x3c#6, 0x3d#6, 0x3e#6]

end Sys2Proof.Machine
end

