-- ==== Sys2Proof/Certificates/Slice0/Obligations.lean ====
section
/-! DEFINITION. The statements for the provers, from the numbered rules of spec/. -/

open Sys2Proof Sys2Proof.Machine

/-! ### Encoding -/

/-- 30_encoding.md R111 to R114: where each field that an instruction reads stands. [The spec's own decisions: D1 places the
fields below the opcode, D20 V and W, D21 I, D35 IMM21, D3 the two discriminants; log entry 3.] -/
def Obligations.FieldsStandWhereTheFormatsSay : Prop :=
  ∀ w : Word,
    (fieldOp w).toNat = w.toNat / 2 ^ 26 ∧ (fieldZ w).toNat = w.toNat / 2 ^ 21 % 2 ^ 5 ∧
    (fieldZF w).toNat = w.toNat / 2 ^ 21 % 2 ^ 5 ∧ (fieldXF w).toNat = w.toNat / 2 ^ 16 % 2 ^ 5 ∧
    (fieldX w).toNat = w.toNat / 2 ^ 16 % 2 ^ 5 ∧ (fieldY w).toNat = w.toNat / 2 ^ 11 % 2 ^ 5 ∧
    (fieldSub w).toNat = w.toNat / 2 ^ 8 % 2 ^ 3 ∧ (fieldV w).toNat = w.toNat / 2 ^ 6 % 2 ^ 5 ∧
    (fieldW w).toNat = w.toNat % 2 ^ 5 ∧ (fieldI w).toNat = w.toNat % 2 ^ 5 ∧ (fieldB w).toNat = w.toNat % 2 ∧
    (fieldImm21 w).toNat = w.toNat % 2 ^ 21 ∧ (fieldImm16 w).toNat = w.toNat % 2 ^ 16 ∧
    (fieldImm26 w).toNat = w.toNat % 2 ^ 26

/-- 30_encoding.md R126: the formulas for writing words by hand, and its seven examples decoded; and a few more words of each
family, written out from the spec's encodings, with the instruction each stands for. [The spec's own decisions: D1 to D3 place
the fields and number the opcodes, D20 the list of push; log entry 3.] -/
def Obligations.EncodingFormulasAndExamples : Prop :=
  (∀ op z x y l, packU op z x y l =
    op.setWidth 32 <<< 26 ||| z.setWidth 32 <<< 21 ||| x.setWidth 32 <<< 16 ||| y.setWidth 32 <<< 11 ||| l.setWidth 32) ∧
  (∀ op z x imm, packF op z x imm =
    op.setWidth 32 <<< 26 ||| z.setWidth 32 <<< 21 ||| x.setWidth 32 <<< 16 ||| imm.setWidth 32) ∧
  (∀ op imm, packS op imm = op.setWidth 32 <<< 26 ||| imm.setWidth 32) ∧
  decode 0x08611000#32 = .ok (.add 3#5 1#5 2#5) ∧ decode 0x48200005#32 = .ok (.addi 1#5 0#5 5#16) ∧
  decode 0x10411903#32 = .ok (.sll 2#5 1#5 3#5 3#5) ∧ decode 0x68850008#32 = .ok (.l32 4#5 5#5 8#16) ∧
  decode 0xdfffffff#32 = .ok (.bun 0x3ffffff#26) ∧ decode 0xfc000000#32 = .ok (.int 0#26) ∧
  decode 0x87e10001#32 = .ok (.sbr 31#5 1#5) ∧
  decode 0x003fffff#32 = .ok (.mov 1#5 0x1fffff#21) ∧ decode 0x10611004#32 = .ok (.mul 3#5 1#5 2#5 4#5) ∧
  decode 0x14011000#32 = .ok (.cmp 1#5 2#5) ∧ decode 0x24610800#32 = .ok (.xor 3#5 1#5 1#5) ∧
  decode 0x6c400103#32 = .ok (.s8 2#5 0#5 0x103#16) ∧ decode 0x28a32042#32 = .ok (.push [1#5, 2#5, 3#5, 4#5, 5#5]) ∧
  decode 0x28020040#32 = .ok (.push [1#5]) ∧ decode 0x7805ffff#32 = .ok (.callF 5#5 0xffff#16) ∧
  decode 0xe7ffffff#32 = .ok (.callS 0x3ffffff#26) ∧ decode 0x8464ffff#32 = .ok (.sbr 3#5 4#5) ∧
  decode 0xffffffff#32 = .ok (.int 0x3ffffff#26) ∧ decode 0x30000000#32 = .error (.unknownOpcode 0x0c#6)

/-- 30_encoding.md R120, R122: exactly the 19 unassigned primary opcodes are rejected, by name; every other word is a
well-formed instruction, whose own word decodes to it again. [The spec's own decisions: D2 numbers the opcodes; log entry 3.]
-/
def Obligations.EveryWordIsAnInstructionOrInvalid : Prop :=
  ∀ w : Word,
    (fieldOp w ∈ unassignedOpcodes → decode w = .error (.unknownOpcode (fieldOp w))) ∧
    (fieldOp w ∉ unassignedOpcodes → ∃ i, decode w = .ok i ∧ i.wellFormed = true ∧ decode (encode i) = .ok i)

/-- 30_encoding.md R121: two words of one opcode that agree on the bits its instruction reads decode alike. [The spec's own
decisions: D31; log entry 3.] -/
def Obligations.IgnoredBitsAreIgnored : Prop :=
  ∀ w w' : Word, fieldOp w = fieldOp w' → w &&& readMask (fieldOp w) = w' &&& readMask (fieldOp w) → decode w = decode w'

/-- 46_stack.md R260: the list of a push or pop is the longest prefix of (V, W, X, Y, Z) without a zero index. [The spec's own
decisions: D20; log entry 3.] -/
def Obligations.ActiveListIsTheLongestNonzeroPrefix : Prop :=
  ∀ w : Word,
    let named := [fieldV w, fieldW w, fieldX w, fieldY w, fieldZ w]
    ∃ regs, regs <+: named ∧ 0#5 ∉ regs ∧ (∀ h : regs.length < named.length, named[regs.length] = 0#5) ∧
      (fieldOp w = 0x0a#6 → decode w = .ok (.push regs)) ∧ (fieldOp w = 0x0b#6 → decode w = .ok (.pop regs))

/-- HEADLINE: the bytes of a well-formed instruction decode to it, every operand kept, and the rest is left. [The spec's own
decisions: D1 to D3; log entry 3.] -/
def Obligations.DecodingTheEncodedBytesGivesTheInstruction : Prop :=
  ∀ (i : Instr) (rest : List Byte), i.wellFormed = true → decodeBytes (encodeBytes i ++ rest) = .ok (i, rest)

/-! ### State -/

/-- 10_state.md R57, 70_reset_and_hazards.md R382: the state record at reset, without an image, the FPU in FPU_MODEL's initial
state. [The spec's own decisions: D29 gives the reset values; log entry 3. The model's choices: FPU_MODEL and its initial state
are log entries 1 and 2, the opening of the stream is log entry 6.] -/
def Obligations.ResetValues : Prop :=
  (∀ r, State.reset.reg r = 0#32) ∧ (∀ a, State.reset.mem.read a = 0#8) ∧ State.reset.wdt = 0#32 ∧
  State.reset.pending = [] ∧ State.reset.halted = false ∧ State.reset.fault = none ∧
  State.reset.fpu = Param.fpuModel.initial ∧ State.reset.events = [.start]

/-- 70_reset_and_hazards.md R380: word i of the image goes to mem[i] and every backing word the image does not cover is 0;
nothing else changes; an image longer than memory is refused. [The spec's own decisions: D29, D42; log entry 3.] -/
def Obligations.ImageIsLoadedSequentiallyFromAddressZero : Prop :=
  ∀ image : List Word,
    (image.length ≤ 8192 → ∃ t, loadImage image State.reset = some t ∧
      (∀ i, (h : i < image.length) → wordAt t.mem i = image[i]) ∧ (∀ i, image.length ≤ i → wordAt t.mem i = 0#32) ∧
      SameRegs State.reset t ∧ SameControl State.reset t ∧ SameDevices State.reset t) ∧
    (8192 < image.length → loadImage image State.reset = none)

/-- 10_state.md R31 and the register file as storage: slot 0 reads 0 and discards writes, every other slot reads back what was
written, and no write reaches another slot or anything else; a push or pop list never names slot 0. -/
def Obligations.RegisterFileReadsBackAndSlotZeroIsZero : Prop :=
  (∀ (w : Word) (regs : List RegIdx), decode w = .ok (.push regs) ∨ decode w = .ok (.pop regs) → 0#5 ∉ regs) ∧
  ∀ (s : State) (r : RegIdx) (v : Word),
    s.reg 0#5 = 0#32 ∧ (s.writeReg r v).reg 0#5 = 0#32 ∧ (r ≠ 0#5 → (s.writeReg r v).reg r = v) ∧
    (∀ q, q ≠ r → (s.writeReg r v).reg q = s.reg q) ∧ SameMem s (s.writeReg r v) ∧ SameControl s (s.writeReg r v) ∧
    SameDevices s (s.writeReg r v)

/-- 00_scope.md R15: writing a flag writes its one bit of x[31] and leaves every other bit unchanged; the positions are those
of 10_state.md R39. [The spec's own decisions: D4 gives the positions; log entry 3.] -/
def Obligations.FlagWriteChangesOneBitOfSr : Prop :=
  (∀ s : State, s.flag .cy = (s.reg SR).getLsbD 0 ∧ s.flag .ie = (s.reg SR).getLsbD 1 ∧ s.flag .iv = (s.reg SR).getLsbD 2 ∧
    s.flag .ov = (s.reg SR).getLsbD 3 ∧ s.flag .sn = (s.reg SR).getLsbD 4 ∧ s.flag .zd = (s.reg SR).getLsbD 5 ∧
    s.flag .zn = (s.reg SR).getLsbD 6) ∧
  ∀ (s : State) (f : Flag) (b : Bool), Wrote s (s.setFlag f b) [] [(f, b)]

/-! ### Invariants -/

/-- The invariant of the machine holds at reset. [The spec's own decisions: D29 gives the reset values; log entry 3. The
model's choices: the initial FPU record is log entries 1 and 2, Start already in the stream log entry 6, the stream held in
State log entry 7.] -/
def Obligations.ResetMeetsTheInvariant : Prop := Inv State.reset

/-- HEADLINE: every step keeps the invariant: canonical memory, a pending list sorted and without duplicates (10_state.md R51,
R52), no fault mark, an event stream that matches the run state, an ordered record of FPU calls. [The spec's own decisions: D8
orders the list; log entry 3. The model's choices: the canonical memory, the order of the stream and the record of the FPU port
are the model's own, log entries 1, 2 and 7.] -/
def Obligations.EveryStepKeepsTheInvariant : Prop := ∀ s t : State, Inv s → step s = .next t → Inv t

/-! ### Memory -/

/-- 20_memory.md R75, R76, R77: what a load from backing memory answers, in bits of the word mem[a >> 2]; it has no effect.
[The spec's own decisions: D16 fixes the size of memory, D15 the zero extension; log entry 3.] -/
def Obligations.BackingReadsFollowMirroredIndexing : Prop :=
  ∀ (s : State) (a : Word), InBacking a →
    let w := (wordAt s.mem (a.toNat / 4)).toNat
    memRead a .word s = .ok (BitVec.ofNat 32 w, s) ∧
    memRead a .half s = .ok (BitVec.ofNat 32 (w / 2 ^ (16 * (1 - a.toNat / 2 % 2)) % 2 ^ 16), s) ∧
    memRead a .byte s = .ok (BitVec.ofNat 32 (w / 2 ^ (8 * (3 - a.toNat % 4)) % 2 ^ 8), s)

/-- 20_memory.md R75 to R78: a store replaces its word, halfword or byte, and no other byte changes, nor anything else. [The
spec's own decisions: D16 fixes the size of memory; log entry 3.] -/
def Obligations.BackingWritesChangeOnlyTheAddressedBytes : Prop :=
  ∀ (s : State) (a v : Word), InBacking a →
    (∃ t, memWrite a .word v s = .ok t ∧ wordAt t.mem (a.toNat / 4) = v ∧
      (∀ b, b / 4 ≠ a.toNat / 4 → t.mem.read b = s.mem.read b) ∧
      SameRegs s t ∧ SameControl s t ∧ SameDevices s t) ∧
    (∃ t, memWrite a .half v s = .ok t ∧ memRead a .half t = .ok (BitVec.ofNat 32 (v.toNat % 2 ^ 16), t) ∧
      (∀ b, b / 2 ≠ a.toNat / 2 → t.mem.read b = s.mem.read b) ∧
      SameRegs s t ∧ SameControl s t ∧ SameDevices s t) ∧
    (∃ t, memWrite a .byte v s = .ok t ∧ t.mem.read a.toNat = BitVec.ofNat 8 v.toNat ∧
      (∀ b, b ≠ a.toNat → t.mem.read b = s.mem.read b) ∧
      SameRegs s t ∧ SameControl s t ∧ SameDevices s t)

/-- 20_memory.md R72: the order of resolution. Device words never touch memory; an address that is neither a device word nor
below MEM_BYTES faults. [The spec's own decisions: D16, D17; log entry 3.] -/
def Obligations.AccessResolution : Prop :=
  ∀ (s : State) (a v : Word) (n : Width),
    (IsDeviceWord a → (∀ u t, memRead a n s = .ok (u, t) → SameMem s t) ∧ (∀ t, memWrite a n v s = .ok t → SameMem s t)) ∧
    (¬IsDeviceWord a → InBacking a → (∃ u, memRead a n s = .ok (u, s)) ∧
      ∃ t, memWrite a n v s = .ok t ∧ SameMemOutside [a] s t) ∧
    (¬IsDeviceWord a → ¬InBacking a → memRead a n s = .error (.memFault a) ∧ memWrite a n v s = .error (.memFault a))

/-- 20_memory.md R80, R96; 60_exceptions.md R357, R358, R362: the legal device accesses and their effects, those of the FPU
words being FPU_MODEL's; every other access to a device word is a DeviceFault. [The spec's own decisions: D17 to D19, D38; log
entry 3. The model's choices: FPU_MODEL is log entry 1.] -/
def Obligations.DeviceWordsTakeOnlyTheirLegalForms : Prop :=
  ∀ (s : State) (v : Word),
    memRead 0x80808080#32 .word s = .ok (s.wdt, s) ∧
    (∃ t, memWrite 0x80808080#32 .word v s = .ok t ∧ t.wdt = v ∧ SameRegs s t ∧ SameMem s t ∧ SameControl s t ∧
      t.fpu = s.fpu ∧ t.events = s.events) ∧
    (∀ p ∈ [(0x80808880#32, FpuReg.x), (0x80808884#32, FpuReg.y), (0x80808888#32, FpuReg.z), (0x8080888c#32, FpuReg.ctrl)],
      (∃ t, memRead p.1 .word s = .ok ((Param.fpuModel.read s.fpu p.2).1, t) ∧
        t.fpu = (Param.fpuModel.read s.fpu p.2).2 ∧ SameRegs s t ∧ SameMem s t ∧ SameControl s t ∧
        t.wdt = s.wdt ∧ t.events = s.events) ∧
      (∃ t, memWrite p.1 .word v s = .ok t ∧ t.fpu = Param.fpuModel.write s.fpu p.2 v ∧
        SameRegs s t ∧ SameMem s t ∧ SameControl s t ∧ t.wdt = s.wdt ∧ t.events = s.events)) ∧
    (∃ t, memWrite 0x80808890#32 .byte v s = .ok t ∧ t.events = .termByte (BitVec.ofNat 8 v.toNat) :: s.events ∧
      SameRegs s t ∧ SameMem s t ∧ SameControl s t ∧ t.wdt = s.wdt ∧ t.fpu = s.fpu) ∧
    (∀ (a : Word) (n : Width), IsDeviceWord a →
      (¬(n = .word ∧ a ∈ [0x80808080#32, 0x80808880#32, 0x80808884#32, 0x80808888#32, 0x8080888c#32]) →
        memRead a n s = .error (.deviceFault a n.bytes)) ∧
      (¬(n = .word ∧ a ∈ [0x80808080#32, 0x80808880#32, 0x80808884#32, 0x80808888#32, 0x8080888c#32]) →
        ¬(n = .byte ∧ a = 0x80808890#32) → memWrite a n v s = .error (.deviceFault a n.bytes)))

/-! ### Arithmetic, logic, compare -/

/-- 41_arithmetic.md R160, R161: mov and movs. [The spec's own decisions: D35; log entry 3.] -/
def Obligations.MovAndMovsWriteTheImmediate : Prop :=
  (∀ w, fieldOp w = 0x00#6 → decode w = .ok (.mov (fieldZ w) (fieldImm21 w))) ∧
  (∀ w, fieldOp w = 0x01#6 → decode w = .ok (.movs (fieldZ w) (fieldImm21 w))) ∧
  ∀ (s : State) (z : RegIdx) (imm : BitVec 21),
    (∃ t, exec (.mov z imm) s = .next t ∧ Wrote s t [(z, BitVec.ofNat 32 imm.toNat)] []) ∧
    (∃ t, exec (.movs z imm) s = .next t ∧ Wrote s t [(z, BitVec.ofInt 32 imm.toInt)] [])

/-- 41_arithmetic.md R162 to R165: the result, the four flags and nothing else. [The spec's own decisions: D2 numbers the
opcodes, D23 gives the immediate forms, D26 the order of the writes; log entry 3.] -/
def Obligations.AddAndSubtractWriteResultAndFlags : Prop :=
  (∀ w, fieldOp w = 0x02#6 → decode w = .ok (.add (fieldZ w) (fieldX w) (fieldY w))) ∧
  (∀ w, fieldOp w = 0x03#6 → decode w = .ok (.sub (fieldZ w) (fieldX w) (fieldY w))) ∧
  (∀ w, fieldOp w = 0x12#6 → decode w = .ok (.addi (fieldZF w) (fieldXF w) (fieldImm16 w))) ∧
  (∀ w, fieldOp w = 0x13#6 → decode w = .ok (.subi (fieldZF w) (fieldXF w) (fieldImm16 w))) ∧
  ∀ (s : State) (z x y : RegIdx) (imm : BitVec 16),
    let a := s.reg x
    let b := s.reg y
    let c : Word := BitVec.ofInt 32 imm.toInt
    (∃ t, exec (.add z x y) s = .next t ∧ Wrote s t [(z, a + b)] (sumFlags a b)) ∧
    (∃ t, exec (.sub z x y) s = .next t ∧ Wrote s t [(z, a - b)] (differenceFlags a b)) ∧
    (∃ t, exec (.addi z x imm) s = .next t ∧ Wrote s t [(z, a + c)] (sumFlags a c)) ∧
    (∃ t, exec (.subi z x imm) s = .next t ∧ Wrote s t [(z, a - c)] (differenceFlags a c))

/-- 95_test_vectors.md L1.2: OV says that the exact integer sum or difference does not fit in 32 signed bits. [The spec's own
decisions: D23 gives the immediate forms; log entry 3.] -/
def Obligations.OverflowMeansTheExactResultDoesNotFit : Prop :=
  ∀ (s t : State) (z x y : RegIdx) (imm : BitVec 16),
    let a := (s.reg x).toInt
    let b := (s.reg y).toInt
    let c := imm.toInt
    (exec (.add z x y) s = .next t → t.flag .ov = decide (OutOfRange (a + b))) ∧
    (exec (.addi z x imm) s = .next t → t.flag .ov = decide (OutOfRange (a + c))) ∧
    (exec (.sub z x y) s = .next t → t.flag .ov = decide (OutOfRange (a - b))) ∧
    (exec (.subi z x imm) s = .next t → t.flag .ov = decide (OutOfRange (a - c))) ∧
    (exec (.cmp x y) s = .next t → t.flag .ov = decide (OutOfRange (a - b))) ∧
    (exec (.cmpi x imm) s = .next t → t.flag .ov = decide (OutOfRange (a - c)))

/-- 43_compare.md R220, R221: the flags of the subtraction, and no register but SR. [The spec's own decisions: D2 numbers the
opcodes, D23 gives the immediate form; log entry 3.] -/
def Obligations.CompareWritesOnlyTheSubtractionFlags : Prop :=
  (∀ w, fieldOp w = 0x05#6 → decode w = .ok (.cmp (fieldX w) (fieldY w))) ∧
  (∀ w, fieldOp w = 0x17#6 → decode w = .ok (.cmpi (fieldXF w) (fieldImm16 w))) ∧
  ∀ (s : State) (x y : RegIdx) (imm : BitVec 16),
    (∃ t, exec (.cmp x y) s = .next t ∧ Wrote s t [] (differenceFlags (s.reg x) (s.reg y))) ∧
    (∃ t, exec (.cmpi x imm) s = .next t ∧ Wrote s t [] (differenceFlags (s.reg x) (BitVec.ofInt 32 imm.toInt)))

/-- 44_logic.md R230 to R234: the bitwise results, with exactly ZN and SN written. [The spec's own decisions: D22, D35; log
entry 3.] -/
def Obligations.LogicWritesResultZnAndSn : Prop :=
  (∀ w, fieldOp w = 0x06#6 → decode w = .ok (.and (fieldZ w) (fieldX w) (fieldY w))) ∧
  (∀ w, fieldOp w = 0x07#6 → decode w = .ok (.or (fieldZ w) (fieldX w) (fieldY w))) ∧
  (∀ w, fieldOp w = 0x08#6 → decode w = .ok (.not (fieldZ w) (fieldX w))) ∧
  (∀ w, fieldOp w = 0x09#6 → decode w = .ok (.xor (fieldZ w) (fieldX w) (fieldY w))) ∧
  ∀ (s : State) (z x y : RegIdx),
    let a := s.reg x
    let b := s.reg y
    (∃ t, exec (.and z x y) s = .next t ∧ Wrote s t [(z, a &&& b)] (logicResultFlags (a &&& b))) ∧
    (∃ t, exec (.or z x y) s = .next t ∧ Wrote s t [(z, a ||| b)] (logicResultFlags (a ||| b))) ∧
    (∃ t, exec (.not z x) s = .next t ∧ Wrote s t [(z, ~~~a)] (logicResultFlags (~~~a))) ∧
    (∃ t, exec (.xor z x y) s = .next t ∧ Wrote s t [(z, a ^^^ b)] (logicResultFlags (a ^^^ b)))

/-- 48_bit_set_clear.md R300 to R302: one bit of x[Z] cleared or set, by bit number, and no flag but where Z is SR. [The spec's
own decisions: D37; log entry 3.] -/
def Obligations.CbrAndSbrChangeOneBit : Prop :=
  (∀ w, fieldOp w = 0x21#6 → w.getLsbD 0 = false → decode w = .ok (.cbr (fieldZ w) (fieldX w))) ∧
  (∀ w, fieldOp w = 0x21#6 → w.getLsbD 0 = true → decode w = .ok (.sbr (fieldZ w) (fieldX w))) ∧
  ∀ (s : State) (z : RegIdx) (x : BitVec 5),
    ∃ t u v v', exec (.cbr z x) s = .next t ∧ exec (.sbr z x) s = .next u ∧ Wrote s t [(z, v)] [] ∧ Wrote s u [(z, v')] [] ∧
      ∀ j, j < 32 → v.getLsbD j = (if j = x.toNat then false else (s.reg z).getLsbD j) ∧
        v'.getLsbD j = (if j = x.toNat then true else (s.reg z).getLsbD j)

/-! ### Multiply, shift, divide -/

/-- 42_shift_mul_div.md R190, R191; 41_arithmetic.md R166: the 64-bit product, low word to Z and then high word to I, flags
over 64 bits; muli writes the low word of the exact signed product, ZN of that word, and OV where the product does not fit.
[The spec's own decisions: D21, D22, D25, D35; log entry 3.] -/
def Obligations.MultiplyWritesTheProduct : Prop :=
  (∀ w, fieldOp w = 0x04#6 → fieldSub w = 0#3 → decode w = .ok (.mul (fieldZ w) (fieldX w) (fieldY w) (fieldI w))) ∧
  (∀ w, fieldOp w = 0x04#6 → fieldSub w = 2#3 → decode w = .ok (.muls (fieldZ w) (fieldX w) (fieldY w) (fieldI w))) ∧
  (∀ w, fieldOp w = 0x14#6 → decode w = .ok (.muli (fieldZF w) (fieldXF w) (fieldImm16 w))) ∧
  ∀ (s : State) (z x y i : RegIdx) (imm : BitVec 16),
    let p := (s.reg x).toNat * (s.reg y).toNat
    let q := (s.reg x).toInt * (s.reg y).toInt
    let m := (s.reg x).toInt * imm.toInt
    (∃ t, exec (.mul z x y i) s = .next t ∧
      Wrote s t [(z, BitVec.ofNat 32 p), (i, BitVec.ofNat 32 (p / 2 ^ 32))]
        [(.zn, decide (p = 0)), (.cy, decide (2 ^ 32 ≤ p))]) ∧
    (∃ t, exec (.muls z x y i) s = .next t ∧
      Wrote s t [(z, BitVec.ofInt 32 q), (i, BitVec.ofInt 32 (q / 2 ^ 32))]
        [(.zn, decide (q = 0)), (.ov, decide (OutOfRange q))]) ∧
    (∃ t, exec (.muli z x imm) s = .next t ∧
      Wrote s t [(z, BitVec.ofInt 32 m)] [(.zn, decide (BitVec.ofInt 32 m = 0#32)), (.ov, decide (OutOfRange m))])

/-- 42_shift_mul_div.md R194 to R198: the four shifts of the pair (x[Z], x[Y]) by I + 1, low word to X and then high word to Z.
[The spec's own decisions: D21, D22, D25; log entry 3.] -/
def Obligations.ShiftsMoveThePair : Prop :=
  (∀ w, fieldOp w = 0x04#6 → fieldSub w = 1#3 → decode w = .ok (.sll (fieldZ w) (fieldX w) (fieldY w) (fieldI w))) ∧
  (∀ w, fieldOp w = 0x04#6 → fieldSub w = 3#3 → decode w = .ok (.sla (fieldZ w) (fieldX w) (fieldY w) (fieldI w))) ∧
  (∀ w, fieldOp w = 0x04#6 → fieldSub w = 5#3 → decode w = .ok (.srl (fieldZ w) (fieldX w) (fieldY w) (fieldI w))) ∧
  (∀ w, fieldOp w = 0x04#6 → fieldSub w = 7#3 → decode w = .ok (.sra (fieldZ w) (fieldX w) (fieldY w) (fieldI w))) ∧
  ∀ (s : State) (z x y : RegIdx) (i : BitVec 5),
    let v := 2 ^ 32 * (s.reg z).toNat + (s.reg y).toNat
    let n := i.toNat + 1
    let left := v * 2 ^ n % 2 ^ 64
    let leftSigned := (BitVec.ofNat 64 left).toInt
    let right := v / 2 ^ n
    let rightSigned := (BitVec.ofNat 64 v).toInt / 2 ^ n
    (∃ t, exec (.sll z x y i) s = .next t ∧
      Wrote s t [(x, BitVec.ofNat 32 left), (z, BitVec.ofNat 32 (left / 2 ^ 32))]
        [(.zn, decide (left = 0)), (.cy, decide (2 ^ 32 ≤ left))]) ∧
    (∃ t, exec (.sla z x y i) s = .next t ∧
      Wrote s t [(x, BitVec.ofNat 32 left), (z, BitVec.ofNat 32 (left / 2 ^ 32))]
        [(.zn, decide (left = 0)), (.ov, decide (OutOfRange leftSigned))]) ∧
    (∃ t, exec (.srl z x y i) s = .next t ∧
      Wrote s t [(x, BitVec.ofNat 32 right), (z, BitVec.ofNat 32 (right / 2 ^ 32))]
        [(.zn, decide (right = 0)), (.cy, decide (2 ^ 32 ≤ right))]) ∧
    (∃ t, exec (.sra z x y i) s = .next t ∧
      Wrote s t [(x, BitVec.ofInt 32 rightSigned), (z, BitVec.ofInt 32 (rightSigned / 2 ^ 32))]
        [(.zn, decide (rightSigned = 0)), (.ov, decide (OutOfRange rightSigned))])

/-- 42_shift_mul_div.md R200, R201; 41_arithmetic.md R167, R168: divisions with a nonzero divisor. [The spec's own decisions:
D22, D24, D25, D35; log entry 3.] -/
def Obligations.DivisionByNonzeroWritesQuotientAndRemainder : Prop :=
  (∀ w, fieldOp w = 0x04#6 → fieldSub w = 4#3 → decode w = .ok (.div (fieldZ w) (fieldX w) (fieldY w) (fieldI w))) ∧
  (∀ w, fieldOp w = 0x04#6 → fieldSub w = 6#3 → decode w = .ok (.divs (fieldZ w) (fieldX w) (fieldY w) (fieldI w))) ∧
  (∀ w, fieldOp w = 0x15#6 → decode w = .ok (.divi (fieldZF w) (fieldXF w) (fieldImm16 w))) ∧
  (∀ w, fieldOp w = 0x16#6 → decode w = .ok (.modi (fieldZF w) (fieldXF w) (fieldImm16 w))) ∧
  ∀ (s : State) (z x y i : RegIdx) (imm : BitVec 16),
    let a := s.reg x
    let b := s.reg y
    let q := a.toInt.tdiv b.toInt
    let m := a.toInt.tmod b.toInt
    let qi := a.toInt.tdiv imm.toInt
    let mi := a.toInt.tmod imm.toInt
    (b ≠ 0#32 → ∃ t, exec (.div z x y i) s = .next t ∧
      Wrote s t [(z, BitVec.ofNat 32 (a.toNat / b.toNat)), (i, BitVec.ofNat 32 (a.toNat % b.toNat))]
        [(.zn, decide (a.toNat / b.toNat = 0)), (.zd, false), (.cy, decide (a.toNat % b.toNat ≠ 0))]) ∧
    (b ≠ 0#32 → ∃ t, exec (.divs z x y i) s = .next t ∧
      Wrote s t [(z, BitVec.ofInt 32 q), (i, BitVec.ofInt 32 m)]
        [(.zn, decide (q = 0)), (.zd, false), (.ov, decide (a = 0x80000000#32 ∧ b = 0xffffffff#32))]) ∧
    (imm ≠ 0#16 → ∃ t, exec (.divi z x imm) s = .next t ∧
      Wrote s t [(z, BitVec.ofInt 32 qi)]
        [(.zn, decide (qi = 0)), (.zd, false), (.ov, decide (a = 0x80000000#32 ∧ imm = 0xffff#16))]) ∧
    (imm ≠ 0#16 → ∃ t, exec (.modi z x imm) s = .next t ∧
      Wrote s t [(z, BitVec.ofInt 32 mi)]
        [(.zn, decide (mi = 0)), (.zd, false), (.ov, decide (a = 0x80000000#32 ∧ imm = 0xffff#16))])

/-- 42_shift_mul_div.md R199; 60_exceptions.md R325: with divisor 0 the four divisions set ZD and write nothing else while IE =
0, and also enter at VEC_DIVZERO with cause 0 while IE = 1, wherever the stack lies. [The spec's own decisions: D5 gives the
vector, D6 the cause; log entry 3.] -/
def Obligations.DivisionByZeroSetsZdAndTrapsOnlyWithIe : Prop :=
  ∀ (s : State) (z x y i : RegIdx) (op : Instr),
    s.reg y = 0#32 → op ∈ [.div z x y i, .divs z x y i, .divi z x 0#16, .modi z x 0#16] →
    (s.flag .ie = false → ∃ t, exec op s = .next t ∧ Wrote s t [] [(.zd, true)]) ∧
    (s.flag .ie = true → exec op s =
      finish (enter 0#32 0x8#32 (s.reg PC) ((s.setFlag .zd true).emit (.softwareInterrupt 0#32)))) ∧
    (s.flag .ie = true → StackRoom s → ∃ t, exec op s = .next t ∧
      Entered (s.setFlag .zd true) t 0#32 0x8#32 (s.reg PC) ∧ t.fpu = s.fpu ∧
      t.events = .softwareInterrupt 0#32 :: s.events)

/-! ### Loads and stores -/

/-- 45_load_store.md R240 to R243, R247: a load from backing memory writes its zero-extended value to x[Z], no flag and nothing
else. [The spec's own decisions: D15, D16; log entry 3.] -/
def Obligations.LoadsFromBackingMemory : Prop :=
  (∀ w, fieldOp w = 0x18#6 → decode w = .ok (.l8 (fieldZF w) (fieldXF w) (fieldImm16 w))) ∧
  (∀ w, fieldOp w = 0x19#6 → decode w = .ok (.l16 (fieldZF w) (fieldXF w) (fieldImm16 w))) ∧
  (∀ w, fieldOp w = 0x1a#6 → decode w = .ok (.l32 (fieldZF w) (fieldXF w) (fieldImm16 w))) ∧
  ∀ (s : State) (z x : RegIdx) (imm : BitVec 16),
    let ea := s.reg x + BitVec.ofInt 32 imm.toInt
    let w := (wordAt s.mem (ea.toNat / 4)).toNat
    InBacking ea →
    (∃ t, exec (.l8 z x imm) s = .next t ∧
      Wrote s t [(z, BitVec.ofNat 32 (w / 2 ^ (8 * (3 - ea.toNat % 4)) % 2 ^ 8))] []) ∧
    (∃ t, exec (.l16 z x imm) s = .next t ∧
      Wrote s t [(z, BitVec.ofNat 32 (w / 2 ^ (16 * (1 - ea.toNat / 2 % 2)) % 2 ^ 16))] []) ∧
    (∃ t, exec (.l32 z x imm) s = .next t ∧ Wrote s t [(z, BitVec.ofNat 32 w)] [])

/-- 45_load_store.md R244 to R246: a store to backing memory writes the low bytes of x[Z] at the effective address, big-endian,
and nothing else. [The spec's own decisions: D15, D16; log entry 3.] -/
def Obligations.StoresToBackingMemory : Prop :=
  (∀ w, fieldOp w = 0x1b#6 → decode w = .ok (.s8 (fieldZF w) (fieldXF w) (fieldImm16 w))) ∧
  (∀ w, fieldOp w = 0x1c#6 → decode w = .ok (.s16 (fieldZF w) (fieldXF w) (fieldImm16 w))) ∧
  (∀ w, fieldOp w = 0x1d#6 → decode w = .ok (.s32 (fieldZF w) (fieldXF w) (fieldImm16 w))) ∧
  ∀ (s : State) (z x : RegIdx) (imm : BitVec 16),
    let ea := s.reg x + BitVec.ofInt 32 imm.toInt
    let v := (s.reg z).toNat
    InBacking ea →
    (∃ t, exec (.s8 z x imm) s = .next t ∧ t.mem.read ea.toNat = BitVec.ofNat 8 v ∧
      (∀ b, b ≠ ea.toNat → t.mem.read b = s.mem.read b) ∧ SameRegs s t ∧ SameControl s t ∧ SameDevices s t) ∧
    (∃ t, exec (.s16 z x imm) s = .next t ∧ t.mem.read (2 * (ea.toNat / 2)) = BitVec.ofNat 8 (v / 2 ^ 8) ∧
      t.mem.read (2 * (ea.toNat / 2) + 1) = BitVec.ofNat 8 v ∧
      (∀ b, b / 2 ≠ ea.toNat / 2 → t.mem.read b = s.mem.read b) ∧ SameRegs s t ∧ SameControl s t ∧ SameDevices s t) ∧
    (∃ t, exec (.s32 z x imm) s = .next t ∧ wordAt t.mem (ea.toNat / 4) = s.reg z ∧
      (∀ b, b / 4 ≠ ea.toNat / 4 → t.mem.read b = s.mem.read b) ∧ SameRegs s t ∧ SameControl s t ∧ SameDevices s t)

/-- 20_memory.md R72, R80; 45_load_store.md R241: where a load or store faults: outside backing memory and the device words,
and on a device word in any form but l32, s32 and, at the terminal, s8 at the exact address. [The spec's own decisions: D16 to
D18; log entry 3.] -/
def Obligations.LoadsAndStoresFaultWhereNoAccessExists : Prop :=
  ∀ (s : State) (z x : RegIdx) (imm : BitVec 16),
    let ea := s.reg x + BitVec.ofInt 32 imm.toInt
    (¬InBacking ea → ¬IsDeviceWord ea →
      ∀ op ∈ [Instr.l8 z x imm, .l16 z x imm, .l32 z x imm, .s8 z x imm, .s16 z x imm, .s32 z x imm],
        exec op s = .fault (.memFault ea)) ∧
    (IsDeviceWord ea →
      exec (.l8 z x imm) s = .fault (.deviceFault ea 1) ∧ exec (.l16 z x imm) s = .fault (.deviceFault ea 2) ∧
      exec (.s16 z x imm) s = .fault (.deviceFault ea 2) ∧
      (ea ≠ 0x80808890#32 → exec (.s8 z x imm) s = .fault (.deviceFault ea 1)) ∧
      (ea ∉ [0x80808080#32, 0x80808880#32, 0x80808884#32, 0x80808888#32, 0x8080888c#32] →
        exec (.l32 z x imm) s = .fault (.deviceFault ea 4) ∧ exec (.s32 z x imm) s = .fault (.deviceFault ea 4)))

/-- 60_exceptions.md R357, R358; 20_memory.md R95, R96: the instructions that reach the watchdog, the FPU words and the
terminal. What an FPU word answers is FPU_MODEL's. [The spec's own decisions: D17 to D19, D38; log entry 3. The model's
choices: FPU_MODEL is log entry 1.] -/
def Obligations.LoadsAndStoresReachTheDevices : Prop :=
  ∀ (s : State) (z x : RegIdx) (imm : BitVec 16),
    let ea := s.reg x + BitVec.ofInt 32 imm.toInt
    (ea = 0x80808080#32 →
      (∃ t, exec (.l32 z x imm) s = .next t ∧ Wrote s t [(z, s.wdt)] []) ∧
      (∃ t, exec (.s32 z x imm) s = .next t ∧ t.wdt = s.reg z ∧ SameRegs s t ∧ SameMem s t ∧ SameControl s t ∧
        t.fpu = s.fpu ∧ t.events = s.events)) ∧
    (∀ p ∈ [(0x80808880#32, FpuReg.x), (0x80808884#32, FpuReg.y), (0x80808888#32, FpuReg.z), (0x8080888c#32, FpuReg.ctrl)],
      ea = p.1 →
      (∃ t, exec (.l32 z x imm) s = .next t ∧
        (∀ r, t.reg r = lastWrite [(z, (Param.fpuModel.read s.fpu p.2).1)] r (s.reg r)) ∧
        t.fpu = (Param.fpuModel.read s.fpu p.2).2 ∧ SameMem s t ∧ SameControl s t ∧
        t.wdt = s.wdt ∧ t.events = s.events) ∧
      (∃ t, exec (.s32 z x imm) s = .next t ∧ SameRegs s t ∧
        t.fpu = Param.fpuModel.write s.fpu p.2 (s.reg z) ∧ SameMem s t ∧ SameControl s t ∧
        t.wdt = s.wdt ∧ t.events = s.events)) ∧
    (ea = 0x80808890#32 → ∃ t, exec (.s8 z x imm) s = .next t ∧
      t.events = .termByte (BitVec.ofNat 8 (s.reg z).toNat) :: s.events ∧ SameRegs s t ∧ SameMem s t ∧ SameControl s t ∧
      t.wdt = s.wdt ∧ t.fpu = s.fpu)

/-! ### Stack -/

/-- 20_memory.md R84, R85: push is a word store at SP and then SP - 4, pop is SP + 4 and then a word load at the new SP; where
the word is outside memory or a device word they fault; the last clause, that onto backing memory push then pop returns the
pushed value and leaves SP unchanged, is R85's own inference, from R84 and the round-trip property, said here of backing memory
only. [The spec's own decisions: D16 fixes the size of memory, D18 keeps the stack off the device words; log entry 3. The
model's choices: that it does so for every push and pop is log entry 9.] -/
def Obligations.PushAndPopAreWordAccessesAtSp : Prop :=
  (∀ (s : State) (v : Word),
    (InBacking (s.reg SP) → ∃ t, memWrite (s.reg SP) .word v s = .ok t ∧ push v s = .ok (t.writeReg SP (s.reg SP - 4#32))) ∧
    (¬InBacking (s.reg SP) → push v s = .error (stackFault (s.reg SP)))) ∧
  (∀ s : State,
    (InBacking (s.reg SP + 4#32) →
      ∃ v t, memRead (s.reg SP + 4#32) .word (s.writeReg SP (s.reg SP + 4#32)) = .ok (v, t) ∧ pop s = .ok (v, t) ∧
        t.reg SP = s.reg SP + 4#32) ∧
    (¬InBacking (s.reg SP + 4#32) → pop s = .error (stackFault (s.reg SP + 4#32)))) ∧
  ∀ (s : State) (v : Word), InBacking (s.reg SP) →
    ∃ t u, push v s = .ok t ∧ t.reg SP = s.reg SP - 4#32 ∧ wordAt t.mem ((s.reg SP).toNat / 4) = v ∧
      SameMemOutside [s.reg SP] s t ∧ SameControl s t ∧ SameDevices s t ∧ (∀ r, r ≠ SP → t.reg r = s.reg r) ∧
      pop t = .ok (v, u) ∧ SameRegs s u ∧ SameMem t u ∧ SameControl t u ∧ SameDevices t u

/-- 46_stack.md R261: a push stores the first register of the list at SP, lowers SP by 4 and then pushes the rest of the list
with the SP that leaves, so that each register is read at its own push; a store outside memory or to a device word is a model
fault. Where the words lie in backing memory, one next state holds them all. [The spec's own decisions: D18, D20; log entry 3.]
-/
def Obligations.PushStoresTheListDownward : Prop :=
  (∀ s : State, exec (.push []) s = .next s) ∧
  (∀ (s : State) (r : RegIdx) (regs : List RegIdx),
    (InBacking (s.reg SP) →
      ∃ t, exec (.push (r :: regs)) s = exec (.push regs) t ∧ wordAt t.mem ((s.reg SP).toNat / 4) = s.reg r ∧
        (∀ q, t.reg q = if q = SP then s.reg SP - 4#32 else s.reg q) ∧
        SameMemOutside [s.reg SP] s t ∧ SameControl s t ∧ SameDevices s t) ∧
    (¬InBacking (s.reg SP) → exec (.push (r :: regs)) s = .fault (stackFault (s.reg SP)))) ∧
  ∀ (s : State) (regs : List RegIdx), (Instr.push regs).wellFormed = true →
    (∀ k, k < regs.length → InBacking (s.reg SP - BitVec.ofNat 32 (4 * k))) →
    ∃ t, exec (.push regs) s = .next t ∧
      (∀ r, t.reg r = if r = SP then s.reg SP - BitVec.ofNat 32 (4 * regs.length) else s.reg r) ∧
      (∀ k, (h : k < regs.length) → wordAt t.mem ((s.reg SP - BitVec.ofNat 32 (4 * k)).toNat / 4) =
        if regs[k] = SP then s.reg SP - BitVec.ofNat 32 (4 * k) else s.reg regs[k]) ∧
      SameMemOutside ((List.range regs.length).map fun k => s.reg SP - BitVec.ofNat 32 (4 * k)) s t ∧
      SameControl s t ∧ SameDevices s t

/-- 46_stack.md R262: a pop loads the last register of the list first, from the word above SP, and then pops the rest of the
list with the SP that leaves; a load from outside memory or from a device word is a model fault; an empty list does nothing.
That holds for every list, one that names SP or the PC included. A list of distinct registers without SP loads the words above
SP in one next state. [The spec's own decisions: D18, D20; log entry 3.] -/
def Obligations.PopLoadsTheListLastToFirst : Prop :=
  (∀ s : State, exec (.pop []) s = .next s) ∧
  (∀ (s : State) (regs : List RegIdx) (r : RegIdx),
    (InBacking (s.reg SP + 4#32) →
      ∃ t, exec (.pop (regs ++ [r])) s = exec (.pop regs) t ∧
        Wrote s t [(SP, s.reg SP + 4#32), (r, wordAt s.mem ((s.reg SP + 4#32).toNat / 4))] []) ∧
    (¬InBacking (s.reg SP + 4#32) → exec (.pop (regs ++ [r])) s = .fault (stackFault (s.reg SP + 4#32)))) ∧
  ∀ (s : State) (regs : List RegIdx), (Instr.pop regs).wellFormed = true → SP ∉ regs → regs.Nodup →
    (∀ k, k < regs.length → InBacking (s.reg SP + BitVec.ofNat 32 (4 * (k + 1)))) →
    ∃ t, exec (.pop regs) s = .next t ∧ t.reg SP = s.reg SP + BitVec.ofNat 32 (4 * regs.length) ∧
      (∀ r, r ∉ regs → r ≠ SP → t.reg r = s.reg r) ∧
      (∀ k, (h : k < regs.length) →
        t.reg regs[k] = wordAt s.mem ((s.reg SP + BitVec.ofNat 32 (4 * (regs.length - k))).toNat / 4)) ∧
      SameMem s t ∧ SameControl s t ∧ SameDevices s t

/-- 95_test_vectors.md L1.3: pushing a list and then popping the same list restores every register of the list and SP, whatever
happened between to other registers and to every byte of memory but the words pushed. [The spec's own decisions: D20; log entry
3.] -/
def Obligations.PushThenPopRestoresTheList : Prop :=
  ∀ (s t u : State) (regs : List RegIdx), (Instr.push regs).wellFormed = true → SP ∉ regs →
    (∀ k, k < regs.length → InBacking (s.reg SP - BitVec.ofNat 32 (4 * k))) →
    exec (.push regs) s = .next t → u.reg SP = t.reg SP →
    (∀ k, k < regs.length → wordAt u.mem ((s.reg SP - BitVec.ofNat 32 (4 * k)).toNat / 4) =
      wordAt t.mem ((s.reg SP - BitVec.ofNat 32 (4 * k)).toNat / 4)) →
    ∃ v, exec (.pop regs) u = .next v ∧ v.reg SP = s.reg SP ∧ ∀ r ∈ regs, v.reg r = s.reg r

/-! ### Control transfer -/

/-- 47_control_transfer.md R270: each branch decodes at its opcode, and where its condition on SR holds it adds the word
displacement to x[29]; otherwise nothing changes. [The spec's own decisions: D11, D36; log entry 3.] -/
def Obligations.BranchesTestSrAndMoveThePc : Prop :=
  ∀ row ∈ branchTable,
    (∀ w, fieldOp w = row.2.1 → decode w = .ok (row.1 (fieldImm26 w))) ∧
    ∀ (s : State) (imm : BitVec 26), ∃ t, exec (row.1 imm) s = .next t ∧
      Wrote s t (if row.2.2 (s.reg SR) then [(PC, s.reg PC + wordDisplacement imm)] else []) []

/-- 47_control_transfer.md R270, last column: after `cmp a, b` each comparing branch is taken exactly when its unsigned or
signed comparison of a and b holds. [The spec's own decisions: D36; log entry 3.] -/
def Obligations.BranchesAfterCompareDecideTheOrder : Prop :=
  ∀ row ∈ comparingBranches, ∀ (s t : State) (x y : RegIdx) (imm : BitVec 26), exec (.cmp x y) s = .next t →
    ∃ u, exec (row.1 imm) t = .next u ∧
      u.reg PC = if row.2 (s.reg x) (s.reg y) then t.reg PC + wordDisplacement imm else t.reg PC

/-- 47_control_transfer.md R286, R287: a call pushes the address of the next instruction and transfers to its target, and
faults where the word pushed is outside memory or a device word; call (F) computes the target before the push. [The spec's own
decisions: D11, D12, D18; log entry 3. The model's choices: that a call's push to a device word faults is log entry 9.] -/
def Obligations.CallsPushTheReturnAddress : Prop :=
  (∀ w, fieldOp w = 0x1e#6 → decode w = .ok (.callF (fieldXF w) (fieldImm16 w))) ∧
  (∀ w, fieldOp w = 0x39#6 → decode w = .ok (.callS (fieldImm26 w))) ∧
  ∀ (s : State) (x : RegIdx) (imm : BitVec 16) (imm26 : BitVec 26),
    ∀ p ∈ [(Instr.callF x imm, s.reg x + BitVec.ofInt 32 (4 * imm.toInt)),
           (Instr.callS imm26, s.reg PC + 4#32 + wordDisplacement imm26)],
      (∀ u, push (s.reg PC + 4#32) s = .ok u → exec p.1 s = .next (u.writeReg PC (p.2 - 4#32))) ∧
      (¬InBacking (s.reg SP) → exec p.1 s = .fault (stackFault (s.reg SP))) ∧
      (InBacking (s.reg SP) →
        ∃ t, exec p.1 s = .next t ∧ t.reg PC = p.2 - 4#32 ∧ t.reg SP = s.reg SP - 4#32 ∧
          (∀ r, r ≠ PC → r ≠ SP → t.reg r = s.reg r) ∧ wordAt t.mem ((s.reg SP).toNat / 4) = s.reg PC + 4#32 ∧
          SameMemOutside [s.reg SP] s t ∧ SameControl s t ∧ SameDevices s t)

/-- 47_control_transfer.md R288, R289: ret pops the next instruction's address, compensated; reti pops IPC, CR and the PC, in
that order; neither writes a flag; both fault as pop does, at the first word that is not in backing memory. [The spec's own
decisions: D13, D18; log entry 3.] -/
def Obligations.ReturnsPopThePc : Prop :=
  (∀ w, fieldOp w = 0x1f#6 → decode w = .ok .ret) ∧
  (∀ w, fieldOp w = 0x20#6 → decode w = .ok .reti) ∧
  (∀ s : State,
    (InBacking (s.reg SP + 4#32) →
      ∃ t, exec .ret s = .next t ∧
        Wrote s t [(SP, s.reg SP + 4#32), (PC, wordAt s.mem ((s.reg SP + 4#32).toNat / 4) - 4#32)] []) ∧
    (¬InBacking (s.reg SP + 4#32) → exec .ret s = .fault (stackFault (s.reg SP + 4#32)))) ∧
  ∀ s : State,
    (InBacking (s.reg SP + 4#32) → InBacking (s.reg SP + 8#32) → InBacking (s.reg SP + 12#32) →
      ∃ t, exec .reti s = .next t ∧
        Wrote s t [(SP, s.reg SP + 12#32), (IPC, wordAt s.mem ((s.reg SP + 4#32).toNat / 4)),
          (CR, wordAt s.mem ((s.reg SP + 8#32).toNat / 4)), (PC, wordAt s.mem ((s.reg SP + 12#32).toNat / 4) - 4#32)] []) ∧
    (¬InBacking (s.reg SP + 4#32) → exec .reti s = .fault (stackFault (s.reg SP + 4#32))) ∧
    (InBacking (s.reg SP + 4#32) → ¬InBacking (s.reg SP + 8#32) → exec .reti s = .fault (stackFault (s.reg SP + 8#32))) ∧
    (InBacking (s.reg SP + 4#32) → InBacking (s.reg SP + 8#32) → ¬InBacking (s.reg SP + 12#32) →
      exec .reti s = .fault (stackFault (s.reg SP + 12#32)))

/-! ### Traps -/

/-- 60_exceptions.md R322, R323: the entry protocol, and that it changes nothing else, SR and IE included; it faults at the
first of its three words that is outside memory or a device word. [The spec's own decisions: D9, D10, D18, D41; log entry 3.
The model's choices: that a fault shows no partial effect is log entry 5, that a push to a device word faults log entry 9.] -/
def Obligations.EntryProtocol : Prop :=
  ∀ (s : State) (cause vector ipcval : Word),
    (StackRoom s →
      ∃ t, enter cause vector ipcval s = .ok t ∧ Entered s t cause vector ipcval ∧ t.fpu = s.fpu ∧ t.events = s.events) ∧
    (¬InBacking (s.reg SP) → enter cause vector ipcval s = .error (stackFault (s.reg SP))) ∧
    (InBacking (s.reg SP) → ¬InBacking (s.reg SP - 4#32) →
      enter cause vector ipcval s = .error (stackFault (s.reg SP - 4#32))) ∧
    (InBacking (s.reg SP) → InBacking (s.reg SP - 4#32) → ¬InBacking (s.reg SP - 8#32) →
      enter cause vector ipcval s = .error (stackFault (s.reg SP - 8#32))) ∧
    (∀ s1 s2 s3, push (s.reg PC + 4#32) s = .ok s1 → push (s.reg CR) s1 = .ok s2 → push (s.reg IPC) s2 = .ok s3 →
      enter cause vector ipcval s = .ok (((s3.writeReg CR cause).writeReg IPC ipcval).writeReg PC (vector - 4#32)))

/-- 60_exceptions.md R327: from any state that has SP and the three stacked words as entry left them, reti restores CR, IPC and
SP and resumes at the instruction that would have run next; it does not restore SR. [The spec's own decisions: D10, D13; log
entry 3.] -/
def Obligations.RetiUndoesTheEntry : Prop :=
  ∀ (s t u : State) (cause vector ipcval : Word), StackRoom s → enter cause vector ipcval s = .ok t →
    u.reg SP = t.reg SP →
    (∀ a ∈ [s.reg SP, s.reg SP - 4#32, s.reg SP - 8#32], wordAt u.mem (a.toNat / 4) = wordAt t.mem (a.toNat / 4)) →
    ∃ v, exec .reti u = .next v ∧ v.reg CR = s.reg CR ∧ v.reg IPC = s.reg IPC ∧ v.reg SP = s.reg SP ∧
      (advance v).reg PC = s.reg PC + 4#32 ∧ v.reg SR = u.reg SR

/-- 49_software_trap.md R310; 60_exceptions.md R326: int with operand 0 halts, emits End and changes nothing else; with another
operand it emits its event and enters at VEC_SWI with the operand as cause, whatever IE is and wherever the stack lies. [The
spec's own decisions: D5, D27, D28; log entry 3.] -/
def Obligations.IntHaltsOrTraps : Prop :=
  (∀ w, fieldOp w = 0x3f#6 → decode w = .ok (.int (fieldImm26 w))) ∧
  (∀ s : State, ∃ t, exec (.int 0#26) s = .next t ∧ t.halted = true ∧ t.events = .endRun :: s.events ∧ SameRegs s t ∧
    SameMem s t ∧ t.pending = s.pending ∧ t.fault = s.fault ∧ t.wdt = s.wdt ∧ t.fpu = s.fpu) ∧
  ∀ (s : State) (imm : BitVec 26), imm ≠ 0#26 →
    let cause : Word := BitVec.ofNat 32 imm.toNat
    exec (.int imm) s = finish (enter cause 0xc#32 (s.reg PC) (s.emit (.softwareInterrupt cause))) ∧
    (StackRoom s → ∃ t, exec (.int imm) s = .next t ∧ Entered s t cause 0xc#32 (s.reg PC) ∧ t.fpu = s.fpu ∧
      t.events = .softwareInterrupt cause :: s.events)

/-- 60_exceptions.md R324; 40_fetch_dispatch.md R145: executing an invalid word sets IV and enters at VEC_INVALID with the
primary opcode as cause, whatever IE is and wherever the stack lies; a step that fetches such a word runs exactly that and the
phases after it. [The spec's own decisions: D2, D5, D27; log entry 3.] -/
def Obligations.InvalidWordsTrap : Prop :=
  (∀ (s s1 : State) (w : Word), s.fault = none → s.halted = false → fetch s = .ok (w, s1) → fieldOp w ∈ unassignedOpcodes →
    step s = endCycle (execute w s1)) ∧
  ∀ (s : State) (w : Word), fieldOp w ∈ unassignedOpcodes →
    let cause : Word := BitVec.ofNat 32 (fieldOp w).toNat
    execute w s = finish (enter cause 0x4#32 (s.reg PC) ((s.setFlag .iv true).emit (.invalid (s.reg PC) w))) ∧
    (StackRoom s → ∃ t, execute w s = .next t ∧ Entered (s.setFlag .iv true) t cause 0x4#32 (s.reg PC) ∧ t.fpu = s.fpu ∧
      t.events = .invalid (s.reg PC) w :: s.events)

/-! ### The interrupt controller -/

/-- 60_exceptions.md R340, R343: a request while IE = 0 evicts the entry with its priority and cause, if any, and stands after
every remaining entry whose number is not above its own; nothing else changes. [The spec's own decisions: D7, D8; log entry 3.]
-/
def Obligations.RequestsAreQueuedInOrderWhileIeIsClear : Prop :=
  ∀ (s : State) (p : Prio) (cause saved : Word), s.flag .ie = false → PendingSorted s.pending → PendingDistinct s.pending →
    let others := s.pending.filter fun e => decide (¬(e.prio = p ∧ e.cause = cause))
    ∃ t, schedule (Param.prioNumber p) cause saved s = .ok t ∧
      t.pending = others.filter (fun e => decide (Param.prioNumber e.prio ≤ Param.prioNumber p)) ++
        ⟨p, cause, saved⟩ :: others.filter (fun e => decide (Param.prioNumber p < Param.prioNumber e.prio)) ∧
      PendingSorted t.pending ∧ PendingDistinct t.pending ∧
      SameRegs s t ∧ SameMem s t ∧ t.halted = s.halted ∧ t.fault = s.fault ∧ SameDevices s t

/-- 95_test_vectors.md L1.4: scheduling a pair twice leaves exactly one entry with it, the second one's; with the same saved PC
it leaves what once leaves. [The spec's own decisions: D8; log entry 3.] -/
def Obligations.DuplicateRequestsCollapse : Prop :=
  ∀ (s t u : State) (p : Prio) (cause s1 s2 : Word), s.flag .ie = false →
    schedule (Param.prioNumber p) cause s1 s = .ok t → schedule (Param.prioNumber p) cause s2 t = .ok u →
    u.pending.filter (fun e => decide (e.prio = p ∧ e.cause = cause)) = [⟨p, cause, s2⟩] ∧
    (s1 = s2 → PendingSorted s.pending → u.pending = t.pending)

/-- 60_exceptions.md R340, R342, R347: a request while IE = 1 enters at once at its class's vector, whatever is pending and
wherever the stack lies; class 2 calls fpu_set_status before that. [The spec's own decisions: D5, D7, D38; log entry 3. The
model's choices: FPU_MODEL is log entry 1.] -/
def Obligations.RequestsEnterAtOnceWhileIeIsSet : Prop :=
  ∀ (s : State) (cause saved : Word), s.flag .ie = true →
    ∀ q ∈ [(1, Prio.class1, 0x10#32), (2, Prio.class2, 0x14#32), (3, Prio.class3, 0x18#32), (4, Prio.class4, 0x1c#32)],
      let p := if q.1 = 2 then Param.fpuModel.setStatus s.fpu else s.fpu
      schedule q.1 cause saved s = enter cause q.2.2 saved ((s.setFpu p).emit (.hardwareInterrupt q.2.1 cause)) ∧
      (StackRoom s → ∃ t, schedule q.1 cause saved s = .ok t ∧ Entered s t cause q.2.2 saved ∧
        t.events = .hardwareInterrupt q.2.1 cause :: s.events ∧ t.fpu = p)

/-- 60_exceptions.md R341: a priority outside 1 to 4 is a PriorityFault; a priority of 1 to 4 never is one, whatever IE is, and
is accepted while IE = 0. [The spec's own decisions: D7; log entry 3.] -/
def Obligations.PrioritiesOutsideTheClassesFault : Prop :=
  ∀ (s : State) (p : Nat) (cause saved : Word),
    (p ∉ [1, 2, 3, 4] → schedule p cause saved s = .error (.priorityFault p)) ∧
    (p ∈ [1, 2, 3, 4] → (∀ q, schedule p cause saved s ≠ .error (.priorityFault q)) ∧
      (s.flag .ie = false → ∃ t, schedule p cause saved s = .ok t))

/-- 60_exceptions.md R345: one entry, the head, drains while IE = 1, with its saved PC as IPC and the next instruction as
return address, wherever the stack lies; class 2 calls fpu_set_status before that; otherwise nothing happens. [The spec's own
decisions: D7, D9, D38; log entry 3. The model's choices: FPU_MODEL is log entry 1.] -/
def Obligations.DrainEntersTheHead : Prop :=
  (∀ s : State, s.flag .ie = false ∨ s.pending = [] → drain s = .ok s) ∧
  ∀ (s : State) (e : PendingEntry) (rest : List PendingEntry), s.flag .ie = true → s.pending = e :: rest →
    let p := if e.prio = .class2 then Param.fpuModel.setStatus s.fpu else s.fpu
    drain s = enter e.cause (Param.hwVector e.prio) e.savedPC
      (((s.setPending rest).setFpu p).emit (.hardwareInterrupt e.prio e.cause)) ∧
    (StackRoom s → ∃ t, drain s = .ok t ∧ Entered (s.setPending rest) t e.cause (Param.hwVector e.prio) e.savedPC ∧
      t.events = .hardwareInterrupt e.prio e.cause :: s.events ∧ t.fpu = p)

/-! ### The watchdog and the FPU tick -/

/-- 60_exceptions.md R359: the watchdog tick, disabled, counting, and at zero: the schedule comes first and the disable wins;
with IE clear the request is queued, with IE set the entry is immediate. [The spec's own decisions: D5 and D6 give the vector
and the cause, D7 the priority, D19 the layout of the word; log entry 3.] -/
def Obligations.WatchdogTick : Prop :=
  ∀ s : State,
    (s.wdt.toNat < 2 ^ 31 → wdtTick s = .ok s) ∧
    (2 ^ 31 < s.wdt.toNat → ∃ t, wdtTick s = .ok t ∧ t.wdt = s.wdt - 1#32 ∧ SameRegs s t ∧ SameMem s t ∧ SameControl s t ∧
      t.fpu = s.fpu ∧ t.events = s.events) ∧
    (s.wdt.toNat = 2 ^ 31 →
      (∀ u, schedule 1 0xe1ac04da#32 (s.reg PC) s = .ok u → wdtTick s = .ok (u.setWdt (u.wdt &&& 0x7fffffff#32))) ∧
      (∀ f, schedule 1 0xe1ac04da#32 (s.reg PC) s = .error f → wdtTick s = .error f)) ∧
    (s.wdt.toNat = 2 ^ 31 → s.flag .ie = false →
      ∃ t u, wdtTick s = .ok t ∧ schedule 1 0xe1ac04da#32 (s.reg PC) s = .ok u ∧ t.pending = u.pending ∧ t.wdt = 0#32 ∧
        ⟨.class1, 0xe1ac04da#32, s.reg PC⟩ ∈ t.pending ∧ SameRegs s t ∧ SameMem s t ∧ t.halted = s.halted ∧
        t.fault = s.fault ∧ t.fpu = s.fpu ∧ t.events = s.events) ∧
    (s.wdt.toNat = 2 ^ 31 → s.flag .ie = true → StackRoom s →
      ∃ t, wdtTick s = .ok t ∧ Entered (s.setWdt 0#32) t 0xe1ac04da#32 0x10#32 (s.reg PC) ∧ t.fpu = s.fpu ∧
        t.events = .hardwareInterrupt .class1 0xe1ac04da#32 :: s.events)

/-- 60_exceptions.md R360: armed with COUNT = N, the watchdog counts down one a tick, and its tick of cycle N finds zero. [The
spec's own decisions: D19; log entry 3.] -/
def Obligations.WatchdogCountsDownOneATick : Prop :=
  ∀ (k : Nat) (s : State), 2 ^ 31 ≤ s.wdt.toNat → k ≤ s.wdt.toNat - 2 ^ 31 →
    ∃ t, Nat.repeat (fun r => r >>= wdtTick) k (.ok s) = .ok t ∧ t.wdt.toNat = s.wdt.toNat - k ∧ SameRegs s t ∧
      SameMem s t ∧ SameControl s t ∧ t.fpu = s.fpu ∧ t.events = s.events

/-- 60_exceptions.md R364: in phase 7, after the drain and the watchdog tick, fpu_tick of FPU_MODEL is called once; the request
it answers, if any, is scheduled with x[29] as saved PC; the FPU does not tick in a cycle that halts. -/
def Obligations.FpuTickSchedulesTheAnswer : Prop :=
  (∀ s : State,
    let s1 := s.setFpu (Param.fpuModel.tick s.fpu).2
    fpuTick s = match (Param.fpuModel.tick s.fpu).1 with
      | none => .ok s1
      | some r => schedule r.prio r.cause (s.reg PC) s1) ∧
  (∀ u d e : State, drain u = .ok d → wdtTick d = .ok e → afterExecute u = (fpuTick e).map advance) ∧
  ∀ u : State, u.halted = true → endCycle (.next u) = .next u

/-! ### The cycle -/

/-- 40_fetch_dispatch.md R141; 20_memory.md R83: the fetch reads the word at PC >> 2 from backing memory, writes it to IR and
emits Exec; outside backing memory it is a FetchFault. [The spec's own decisions: D30, D33; log entry 3.] -/
def Obligations.FetchReadsTheWordAtPc : Prop :=
  ∀ s : State,
    (InBacking (s.reg PC) → ∃ t, fetch s = .ok (wordAt s.mem ((s.reg PC).toNat / 4), t) ∧
      (∀ r, t.reg r = if r = IR then wordAt s.mem ((s.reg PC).toNat / 4) else s.reg r) ∧
      t.events = .exec (s.reg PC) (wordAt s.mem ((s.reg PC).toNat / 4)) :: s.events ∧ SameMem s t ∧ SameControl s t ∧
      t.wdt = s.wdt ∧ t.fpu = s.fpu) ∧
    (¬InBacking (s.reg PC) → fetch s = .error (.fetchFault (s.reg PC)))

/-- 40_fetch_dispatch.md R140: a step whose word decodes to an instruction runs exactly that instruction on the fetched state,
and then, unless it halted, the drain, the watchdog tick, the FPU tick and the advance, in that order; a fault of any of them,
or of the fetch, is the step's. [The model's choices: that a fault shows no partial effect is log entry 5.] -/
def Obligations.StepRunsTheDecodedInstruction : Prop :=
  (∀ (s : State) (x : Fault), s.fault = none → s.halted = false → fetch s = .error x → step s = .fault x) ∧
  ∀ (s s1 : State) (w : Word) (i : Instr), s.fault = none → s.halted = false → fetch s = .ok (w, s1) → decode w = .ok i →
    (∀ u, exec i s1 = .next u → u.halted = true → step s = .next u) ∧
    (∀ u d e, exec i s1 = .next u → u.halted = false → drain u = .ok d → wdtTick d = .ok e →
      step s = match fpuTick e with
        | .ok f => .next (f.writeReg PC (f.reg PC + 4#32))
        | .error x => .fault x) ∧
    (∀ u x, exec i s1 = .next u → u.halted = false → drain u = .error x → step s = .fault x) ∧
    (∀ u d x, exec i s1 = .next u → u.halted = false → drain u = .ok d → wdtTick d = .error x → step s = .fault x) ∧
    (∀ x, exec i s1 = .fault x → step s = .fault x)

/-- 40_fetch_dispatch.md R146 to R148: a step in which nothing drains, the watchdog is off and the FPU tick requests nothing
leaves what the instruction left, with x[29] advanced by 4: a transfer that wrote t - 4 continues at t, an ordinary write of v
continues at v + 4. [The spec's own decisions: D14; log entry 3.] -/
def Obligations.QuietStepAdvancesThePcByFour : Prop :=
  ∀ (s s1 u : State) (w : Word) (i : Instr), s.fault = none → s.halted = false → fetch s = .ok (w, s1) → decode w = .ok i →
    exec i s1 = .next u → u.halted = false → (u.flag .ie = false ∨ u.pending = []) → u.wdt.toNat < 2 ^ 31 →
    (Param.fpuModel.tick u.fpu).1 = none →
    ∃ t, step s = .next t ∧ t.reg PC = u.reg PC + 4#32 ∧ (∀ r, r ≠ PC → t.reg r = u.reg r) ∧ SameMem u t ∧
      SameControl u t ∧ t.wdt = u.wdt ∧ t.fpu = (Param.fpuModel.tick u.fpu).2 ∧ t.events = u.events

/-- 40_fetch_dispatch.md R149; 95_test_vectors.md L1.5: a cycle that fetches `int 0` halts: no drain, no tick, no advance;
x[29], SR, the watchdog and the pending list are as before, and the stream ends with Exec and End. [The spec's own decisions:
D28, D33; log entry 3.] -/
def Obligations.IntZeroEndsTheCycleAtOnce : Prop :=
  ∀ s : State, s.fault = none → s.halted = false → InBacking (s.reg PC) →
    wordAt s.mem ((s.reg PC).toNat / 4) = 0xfc000000#32 →
    ∃ t, step s = .next t ∧ t.halted = true ∧ t.fault = none ∧
      (∀ r, t.reg r = if r = IR then 0xfc000000#32 else s.reg r) ∧ SameMem s t ∧ t.pending = s.pending ∧ t.wdt = s.wdt ∧
      t.fpu = s.fpu ∧ t.events = .endRun :: .exec (s.reg PC) 0xfc000000#32 :: s.events

/-- 60_exceptions.md R375, 40_fetch_dispatch.md R155: a halted state stands, and a fault mark answers itself. [The model's
choices: that step answers a halted state with itself is log entry 4, and a marked state with its own fault log entry 5.] -/
def Obligations.HaltedStatesStand : Prop :=
  (∀ s : State, s.fault = none → s.halted = true → step s = .next s) ∧
  (∀ (s : State) (f : Fault), s.fault = some f → step s = .fault f)

/-! ### Whole-machine rules -/

/-- HEADLINE, 60_exceptions.md R349, 10_state.md R46: only `int 0` halts. A step that goes from running to halted fetched a
word of opcode 0x3F with operand 0, and the entries then pending stay pending. [The spec's own decisions: D2 numbers the
opcode; log entry 3.] -/
def Obligations.OnlyIntZeroHalts : Prop :=
  ∀ s t : State, step s = .next t → s.halted = false → t.halted = true →
    wordAt s.mem ((s.reg PC).toNat / 4) = 0x3f#6 ++ 0#26 ∧ t.pending = s.pending

/-- HEADLINE, the frame of every instruction in every state: registers it neither names as destinations nor writes implicitly
keep their values. [The spec's own decisions: D2 to D43 as the rules of the families carry them; log entry 3.] -/
def Obligations.RegistersOutsideTheWrittenOnesKeepTheirValues : Prop :=
  ∀ (i : Instr) (s t : State), exec i s = .next t → ∀ r, r ∉ destRegs i → r ∉ implicitRegs i → t.reg r = s.reg r

/-- The frame of memory and the watchdog: an instruction that neither stores, pushes nor can trap leaves every byte and the
watchdog as they were; no instruction touches the pending list or the fault mark. [The spec's own decisions: D2 to D43 as the
rules of the families carry them; log entry 3.] -/
def Obligations.InstructionsThatCannotStoreLeaveMemory : Prop :=
  ∀ (i : Instr) (s t : State), exec i s = .next t →
    (canStore i = false → SameMem s t ∧ t.wdt = s.wdt ∧ t.events = s.events ∧ t.halted = s.halted) ∧
    t.pending = s.pending ∧ t.fault = s.fault

/-- HEADLINE, 10_state.md R40: IE is written only by software writes to SR. Neither an instruction without SR among its
destinations, nor the invalid-instruction trap, nor the phases after EXECUTE change it. [The spec's own decisions: D10; log
entry 3.] -/
def Obligations.OnlyWritesToSrChangeIe : Prop :=
  (∀ (i : Instr) (s t : State), exec i s = .next t → SR ∉ destRegs i → t.flag .ie = s.flag .ie) ∧
  (∀ (w : Word) (s t : State), invalidTrap w s = .ok t → t.flag .ie = s.flag .ie) ∧
  (∀ s t : State, afterExecute s = .ok t → t.reg SR = s.reg SR)

/-- 40_fetch_dispatch.md R156: the event stream only grows, and a cycle's first event is Exec of the address and the word it
fetched. [The spec's own decisions: D33; log entry 3. The model's choices: that State holds the stream, newest first, is log
entry 7.] -/
def Obligations.EveryCycleEmitsExecFirst : Prop :=
  ∀ s t : State, step s = .next t → s.halted = false →
    ∃ later, t.events = later ++ .exec (s.reg PC) (wordAt s.mem ((s.reg PC).toNat / 4)) :: s.events
end

