-- ==== Sys2Proof/Laws/Dispatch.lean ====
section
/-! SUPPORT. What each arm of `exec` is: later proofs rewrite with these instead of unfolding `exec`. -/

namespace Sys2Proof.Machine

variable (s : State)

@[simp] theorem exec_mov (z : RegIdx) (imm : BitVec 21) :
    exec (.mov z imm) s = execMov z imm s := rfl
@[simp] theorem exec_movs (z : RegIdx) (imm : BitVec 21) :
    exec (.movs z imm) s = execMovs z imm s := rfl
@[simp] theorem exec_add (z x y : RegIdx) :
    exec (.add z x y) s = execAdd z x y s := rfl
@[simp] theorem exec_sub (z x y : RegIdx) :
    exec (.sub z x y) s = execSub z x y s := rfl
@[simp] theorem exec_addi (z x : RegIdx) (imm : BitVec 16) :
    exec (.addi z x imm) s = execAddi z x imm s := rfl
@[simp] theorem exec_subi (z x : RegIdx) (imm : BitVec 16) :
    exec (.subi z x imm) s = execSubi z x imm s := rfl
@[simp] theorem exec_muli (z x : RegIdx) (imm : BitVec 16) :
    exec (.muli z x imm) s = execMuli z x imm s := rfl
@[simp] theorem exec_divi (z x : RegIdx) (imm : BitVec 16) :
    exec (.divi z x imm) s = execDivi z x imm s := rfl
@[simp] theorem exec_modi (z x : RegIdx) (imm : BitVec 16) :
    exec (.modi z x imm) s = execModi z x imm s := rfl
@[simp] theorem exec_mul (z x y i : RegIdx) :
    exec (.mul z x y i) s = execMul z x y i s := rfl
@[simp] theorem exec_muls (z x y i : RegIdx) :
    exec (.muls z x y i) s = execMuls z x y i s := rfl
@[simp] theorem exec_sll (z x y : RegIdx) (i : BitVec 5) :
    exec (.sll z x y i) s = execSll z x y i s := rfl
@[simp] theorem exec_sla (z x y : RegIdx) (i : BitVec 5) :
    exec (.sla z x y i) s = execSla z x y i s := rfl
@[simp] theorem exec_srl (z x y : RegIdx) (i : BitVec 5) :
    exec (.srl z x y i) s = execSrl z x y i s := rfl
@[simp] theorem exec_sra (z x y : RegIdx) (i : BitVec 5) :
    exec (.sra z x y i) s = execSra z x y i s := rfl
@[simp] theorem exec_div (z x y i : RegIdx) :
    exec (.div z x y i) s = execDiv z x y i s := rfl
@[simp] theorem exec_divs (z x y i : RegIdx) :
    exec (.divs z x y i) s = execDivs z x y i s := rfl
@[simp] theorem exec_cmp (x y : RegIdx) :
    exec (.cmp x y) s = execCmp x y s := rfl
@[simp] theorem exec_cmpi (x : RegIdx) (imm : BitVec 16) :
    exec (.cmpi x imm) s = execCmpi x imm s := rfl
@[simp] theorem exec_and (z x y : RegIdx) :
    exec (.and z x y) s = execAnd z x y s := rfl
@[simp] theorem exec_or (z x y : RegIdx) :
    exec (.or z x y) s = execOr z x y s := rfl
@[simp] theorem exec_not (z x : RegIdx) :
    exec (.not z x) s = execNot z x s := rfl
@[simp] theorem exec_xor (z x y : RegIdx) :
    exec (.xor z x y) s = execXor z x y s := rfl
@[simp] theorem exec_l8 (z x : RegIdx) (imm : BitVec 16) :
    exec (.l8 z x imm) s = execL8 z x imm s := rfl
@[simp] theorem exec_l16 (z x : RegIdx) (imm : BitVec 16) :
    exec (.l16 z x imm) s = execL16 z x imm s := rfl
@[simp] theorem exec_l32 (z x : RegIdx) (imm : BitVec 16) :
    exec (.l32 z x imm) s = execL32 z x imm s := rfl
@[simp] theorem exec_s8 (z x : RegIdx) (imm : BitVec 16) :
    exec (.s8 z x imm) s = execS8 z x imm s := rfl
@[simp] theorem exec_s16 (z x : RegIdx) (imm : BitVec 16) :
    exec (.s16 z x imm) s = execS16 z x imm s := rfl
@[simp] theorem exec_s32 (z x : RegIdx) (imm : BitVec 16) :
    exec (.s32 z x imm) s = execS32 z x imm s := rfl
@[simp] theorem exec_push (regs : List RegIdx) :
    exec (.push regs) s = execPush regs s := rfl
@[simp] theorem exec_pop (regs : List RegIdx) :
    exec (.pop regs) s = execPop regs s := rfl
@[simp] theorem exec_bae (imm : BitVec 26) :
    exec (.bae imm) s = execBae imm s := rfl
@[simp] theorem exec_bat (imm : BitVec 26) :
    exec (.bat imm) s = execBat imm s := rfl
@[simp] theorem exec_bbe (imm : BitVec 26) :
    exec (.bbe imm) s = execBbe imm s := rfl
@[simp] theorem exec_bbt (imm : BitVec 26) :
    exec (.bbt imm) s = execBbt imm s := rfl
@[simp] theorem exec_beq (imm : BitVec 26) :
    exec (.beq imm) s = execBeq imm s := rfl
@[simp] theorem exec_bge (imm : BitVec 26) :
    exec (.bge imm) s = execBge imm s := rfl
@[simp] theorem exec_bgt (imm : BitVec 26) :
    exec (.bgt imm) s = execBgt imm s := rfl
@[simp] theorem exec_biv (imm : BitVec 26) :
    exec (.biv imm) s = execBiv imm s := rfl
@[simp] theorem exec_ble (imm : BitVec 26) :
    exec (.ble imm) s = execBle imm s := rfl
@[simp] theorem exec_blt (imm : BitVec 26) :
    exec (.blt imm) s = execBlt imm s := rfl
@[simp] theorem exec_bne (imm : BitVec 26) :
    exec (.bne imm) s = execBne imm s := rfl
@[simp] theorem exec_bni (imm : BitVec 26) :
    exec (.bni imm) s = execBni imm s := rfl
@[simp] theorem exec_bnz (imm : BitVec 26) :
    exec (.bnz imm) s = execBnz imm s := rfl
@[simp] theorem exec_bun (imm : BitVec 26) :
    exec (.bun imm) s = execBun imm s := rfl
@[simp] theorem exec_bzd (imm : BitVec 26) :
    exec (.bzd imm) s = execBzd imm s := rfl
@[simp] theorem exec_callF (x : RegIdx) (imm : BitVec 16) :
    exec (.callF x imm) s = execCallF x imm s := rfl
@[simp] theorem exec_callS (imm : BitVec 26) :
    exec (.callS imm) s = execCallS imm s := rfl
@[simp] theorem exec_ret :
    exec (.ret) s = execRet s := rfl
@[simp] theorem exec_reti :
    exec (.reti) s = execReti s := rfl
@[simp] theorem exec_cbr (z : RegIdx) (x : BitVec 5) :
    exec (.cbr z x) s = execCbr z x s := rfl
@[simp] theorem exec_sbr (z : RegIdx) (x : BitVec 5) :
    exec (.sbr z x) s = execSbr z x s := rfl
@[simp] theorem exec_int (imm : BitVec 26) :
    exec (.int imm) s = execInt imm s := rfl

end Sys2Proof.Machine
end

