-- ==== Sys2Proof/Laws/Memory.lean ====
section
/-! SUPPORT. The laws of backing memory: reading after writing, and the canonical form. -/

namespace Sys2Proof.Machine

theorem cellsRead_erase (a b : Nat) (l : List Host.Cell) :
    cellsRead (cellsErase a l) b = if b = a then unlistedByte else cellsRead l b := by
  induction l with
  | nil => simp [cellsErase, cellsRead]
  | cons d ds ih =>
    by_cases hd : d.1 = a <;> by_cases hb : b = a
    · subst hb
      simpa [cellsErase, hd] using ih
    · simp [cellsErase, cellsRead, hd, ih, hb, Ne.symm hb]
    · subst hb
      simpa [cellsErase, cellsRead, hd] using ih
    · simp [cellsErase, cellsRead, hd, ih, hb]

theorem cellsErase_fresh (a : Nat) (l : List Host.Cell) : ∀ c ∈ cellsErase a l, c.1 ≠ a := by
  induction l with
  | nil => simp [cellsErase]
  | cons d ds ih =>
    by_cases hd : d.1 = a
    · simpa [cellsErase, hd] using ih
    · simpa [cellsErase, hd] using ih

theorem cellsRead_insert {c : Host.Cell} {l : List Host.Cell} (h : ∀ d ∈ l, d.1 ≠ c.1) (b : Nat) :
    cellsRead (cellsInsert c l) b = if b = c.1 then c.2 else cellsRead l b := by
  induction l with
  | nil => simp [cellsInsert, cellsRead, eq_comm]
  | cons d ds ih =>
    have hd := h d List.mem_cons_self
    have ih := ih fun e he => h e (List.mem_cons_of_mem _ he)
    by_cases hlt : c.1 < d.1
    · simp [cellsInsert, hlt, cellsRead, eq_comm]
    · by_cases hb : b = c.1
      · subst hb
        simp [cellsInsert, hlt, cellsRead, ih, hd]
      · simp [cellsInsert, hlt, cellsRead, ih, hb]

/-- A read after a write: the byte written at its own address, every other byte as before (R78). -/
@[simp] theorem Memory.read_write (m : Memory) (a : Nat) (v : Byte) (b : Nat) :
    (m.write a v).read b = if b = a then v else m.read b := by
  unfold Memory.write Memory.read
  split
  · rename_i h
    rw [h]
    exact cellsRead_erase ..
  · have := cellsRead_insert (c := (a, v)) (cellsErase_fresh a m.cells) b
    by_cases hb : b = a
    · simpa [hb] using this
    · simpa [hb, cellsRead_erase] using this

theorem mem_cellsErase {a : Nat} {c : Host.Cell} {l : List Host.Cell} (h : c ∈ cellsErase a l) : c ∈ l := by
  induction l with
  | nil => exact h
  | cons d ds ih =>
    by_cases hd : d.1 = a
    · exact List.mem_cons_of_mem _ (ih (by simpa [cellsErase, hd] using h))
    · rcases List.mem_cons.1 (by simpa [cellsErase, hd] using h) with rfl | h'
      · exact List.mem_cons_self
      · exact List.mem_cons_of_mem _ (ih h')

theorem mem_cellsInsert {c d : Host.Cell} {l : List Host.Cell} (h : d ∈ cellsInsert c l) : d = c ∨ d ∈ l := by
  induction l with
  | nil => simpa [cellsInsert] using h
  | cons e es ih =>
    by_cases hlt : c.1 < e.1
    · simpa [cellsInsert, hlt] using h
    · rcases List.mem_cons.1 (by simpa [cellsInsert, hlt] using h) with rfl | h'
      · exact .inr List.mem_cons_self
      · exact (ih h').imp_right (List.mem_cons_of_mem _)

theorem pairwise_cellsErase {a : Nat} {l : List Host.Cell} (h : l.Pairwise fun c d => c.1 < d.1) :
    (cellsErase a l).Pairwise fun c d => c.1 < d.1 := by
  induction l with
  | nil => simp [cellsErase]
  | cons d ds ih =>
    obtain ⟨h1, h2⟩ := List.pairwise_cons.1 h
    by_cases hd : d.1 = a
    · simpa [cellsErase, hd] using ih h2
    · simp only [cellsErase, hd, if_false]
      exact List.pairwise_cons.2 ⟨fun c hc => h1 c (mem_cellsErase hc), ih h2⟩

theorem pairwise_cellsInsert {c : Host.Cell} {l : List Host.Cell} (h : l.Pairwise fun c d => c.1 < d.1)
    (hc : ∀ d ∈ l, d.1 ≠ c.1) : (cellsInsert c l).Pairwise fun c d => c.1 < d.1 := by
  induction l with
  | nil => simp [cellsInsert]
  | cons e es ih =>
    obtain ⟨h1, h2⟩ := List.pairwise_cons.1 h
    by_cases hlt : c.1 < e.1
    · simp only [cellsInsert, hlt, if_true]
      refine List.pairwise_cons.2 ⟨fun d hd => ?_, h⟩
      rcases List.mem_cons.1 hd with rfl | hd
      · exact hlt
      · exact Nat.lt_trans hlt (h1 d hd)
    · simp only [cellsInsert, hlt, if_false]
      refine List.pairwise_cons.2 ⟨fun d hd => ?_, ih h2 fun d hd => hc d (List.mem_cons_of_mem _ hd)⟩
      rcases mem_cellsInsert hd with rfl | hd
      · have := hc e List.mem_cons_self
        omega
      · exact h1 d hd

/-- A write below MEM_BYTES keeps the canonical form. -/
theorem Memory.wf_write {m : Memory} (h : m.wf) {a : Nat} (ha : a < Param.memBytes) (v : Byte) : (m.write a v).wf := by
  unfold Memory.write
  split
  · exact ⟨pairwise_cellsErase h.1, fun c hc => h.2 c (mem_cellsErase hc)⟩
  · rename_i hv
    refine ⟨pairwise_cellsInsert (pairwise_cellsErase h.1) (cellsErase_fresh a _), fun c hc => ?_⟩
    rcases mem_cellsInsert hc with rfl | hc
    · exact ⟨hv, ha⟩
    · exact h.2 c (mem_cellsErase hc)

/-! ### Words and halfwords -/

/-- MEM_BYTES (R9). -/
theorem memBytes_eq : Param.memBytes = 32768 := rfl

theorem wordBase_bound {a : Nat} (h : a < Param.memBytes) : wordBase a + 3 < Param.memBytes := by
  rw [memBytes_eq] at *
  unfold wordBase
  omega

theorem halfBase_bound {a : Nat} (h : a < Param.memBytes) : halfBase a + 1 < Param.memBytes := by
  rw [memBytes_eq] at *
  unfold halfBase
  omega

theorem Memory.wf_storeWord {m : Memory} (h : m.wf) {a : Nat} (ha : a < Param.memBytes) (v : Word) :
    (m.storeWord a v).wf := by
  have hb := wordBase_bound ha
  exact Memory.wf_write (Memory.wf_write (Memory.wf_write (Memory.wf_write h (by omega) _) (by omega) _) (by omega) _) hb _

theorem Memory.wf_storeHalf {m : Memory} (h : m.wf) {a : Nat} (ha : a < Param.memBytes) (v : Word) :
    (m.storeHalf a v).wf := by
  have hb := halfBase_bound ha
  exact Memory.wf_write (Memory.wf_write h (by omega) _) hb _

theorem Memory.wf_storeByte {m : Memory} (h : m.wf) {a : Nat} (ha : a < Param.memBytes) (v : Word) :
    (m.storeByte a v).wf := Memory.wf_write h ha _

/-- The byte at address `b` after a word store: its own byte of the word, or as before (R73, R75). -/
theorem Memory.read_storeWord (m : Memory) (a : Nat) (v : Word) (b : Nat) :
    (m.storeWord a v).read b =
      if wordBase b = wordBase a then v.extractLsb' (8 * (3 - b % 4)) 8 else m.read b := by
  have hb : b = wordBase b + b % 4 := by
    unfold wordBase
    omega
  simp only [Memory.storeWord, Memory.read_write]
  by_cases h : wordBase b = wordBase a
  · rw [if_pos h, ← h]
    generalize wordBase b = w at hb
    rcases (by omega : b % 4 = 0 ∨ b % 4 = 1 ∨ b % 4 = 2 ∨ b % 4 = 3) with e | e | e | e <;> rw [e] at hb ⊢ <;> subst hb <;>
      simp
  · have hne : ∀ k, k < 4 → b ≠ wordBase a + k := fun k hk e => h (by unfold wordBase at *; omega)
    rw [if_neg h, if_neg (hne 3 (by omega)), if_neg (hne 2 (by omega)), if_neg (hne 1 (by omega)), if_neg (by simpa using hne 0 (by omega))]

/-- The byte at address `b` after a halfword store (R76, R78). -/
theorem Memory.read_storeHalf (m : Memory) (a : Nat) (v : Word) (b : Nat) :
    (m.storeHalf a v).read b =
      if halfBase b = halfBase a then v.extractLsb' (8 * (1 - b % 2)) 8 else m.read b := by
  have hb : b = halfBase b + b % 2 := by
    unfold halfBase
    omega
  simp only [Memory.storeHalf, Memory.read_write]
  by_cases h : halfBase b = halfBase a
  · rw [if_pos h, ← h]
    generalize halfBase b = w at hb
    rcases (by omega : b % 2 = 0 ∨ b % 2 = 1) with e | e <;> rw [e] at hb ⊢ <;> subst hb <;> simp
  · have hne : ∀ k, k < 2 → b ≠ halfBase a + k := fun k hk e => h (by unfold halfBase at *; omega)
    rw [if_neg h, if_neg (hne 1 (by omega)), if_neg (by simpa using hne 0 (by omega))]

/-- The byte at address `b` after a byte store (R77, R78). -/
theorem Memory.read_storeByte (m : Memory) (a : Nat) (v : Word) (b : Nat) :
    (m.storeByte a v).read b = if b = a then v.extractLsb' 0 8 else m.read b := Memory.read_write ..

end Sys2Proof.Machine
end

