-- ==== Sys2Proof/Laws/State.lean ====
section
/-! SUPPORT. One lemma for each field of State and each update, so that no later proof unfolds a record update. -/

namespace Sys2Proof.Machine

variable (s : State)

/-! ### Registers -/

theorem regIdx_toNat_ne {q r : RegIdx} (h : q ≠ r) : r.toNat ≠ q.toNat := fun e => h (BitVec.eq_of_toNat_eq e.symm)

/-- Slot 0 reads as zero (R31). -/
@[simp] theorem State.reg_zero : s.reg 0#5 = 0#32 := rfl

/-- Reading after a write: the value, unless the slot is slot 0 or another one. -/
theorem State.reg_writeReg (r : RegIdx) (v : Word) (q : RegIdx) :
    (s.writeReg r v).reg q = if q = r ∧ q ≠ 0#5 then v else s.reg q := by
  unfold State.writeReg State.reg
  by_cases hq : q = 0#5
  · simp [hq]
  · by_cases hr : r = 0#5
    · subst hr
      simp [hq]
    · by_cases hqr : q = r
      · subst hqr
        simp [hr]
      · simp [hr, hq, hqr, Vector.getElem_set_ne _ _ (regIdx_toNat_ne hqr)]

theorem State.reg_writeReg_of_ne {r q : RegIdx} (h : q ≠ r) (v : Word) : (s.writeReg r v).reg q = s.reg q := by
  rw [State.reg_writeReg, if_neg fun e => h e.1]

theorem State.reg_writeReg_self {r : RegIdx} (h : r ≠ 0#5) (v : Word) : (s.writeReg r v).reg r = v := by
  rw [State.reg_writeReg, if_pos ⟨rfl, h⟩]

/-- A write to slot 0 is discarded (R31). -/
@[simp] theorem State.writeReg_zero (v : Word) : s.writeReg 0#5 v = s := rfl

@[simp] theorem State.writeReg_mem (r : RegIdx) (v : Word) : (s.writeReg r v).mem = s.mem := by
  unfold State.writeReg
  split <;> rfl
@[simp] theorem State.writeReg_wdt (r : RegIdx) (v : Word) : (s.writeReg r v).wdt = s.wdt := by
  unfold State.writeReg
  split <;> rfl
@[simp] theorem State.writeReg_pending (r : RegIdx) (v : Word) : (s.writeReg r v).pending = s.pending := by
  unfold State.writeReg
  split <;> rfl
@[simp] theorem State.writeReg_halted (r : RegIdx) (v : Word) : (s.writeReg r v).halted = s.halted := by
  unfold State.writeReg
  split <;> rfl
@[simp] theorem State.writeReg_fault (r : RegIdx) (v : Word) : (s.writeReg r v).fault = s.fault := by
  unfold State.writeReg
  split <;> rfl
@[simp] theorem State.writeReg_fpu (r : RegIdx) (v : Word) : (s.writeReg r v).fpu = s.fpu := by
  unfold State.writeReg
  split <;> rfl
@[simp] theorem State.writeReg_events (r : RegIdx) (v : Word) : (s.writeReg r v).events = s.events := by
  unfold State.writeReg
  split <;> rfl

@[simp] theorem State.setFlag_mem (f : Flag) (b : Bool) : (s.setFlag f b).mem = s.mem := State.writeReg_mem ..
@[simp] theorem State.setFlag_wdt (f : Flag) (b : Bool) : (s.setFlag f b).wdt = s.wdt := State.writeReg_wdt ..
@[simp] theorem State.setFlag_pending (f : Flag) (b : Bool) : (s.setFlag f b).pending = s.pending := State.writeReg_pending ..
@[simp] theorem State.setFlag_halted (f : Flag) (b : Bool) : (s.setFlag f b).halted = s.halted := State.writeReg_halted ..
@[simp] theorem State.setFlag_fault (f : Flag) (b : Bool) : (s.setFlag f b).fault = s.fault := State.writeReg_fault ..
@[simp] theorem State.setFlag_fpu (f : Flag) (b : Bool) : (s.setFlag f b).fpu = s.fpu := State.writeReg_fpu ..
@[simp] theorem State.setFlag_events (f : Flag) (b : Bool) : (s.setFlag f b).events = s.events := State.writeReg_events ..

@[simp] theorem State.jump_mem (t : Word) : (s.jump t).mem = s.mem := State.writeReg_mem ..
@[simp] theorem State.jump_wdt (t : Word) : (s.jump t).wdt = s.wdt := State.writeReg_wdt ..
@[simp] theorem State.jump_pending (t : Word) : (s.jump t).pending = s.pending := State.writeReg_pending ..
@[simp] theorem State.jump_halted (t : Word) : (s.jump t).halted = s.halted := State.writeReg_halted ..
@[simp] theorem State.jump_fault (t : Word) : (s.jump t).fault = s.fault := State.writeReg_fault ..
@[simp] theorem State.jump_fpu (t : Word) : (s.jump t).fpu = s.fpu := State.writeReg_fpu ..
@[simp] theorem State.jump_events (t : Word) : (s.jump t).events = s.events := State.writeReg_events ..

/-! ### Bits and flags -/

theorem getLsbD_putBit (w : Word) (k : Nat) (b : Bool) (j : Nat) :
    (putBit w k b).getLsbD j = if j = k ∧ j < 32 then b else w.getLsbD j := by
  by_cases hj : j < 32
  · have hbit : (1#32 <<< k).getLsbD j = decide (j = k) := by
      rw [BitVec.getLsbD_shiftLeft, BitVec.getLsbD_one]
      by_cases hk : j = k
      · subst hk
        simp [hj]
      · by_cases hlt : j < k
        · simp [hk, hlt]
        · have : j - k ≠ 0 := by omega
          simp [hk, this]
    cases b
    · change (w &&& ~~~(1#32 <<< k)).getLsbD j = _
      rw [BitVec.getLsbD_and, BitVec.getLsbD_not, hbit]
      by_cases hk : j = k
      · subst hk
        simp [hj]
      · simp [hk, hj]
    · change (w ||| 1#32 <<< k).getLsbD j = _
      rw [BitVec.getLsbD_or, hbit]
      by_cases hk : j = k
      · subst hk
        simp [hj]
      · simp [hk]
  · rw [if_neg fun e => hj e.2, BitVec.getLsbD_of_ge w j (by omega), BitVec.getLsbD_of_ge _ j (by omega)]

/-- No two flags share a bit (R39). -/
theorem srPos_inj {f g : Flag} : Param.srPos f = Param.srPos g ↔ f = g := by cases f <;> cases g <;> decide

theorem srPos_lt (f : Flag) : Param.srPos f < 32 := by cases f <;> decide

@[simp] theorem State.reg_setFlag (f : Flag) (b : Bool) (q : RegIdx) :
    (s.setFlag f b).reg q = if q = SR then putBit (s.reg SR) (Param.srPos f) b else s.reg q := by
  unfold State.setFlag
  rw [State.reg_writeReg]
  by_cases hq : q = SR
  · subst hq
    rw [if_pos ⟨rfl, by decide⟩, if_pos rfl]
  · simp [hq]

/-- Writing one flag writes that flag alone (R15). -/
@[simp] theorem State.flag_setFlag (f g : Flag) (b : Bool) :
    (s.setFlag f b).flag g = if g = f then b else s.flag g := by
  simp only [State.flag, State.reg_setFlag, if_pos]
  rw [getLsbD_putBit]
  simp [srPos_inj, srPos_lt]

theorem State.flag_writeReg_of_ne {r : RegIdx} (h : r ≠ SR) (v : Word) (f : Flag) :
    (s.writeReg r v).flag f = s.flag f := by
  simp only [State.flag]
  rw [State.reg_writeReg_of_ne s (Ne.symm h)]

@[simp] theorem State.flag_jump (t : Word) (f : Flag) : (s.jump t).flag f = s.flag f :=
  State.flag_writeReg_of_ne s (by decide) _ f

theorem State.reg_jump (t : Word) (q : RegIdx) : (s.jump t).reg q = if q = PC then t - 4#32 else s.reg q := by
  unfold State.jump
  rw [State.reg_writeReg]
  by_cases hq : q = PC
  · subst hq
    rw [if_pos ⟨rfl, by decide⟩, if_pos rfl]
  · simp [hq]

/-! ### The other updates -/

@[simp] theorem State.setMem_reg (m : Memory) (q : RegIdx) : (s.setMem m).reg q = s.reg q := rfl
@[simp] theorem State.setMem_flag (m : Memory) (f : Flag) : (s.setMem m).flag f = s.flag f := rfl
@[simp] theorem State.setMem_mem (m : Memory) : (s.setMem m).mem = m := rfl
@[simp] theorem State.setMem_wdt (m : Memory) : (s.setMem m).wdt = s.wdt := rfl
@[simp] theorem State.setMem_pending (m : Memory) : (s.setMem m).pending = s.pending := rfl
@[simp] theorem State.setMem_halted (m : Memory) : (s.setMem m).halted = s.halted := rfl
@[simp] theorem State.setMem_fault (m : Memory) : (s.setMem m).fault = s.fault := rfl
@[simp] theorem State.setMem_fpu (m : Memory) : (s.setMem m).fpu = s.fpu := rfl
@[simp] theorem State.setMem_events (m : Memory) : (s.setMem m).events = s.events := rfl

@[simp] theorem State.setWdt_reg (v : Word) (q : RegIdx) : (s.setWdt v).reg q = s.reg q := rfl
@[simp] theorem State.setWdt_flag (v : Word) (f : Flag) : (s.setWdt v).flag f = s.flag f := rfl
@[simp] theorem State.setWdt_mem (v : Word) : (s.setWdt v).mem = s.mem := rfl
@[simp] theorem State.setWdt_wdt (v : Word) : (s.setWdt v).wdt = v := rfl
@[simp] theorem State.setWdt_pending (v : Word) : (s.setWdt v).pending = s.pending := rfl
@[simp] theorem State.setWdt_halted (v : Word) : (s.setWdt v).halted = s.halted := rfl
@[simp] theorem State.setWdt_fault (v : Word) : (s.setWdt v).fault = s.fault := rfl
@[simp] theorem State.setWdt_fpu (v : Word) : (s.setWdt v).fpu = s.fpu := rfl
@[simp] theorem State.setWdt_events (v : Word) : (s.setWdt v).events = s.events := rfl

@[simp] theorem State.setPending_reg (l : List PendingEntry) (q : RegIdx) : (s.setPending l).reg q = s.reg q := rfl
@[simp] theorem State.setPending_flag (l : List PendingEntry) (f : Flag) : (s.setPending l).flag f = s.flag f := rfl
@[simp] theorem State.setPending_mem (l : List PendingEntry) : (s.setPending l).mem = s.mem := rfl
@[simp] theorem State.setPending_wdt (l : List PendingEntry) : (s.setPending l).wdt = s.wdt := rfl
@[simp] theorem State.setPending_pending (l : List PendingEntry) : (s.setPending l).pending = l := rfl
@[simp] theorem State.setPending_halted (l : List PendingEntry) : (s.setPending l).halted = s.halted := rfl
@[simp] theorem State.setPending_fault (l : List PendingEntry) : (s.setPending l).fault = s.fault := rfl
@[simp] theorem State.setPending_fpu (l : List PendingEntry) : (s.setPending l).fpu = s.fpu := rfl
@[simp] theorem State.setPending_events (l : List PendingEntry) : (s.setPending l).events = s.events := rfl

@[simp] theorem State.setFpu_reg (p : FpuPort) (q : RegIdx) : (s.setFpu p).reg q = s.reg q := rfl
@[simp] theorem State.setFpu_flag (p : FpuPort) (f : Flag) : (s.setFpu p).flag f = s.flag f := rfl
@[simp] theorem State.setFpu_mem (p : FpuPort) : (s.setFpu p).mem = s.mem := rfl
@[simp] theorem State.setFpu_wdt (p : FpuPort) : (s.setFpu p).wdt = s.wdt := rfl
@[simp] theorem State.setFpu_pending (p : FpuPort) : (s.setFpu p).pending = s.pending := rfl
@[simp] theorem State.setFpu_halted (p : FpuPort) : (s.setFpu p).halted = s.halted := rfl
@[simp] theorem State.setFpu_fault (p : FpuPort) : (s.setFpu p).fault = s.fault := rfl
@[simp] theorem State.setFpu_fpu (p : FpuPort) : (s.setFpu p).fpu = p := rfl
@[simp] theorem State.setFpu_events (p : FpuPort) : (s.setFpu p).events = s.events := rfl

@[simp] theorem State.halt_reg (q : RegIdx) : (s.halt).reg q = s.reg q := rfl
@[simp] theorem State.halt_flag (f : Flag) : (s.halt).flag f = s.flag f := rfl
@[simp] theorem State.halt_mem : (s.halt).mem = s.mem := rfl
@[simp] theorem State.halt_wdt : (s.halt).wdt = s.wdt := rfl
@[simp] theorem State.halt_pending : (s.halt).pending = s.pending := rfl
@[simp] theorem State.halt_halted : (s.halt).halted = true := rfl
@[simp] theorem State.halt_fault : (s.halt).fault = s.fault := rfl
@[simp] theorem State.halt_fpu : (s.halt).fpu = s.fpu := rfl
@[simp] theorem State.halt_events : (s.halt).events = s.events := rfl

@[simp] theorem State.emit_reg (e : Event) (q : RegIdx) : (s.emit e).reg q = s.reg q := rfl
@[simp] theorem State.emit_flag (e : Event) (f : Flag) : (s.emit e).flag f = s.flag f := rfl
@[simp] theorem State.emit_mem (e : Event) : (s.emit e).mem = s.mem := rfl
@[simp] theorem State.emit_wdt (e : Event) : (s.emit e).wdt = s.wdt := rfl
@[simp] theorem State.emit_pending (e : Event) : (s.emit e).pending = s.pending := rfl
@[simp] theorem State.emit_halted (e : Event) : (s.emit e).halted = s.halted := rfl
@[simp] theorem State.emit_fault (e : Event) : (s.emit e).fault = s.fault := rfl
@[simp] theorem State.emit_fpu (e : Event) : (s.emit e).fpu = s.fpu := rfl
@[simp] theorem State.emit_events (e : Event) : (s.emit e).events = e :: s.events := rfl

/-! ### The flag computations change SR alone -/

theorem addFlags_reg_of_ne (a b : Word) {k : RegIdx} (h : k ≠ SR) : (addFlags a b s).reg k = s.reg k := by
  simp [addFlags, h]
@[simp] theorem addFlags_mem (a b : Word) : (addFlags a b s).mem = s.mem := by
  simp [addFlags]
@[simp] theorem addFlags_wdt (a b : Word) : (addFlags a b s).wdt = s.wdt := by
  simp [addFlags]
@[simp] theorem addFlags_pending (a b : Word) : (addFlags a b s).pending = s.pending := by
  simp [addFlags]
@[simp] theorem addFlags_halted (a b : Word) : (addFlags a b s).halted = s.halted := by
  simp [addFlags]
@[simp] theorem addFlags_fault (a b : Word) : (addFlags a b s).fault = s.fault := by
  simp [addFlags]
@[simp] theorem addFlags_fpu (a b : Word) : (addFlags a b s).fpu = s.fpu := by
  simp [addFlags]
@[simp] theorem addFlags_events (a b : Word) : (addFlags a b s).events = s.events := by
  simp [addFlags]

theorem subFlags_reg_of_ne (a b : Word) {k : RegIdx} (h : k ≠ SR) : (subFlags a b s).reg k = s.reg k := by
  simp [subFlags, h]
@[simp] theorem subFlags_mem (a b : Word) : (subFlags a b s).mem = s.mem := by
  simp [subFlags]
@[simp] theorem subFlags_wdt (a b : Word) : (subFlags a b s).wdt = s.wdt := by
  simp [subFlags]
@[simp] theorem subFlags_pending (a b : Word) : (subFlags a b s).pending = s.pending := by
  simp [subFlags]
@[simp] theorem subFlags_halted (a b : Word) : (subFlags a b s).halted = s.halted := by
  simp [subFlags]
@[simp] theorem subFlags_fault (a b : Word) : (subFlags a b s).fault = s.fault := by
  simp [subFlags]
@[simp] theorem subFlags_fpu (a b : Word) : (subFlags a b s).fpu = s.fpu := by
  simp [subFlags]
@[simp] theorem subFlags_events (a b : Word) : (subFlags a b s).events = s.events := by
  simp [subFlags]

theorem logicFlags_reg_of_ne (r : Word) {k : RegIdx} (h : k ≠ SR) : (logicFlags r s).reg k = s.reg k := by
  simp [logicFlags, h]
@[simp] theorem logicFlags_mem (r : Word) : (logicFlags r s).mem = s.mem := by
  simp [logicFlags]
@[simp] theorem logicFlags_wdt (r : Word) : (logicFlags r s).wdt = s.wdt := by
  simp [logicFlags]
@[simp] theorem logicFlags_pending (r : Word) : (logicFlags r s).pending = s.pending := by
  simp [logicFlags]
@[simp] theorem logicFlags_halted (r : Word) : (logicFlags r s).halted = s.halted := by
  simp [logicFlags]
@[simp] theorem logicFlags_fault (r : Word) : (logicFlags r s).fault = s.fault := by
  simp [logicFlags]
@[simp] theorem logicFlags_fpu (r : Word) : (logicFlags r s).fpu = s.fpu := by
  simp [logicFlags]
@[simp] theorem logicFlags_events (r : Word) : (logicFlags r s).events = s.events := by
  simp [logicFlags]

theorem wideUnsignedFlags_reg_of_ne (r : BitVec 64) {k : RegIdx} (h : k ≠ SR) : (wideUnsignedFlags r s).reg k = s.reg k := by
  simp [wideUnsignedFlags, h]
@[simp] theorem wideUnsignedFlags_mem (r : BitVec 64) : (wideUnsignedFlags r s).mem = s.mem := by
  simp [wideUnsignedFlags]
@[simp] theorem wideUnsignedFlags_wdt (r : BitVec 64) : (wideUnsignedFlags r s).wdt = s.wdt := by
  simp [wideUnsignedFlags]
@[simp] theorem wideUnsignedFlags_pending (r : BitVec 64) : (wideUnsignedFlags r s).pending = s.pending := by
  simp [wideUnsignedFlags]
@[simp] theorem wideUnsignedFlags_halted (r : BitVec 64) : (wideUnsignedFlags r s).halted = s.halted := by
  simp [wideUnsignedFlags]
@[simp] theorem wideUnsignedFlags_fault (r : BitVec 64) : (wideUnsignedFlags r s).fault = s.fault := by
  simp [wideUnsignedFlags]
@[simp] theorem wideUnsignedFlags_fpu (r : BitVec 64) : (wideUnsignedFlags r s).fpu = s.fpu := by
  simp [wideUnsignedFlags]
@[simp] theorem wideUnsignedFlags_events (r : BitVec 64) : (wideUnsignedFlags r s).events = s.events := by
  simp [wideUnsignedFlags]

theorem wideSignedFlags_reg_of_ne (r : BitVec 64) {k : RegIdx} (h : k ≠ SR) : (wideSignedFlags r s).reg k = s.reg k := by
  simp [wideSignedFlags, h]
@[simp] theorem wideSignedFlags_mem (r : BitVec 64) : (wideSignedFlags r s).mem = s.mem := by
  simp [wideSignedFlags]
@[simp] theorem wideSignedFlags_wdt (r : BitVec 64) : (wideSignedFlags r s).wdt = s.wdt := by
  simp [wideSignedFlags]
@[simp] theorem wideSignedFlags_pending (r : BitVec 64) : (wideSignedFlags r s).pending = s.pending := by
  simp [wideSignedFlags]
@[simp] theorem wideSignedFlags_halted (r : BitVec 64) : (wideSignedFlags r s).halted = s.halted := by
  simp [wideSignedFlags]
@[simp] theorem wideSignedFlags_fault (r : BitVec 64) : (wideSignedFlags r s).fault = s.fault := by
  simp [wideSignedFlags]
@[simp] theorem wideSignedFlags_fpu (r : BitVec 64) : (wideSignedFlags r s).fpu = s.fpu := by
  simp [wideSignedFlags]
@[simp] theorem wideSignedFlags_events (r : BitVec 64) : (wideSignedFlags r s).events = s.events := by
  simp [wideSignedFlags]

theorem mulImmFlags_reg_of_ne (r : BitVec 64) {k : RegIdx} (h : k ≠ SR) : (mulImmFlags r s).reg k = s.reg k := by
  simp [mulImmFlags, h]
@[simp] theorem mulImmFlags_mem (r : BitVec 64) : (mulImmFlags r s).mem = s.mem := by
  simp [mulImmFlags]
@[simp] theorem mulImmFlags_wdt (r : BitVec 64) : (mulImmFlags r s).wdt = s.wdt := by
  simp [mulImmFlags]
@[simp] theorem mulImmFlags_pending (r : BitVec 64) : (mulImmFlags r s).pending = s.pending := by
  simp [mulImmFlags]
@[simp] theorem mulImmFlags_halted (r : BitVec 64) : (mulImmFlags r s).halted = s.halted := by
  simp [mulImmFlags]
@[simp] theorem mulImmFlags_fault (r : BitVec 64) : (mulImmFlags r s).fault = s.fault := by
  simp [mulImmFlags]
@[simp] theorem mulImmFlags_fpu (r : BitVec 64) : (mulImmFlags r s).fpu = s.fpu := by
  simp [mulImmFlags]
@[simp] theorem mulImmFlags_events (r : BitVec 64) : (mulImmFlags r s).events = s.events := by
  simp [mulImmFlags]

theorem signedDivFlags_reg_of_ne (a b r : Word) {k : RegIdx} (h : k ≠ SR) : (signedDivFlags a b r s).reg k = s.reg k := by
  simp [signedDivFlags, h]
@[simp] theorem signedDivFlags_mem (a b r : Word) : (signedDivFlags a b r s).mem = s.mem := by
  simp [signedDivFlags]
@[simp] theorem signedDivFlags_wdt (a b r : Word) : (signedDivFlags a b r s).wdt = s.wdt := by
  simp [signedDivFlags]
@[simp] theorem signedDivFlags_pending (a b r : Word) : (signedDivFlags a b r s).pending = s.pending := by
  simp [signedDivFlags]
@[simp] theorem signedDivFlags_halted (a b r : Word) : (signedDivFlags a b r s).halted = s.halted := by
  simp [signedDivFlags]
@[simp] theorem signedDivFlags_fault (a b r : Word) : (signedDivFlags a b r s).fault = s.fault := by
  simp [signedDivFlags]
@[simp] theorem signedDivFlags_fpu (a b r : Word) : (signedDivFlags a b r s).fpu = s.fpu := by
  simp [signedDivFlags]
@[simp] theorem signedDivFlags_events (a b r : Word) : (signedDivFlags a b r s).events = s.events := by
  simp [signedDivFlags]

theorem unsignedDivFlags_reg_of_ne (q m : Word) {k : RegIdx} (h : k ≠ SR) : (unsignedDivFlags q m s).reg k = s.reg k := by
  simp [unsignedDivFlags, h]
@[simp] theorem unsignedDivFlags_mem (q m : Word) : (unsignedDivFlags q m s).mem = s.mem := by
  simp [unsignedDivFlags]
@[simp] theorem unsignedDivFlags_wdt (q m : Word) : (unsignedDivFlags q m s).wdt = s.wdt := by
  simp [unsignedDivFlags]
@[simp] theorem unsignedDivFlags_pending (q m : Word) : (unsignedDivFlags q m s).pending = s.pending := by
  simp [unsignedDivFlags]
@[simp] theorem unsignedDivFlags_halted (q m : Word) : (unsignedDivFlags q m s).halted = s.halted := by
  simp [unsignedDivFlags]
@[simp] theorem unsignedDivFlags_fault (q m : Word) : (unsignedDivFlags q m s).fault = s.fault := by
  simp [unsignedDivFlags]
@[simp] theorem unsignedDivFlags_fpu (q m : Word) : (unsignedDivFlags q m s).fpu = s.fpu := by
  simp [unsignedDivFlags]
@[simp] theorem unsignedDivFlags_events (q m : Word) : (unsignedDivFlags q m s).events = s.events := by
  simp [unsignedDivFlags]

end Sys2Proof.Machine
end

