-- ==== Sys2Proof/Laws/Ops.lean ====
section
/-! SUPPORT. One lemma for each shared operation that says everything it can do when it answers a state. -/

namespace Sys2Proof.Machine

/-- A computation in two parts succeeds exactly when both do. -/
theorem bind_eq_ok {α β : Type} {x : Except Fault α} {f : α → Except Fault β} {b : β} :
    (x >>= f) = .ok b ↔ ∃ a, x = .ok a ∧ f a = .ok b := by
  cases x with
  | error e => exact ⟨fun h => (nomatch h), fun ⟨_, h, _⟩ => (nomatch h)⟩
  | ok a => exact ⟨fun h => ⟨a, rfl, h⟩, fun ⟨_, h, h'⟩ => by cases h; exact h'⟩

theorem finish_eq_next {r : Except Fault State} {t : State} : finish r = .next t ↔ r = .ok t := by
  cases r with
  | error e => exact ⟨fun h => (nomatch h), fun h => (nomatch h)⟩
  | ok a => exact ⟨fun h => by cases h; rfl, fun h => by cases h; rfl⟩

/-- No device word lies in backing memory: an address below MEM_BYTES is backing memory's (R74). -/
theorem deviceAt_of_lt {a : Word} (h : a.toNat < Param.memBytes) : deviceAt a = none := by
  have hle : (wordAddress a).toNat ≤ a.toNat := by
    rw [wordAddress, BitVec.toNat_and]
    exact Nat.and_le_left
  have hb : (wordAddress a).toNat < 32768 := Nat.lt_of_le_of_lt hle h
  have hne : ∀ d : Word, 32768 ≤ d.toNat → wordAddress a ≠ d := fun d hd e => by
    rw [e] at hb
    omega
  unfold deviceAt
  rw [if_neg (hne _ (by decide)), if_neg (hne _ (by decide)), if_neg (hne _ (by decide)), if_neg (hne _ (by decide)),
    if_neg (hne _ (by decide)), if_neg (hne _ (by decide))]

/-- A load from backing memory answers its value and changes nothing (R72, R87). -/
theorem memRead_backing {a : Word} (h : a.toNat < Param.memBytes) (n : Width) (s : State) :
    memRead a n s = .ok (backingRead s.mem a n, s) := by
  rw [memRead, deviceAt_of_lt h]
  exact if_pos h

/-- A store to backing memory changes memory alone (R72). -/
theorem memWrite_backing {a : Word} (h : a.toNat < Param.memBytes) (n : Width) (v : Word) (s : State) :
    memWrite a n v s = .ok (s.setMem (backingWrite s.mem a v n)) := by
  rw [memWrite, deviceAt_of_lt h]
  exact if_pos h

/-- Everything a load can do: backing memory, the watchdog word, or an FPU word (R72, R80). -/
theorem memRead_cases {a : Word} {n : Width} {s t : State} {v : Word} (h : memRead a n s = .ok (v, t)) :
    (a.toNat < Param.memBytes ∧ v = backingRead s.mem a n ∧ t = s) ∨
    (n = .word ∧ a = Param.addrWdt ∧ v = s.wdt ∧ t = s) ∨
    (∃ r, n = .word ∧ a = Param.addrFpu r ∧ (v, t) = fpuRead r s) := by
  unfold memRead at h
  split at h
  · rename_i d _
    cases d with
    | wdt =>
      simp only [deviceRead] at h
      split at h
      · rename_i hc
        cases h
        exact .inr (.inl ⟨hc.1, hc.2, rfl, rfl⟩)
      · cases h
    | fpu r =>
      simp only [deviceRead] at h
      split at h
      · rename_i hc
        cases h
        exact .inr (.inr ⟨r, hc.1, hc.2, rfl⟩)
      · cases h
    | term => cases h
  · split at h
    · rename_i hlt
      cases h
      exact .inl ⟨hlt, rfl, rfl⟩
    · cases h

/-- Everything a store can do: backing memory, the watchdog, an FPU word, or the terminal (R72, R80). -/
theorem memWrite_cases {a : Word} {n : Width} {v : Word} {s t : State} (h : memWrite a n v s = .ok t) :
    (a.toNat < Param.memBytes ∧ t = s.setMem (backingWrite s.mem a v n)) ∨
    (n = .word ∧ a = Param.addrWdt ∧ t = s.setWdt v) ∨
    (∃ r, n = .word ∧ a = Param.addrFpu r ∧ t = fpuWrite r v s) ∨
    (n = .byte ∧ a = Param.addrTerm ∧ t = s.emit (.termByte (v.extractLsb' 0 8))) := by
  unfold memWrite at h
  split at h
  · rename_i d _
    cases d with
    | wdt =>
      simp only [deviceWrite] at h
      split at h
      · rename_i hc
        cases h
        exact .inr (.inl ⟨hc.1, hc.2, rfl⟩)
      · cases h
    | fpu r =>
      simp only [deviceWrite] at h
      split at h
      · rename_i hc
        cases h
        exact .inr (.inr (.inl ⟨r, hc.1, hc.2, rfl⟩))
      · cases h
    | term =>
      simp only [deviceWrite] at h
      split at h
      · rename_i hc
        cases h
        exact .inr (.inr (.inr ⟨hc.1, hc.2, rfl⟩))
      · cases h
  · split at h
    · rename_i hlt
      cases h
      exact .inl ⟨hlt, rfl⟩
    · cases h

/-- A store to backing memory keeps the canonical form. -/
theorem backingWrite_wf {m : Memory} (h : m.wf) {a : Word} (ha : a.toNat < Param.memBytes) (v : Word) (n : Width) :
    (backingWrite m a v n).wf := by
  cases n with
  | byte => exact Memory.wf_storeByte h ha v
  | half => exact Memory.wf_storeHalf h ha v
  | word => exact Memory.wf_storeWord h ha v

/-- Every store keeps the canonical form. -/
theorem memWrite_wf {a : Word} {n : Width} {v : Word} {s t : State} (hm : s.mem.wf) (h : memWrite a n v s = .ok t) :
    t.mem.wf := by
  rcases memWrite_cases h with ⟨ha, rfl⟩ | ⟨_, _, rfl⟩ | ⟨_, _, _, rfl⟩ | ⟨_, _, rfl⟩
  · exact backingWrite_wf hm ha v n
  · exact hm
  · exact hm
  · exact hm

/-- No store writes a register. -/
theorem memWrite_reg {a : Word} {n : Width} {v : Word} {s t : State} (h : memWrite a n v s = .ok t) (q : RegIdx) :
    t.reg q = s.reg q := by
  rcases memWrite_cases h with ⟨_, rfl⟩ | ⟨_, _, rfl⟩ | ⟨_, _, _, rfl⟩ | ⟨_, _, rfl⟩ <;> rfl

/-- No load writes a register. -/
theorem memRead_reg {a : Word} {n : Width} {v : Word} {s t : State} (h : memRead a n s = .ok (v, t)) (q : RegIdx) :
    t.reg q = s.reg q := by
  rcases memRead_cases h with ⟨_, _, rfl⟩ | ⟨_, _, _, rfl⟩ | ⟨_, _, _, e⟩
  · rfl
  · rfl
  · rw [(Prod.mk.inj e).2]
    rfl

/-- `deviceAt` finds a device exactly at the words of R74. -/
theorem deviceAt_isSome_iff (a : Word) : (deviceAt a).isSome = true ↔ IsDeviceWord a := by
  change (Option.isSome (if a &&& 0xfffffffc#32 = 0x80808080#32 then _ else
    if a &&& 0xfffffffc#32 = 0x80808880#32 then _ else if a &&& 0xfffffffc#32 = 0x80808884#32 then _ else
    if a &&& 0xfffffffc#32 = 0x80808888#32 then _ else if a &&& 0xfffffffc#32 = 0x8080888c#32 then _ else
    if a &&& 0xfffffffc#32 = 0x80808890#32 then _ else none)) = true ↔ _
  unfold IsDeviceWord
  simp only [List.mem_cons, List.not_mem_nil, or_false]
  repeat' split
  all_goals simp_all

/-- A push onto backing memory (R84). -/
theorem push_backing {v : Word} {s : State} (h : InBacking (s.reg SP)) :
    push v s = .ok ((s.setMem (s.mem.storeWord (s.reg SP).toNat v)).writeReg SP (s.reg SP - 4#32)) := by
  rw [push, deviceAt_of_lt h, memWrite_backing h]
  rfl

/-- A push outside backing memory, a device word included, is a model fault (46_stack.md R261). -/
theorem push_fault {v : Word} {s : State} (h : ¬InBacking (s.reg SP)) : push v s = .error (stackFault (s.reg SP)) := by
  unfold push stackFault
  by_cases hd : IsDeviceWord (s.reg SP)
  · rw [if_pos ((deviceAt_isSome_iff _).2 hd), if_pos hd]
  · have hn : ¬(deviceAt (s.reg SP)).isSome = true := fun e => hd ((deviceAt_isSome_iff _).1 e)
    rw [if_neg hn, if_neg hd, memWrite, Option.not_isSome_iff_eq_none.1 hn]
    simp only [if_neg h]
    rfl

/-- A push that succeeds stored to backing memory and lowered SP, and did nothing else (R84). -/
theorem push_eq_ok {v : Word} {s u : State} :
    push v s = .ok u ↔ InBacking (s.reg SP) ∧
      u = (s.setMem (s.mem.storeWord (s.reg SP).toNat v)).writeReg SP (s.reg SP - 4#32) := by
  by_cases h : InBacking (s.reg SP)
  · rw [push_backing h]
    exact ⟨fun e => by cases e; exact ⟨h, rfl⟩, fun e => by rw [e.2]⟩
  · rw [push_fault h]
    exact ⟨fun e => (nomatch e), fun e => absurd e.1 h⟩

/-- The registers after a push: SP alone is lowered by 4 (R84). -/
theorem push_reg {v : Word} {s u : State} (h : push v s = .ok u) (q : RegIdx) :
    u.reg q = if q = SP then s.reg SP - 4#32 else s.reg q := by
  obtain ⟨-, rfl⟩ := push_eq_ok.1 h
  by_cases hq : q = SP
  · subst hq
    rw [State.reg_writeReg_self _ (by decide), if_pos rfl]
  · rw [State.reg_writeReg_of_ne _ hq, if_neg hq, State.setMem_reg]

theorem push_wf {v : Word} {s u : State} (hm : s.mem.wf) (h : push v s = .ok u) : u.mem.wf := by
  obtain ⟨hb, rfl⟩ := push_eq_ok.1 h
  simpa using Memory.wf_storeWord hm hb v

/-- A pop from backing memory (R85). -/
theorem pop_backing {s : State} (h : InBacking (s.reg SP + 4#32)) :
    pop s = .ok (s.mem.loadWord (s.reg SP + 4#32).toNat, s.writeReg SP (s.reg SP + 4#32)) := by
  rw [pop, deviceAt_of_lt h, memRead_backing h, backingRead, State.writeReg_mem]
  rfl

/-- A pop from outside backing memory, a device word included, is a model fault (46_stack.md R262). -/
theorem pop_fault {s : State} (h : ¬InBacking (s.reg SP + 4#32)) : pop s = .error (stackFault (s.reg SP + 4#32)) := by
  unfold pop stackFault
  by_cases hd : IsDeviceWord (s.reg SP + 4#32)
  · rw [if_pos ((deviceAt_isSome_iff _).2 hd), if_pos hd]
  · have hn : ¬(deviceAt (s.reg SP + 4#32)).isSome = true := fun e => hd ((deviceAt_isSome_iff _).1 e)
    rw [if_neg hn, if_neg hd, memRead, Option.not_isSome_iff_eq_none.1 hn]
    simp only [if_neg h]

/-- A pop that succeeds loaded from backing memory and raised SP, and did nothing else (R85). -/
theorem pop_eq_ok {v : Word} {s t : State} :
    pop s = .ok (v, t) ↔ InBacking (s.reg SP + 4#32) ∧
      v = s.mem.loadWord (s.reg SP + 4#32).toNat ∧ t = s.writeReg SP (s.reg SP + 4#32) := by
  by_cases h : InBacking (s.reg SP + 4#32)
  · rw [pop_backing h]
    exact ⟨fun e => by cases e; exact ⟨h, rfl, rfl⟩, fun e => by rw [e.2.1, e.2.2]⟩
  · rw [pop_fault h]
    exact ⟨fun e => (nomatch e), fun e => absurd e.1 h⟩

/-- The registers after a pop: SP alone is raised by 4 (R85). -/
theorem pop_reg {v : Word} {s t : State} (h : pop s = .ok (v, t)) (q : RegIdx) :
    t.reg q = if q = SP then s.reg SP + 4#32 else s.reg q := by
  obtain ⟨-, -, rfl⟩ := pop_eq_ok.1 h
  by_cases hq : q = SP
  · subst hq
    rw [State.reg_writeReg_self _ (by decide), if_pos rfl]
  · rw [State.reg_writeReg_of_ne _ hq, if_neg hq]

/-- The entry protocol: three pushes of the return address, CR and IPC as they were, then CR, IPC and the PC (R322). -/
theorem enter_eq_ok {cause vector ipcval : Word} {s u : State} :
    enter cause vector ipcval s = .ok u ↔
      ∃ s1 s2 s3, push (returnAddress s) s = .ok s1 ∧ push (s.reg CR) s1 = .ok s2 ∧ push (s.reg IPC) s2 = .ok s3 ∧
        u = ((s3.writeReg CR cause).writeReg IPC ipcval).jump vector := by
  unfold enter
  simp only [bind_eq_ok]
  constructor
  · rintro ⟨s1, h1, s2, h2, s3, h3, h⟩
    have hcr : s1.reg CR = s.reg CR := by rw [push_reg h1, if_neg (by decide)]
    have hipc : s2.reg IPC = s.reg IPC := by rw [push_reg h2, if_neg (by decide), push_reg h1, if_neg (by decide)]
    rw [hcr] at h2
    rw [hipc] at h3
    cases h
    exact ⟨s1, s2, s3, h1, h2, h3, rfl⟩
  · rintro ⟨s1, s2, s3, h1, h2, h3, rfl⟩
    have hcr : s1.reg CR = s.reg CR := by rw [push_reg h1, if_neg (by decide)]
    have hipc : s2.reg IPC = s.reg IPC := by rw [push_reg h2, if_neg (by decide), push_reg h1, if_neg (by decide)]
    exact ⟨s1, h1, s2, by rw [hcr]; exact h2, s3, by rw [hipc]; exact h3, rfl⟩

theorem insertPending_nil (e : PendingEntry) : insertPending e [] = [e] := rfl

/-- The insertion of R340 entry by entry: behind the head as long as some entry from it on has a number not above the new
one's. -/
theorem insertPending_cons (e d : PendingEntry) (ds : List PendingEntry) :
    insertPending e (d :: ds) =
      if (d :: ds).any (fun f => decide (Param.prioNumber f.prio ≤ Param.prioNumber e.prio)) then d :: insertPending e ds
      else e :: d :: ds := by
  have hany : (((d :: ds).map (·.prio)).any fun r => !Param.config.precedes e.prio r) =
      (d :: ds).any fun f => decide (Param.prioNumber f.prio ≤ Param.prioNumber e.prio) := by
    rw [List.any_map]
    congr 1
    funext f
    change (!decide (Param.prioNumber e.prio < Param.prioNumber f.prio)) = decide (Param.prioNumber f.prio ≤ Param.prioNumber e.prio)
    rw [← decide_not]
    simp only [Nat.not_lt]
  rw [← hany]
  change insertAt e (Param.afterLastNotPreceded Param.config.precedes e.prio (d.prio :: ds.map (·.prio))) (d :: ds) = _
  unfold Param.afterLastNotPreceded
  simp only [List.map_cons]
  split <;> rfl

/-- The FPU tick calls FPU_MODEL's tick and schedules what it answered (R364). -/
theorem fpuTick_eq (s : State) :
    fpuTick s = serveFpu (Param.fpuModel.tick s.fpu).1 (s.setFpu (Param.fpuModel.tick s.fpu).2) := rfl

@[simp] theorem serveFpu_none (s : State) : serveFpu none s = .ok s := rfl
@[simp] theorem serveFpu_some (q : FpuRequest) (s : State) :
    serveFpu (some q) s = schedule q.prio q.cause (s.reg PC) s := rfl

/-- Everything a request can do: immediate entry while IE = 1, an insertion while IE = 0 (R340). -/
theorem schedule_cases {p : Nat} {cause saved : Word} {s t : State} (h : schedule p cause saved s = .ok t) :
    ∃ q, Param.prioOfNumber p = some q ∧
      ((s.flag .ie = true ∧ hwEnter q cause saved s = .ok t) ∨
       (s.flag .ie = false ∧ t = s.setPending (insertPending ⟨q, cause, saved⟩ (evictPending q cause s.pending)))) := by
  unfold schedule at h
  split at h
  · cases h
  · rename_i q hq
    refine ⟨q, hq, ?_⟩
    split at h
    · rename_i hie
      exact .inl ⟨hie, h⟩
    · rename_i hie
      cases h
      exact .inr ⟨by simpa using hie, rfl⟩

/-- Everything the drain can do: nothing, or entry of the head with the list shortened by it (R345). -/
theorem drain_cases {s t : State} (h : drain s = .ok t) :
    (t = s ∧ (s.pending = [] ∨ s.flag .ie = false)) ∨
    (∃ e rest, s.pending = e :: rest ∧ s.flag .ie = true ∧
      hwEnter e.prio e.cause e.savedPC (s.setPending rest) = .ok t) := by
  unfold drain at h
  split at h
  · rename_i hp
    cases h
    exact .inl ⟨rfl, .inl hp⟩
  · rename_i e rest hp
    split at h
    · rename_i hie
      exact .inr ⟨e, rest, hp, hie, h⟩
    · rename_i hie
      cases h
      exact .inl ⟨rfl, .inr (by simpa using hie)⟩

/-- Everything the watchdog tick can do (R359). -/
theorem wdtTick_cases {s t : State} (h : wdtTick s = .ok t) :
    (wdtEnabled s.wdt = false ∧ t = s) ∨
    (wdtEnabled s.wdt = true ∧ wdtCount s.wdt ≠ 0#31 ∧ t = s.setWdt (1#1 ++ (wdtCount s.wdt - 1#31))) ∨
    (wdtEnabled s.wdt = true ∧ wdtCount s.wdt = 0#31 ∧
      ∃ u, schedule Param.prioWdt Param.causeWdt (s.reg PC) s = .ok u ∧ t = u.setWdt (putBit u.wdt 31 false)) := by
  unfold wdtTick at h
  split at h
  · rename_i hen
    split at h
    · rename_i h0
      obtain ⟨u, hu, h⟩ := bind_eq_ok.1 h
      cases h
      exact .inr (.inr ⟨hen, h0, u, hu, rfl⟩)
    · rename_i h0
      cases h
      exact .inr (.inl ⟨hen, h0, rfl⟩)
  · rename_i hen
    cases h
    exact .inl ⟨by simpa using hen, rfl⟩

end Sys2Proof.Machine
end

