-- ==== Sys2Proof/Laws/Cycle.lean ====
section
/-! SUPPORT. Everything a fetch and a step can do. -/

namespace Sys2Proof.Machine

/-- A fetch that succeeds read backing memory, wrote IR and emitted `Exec` (R141). -/
theorem fetch_eq_ok {s t : State} {w : Word} :
    fetch s = .ok (w, t) ↔ (s.reg PC).toNat < Param.memBytes ∧ w = s.mem.loadWord (s.reg PC).toNat ∧
      t = (s.writeReg IR w).emit (.exec (s.reg PC) w) := by
  unfold fetch
  by_cases h : (s.reg PC).toNat < Param.memBytes
  · simp only [deviceAt_of_lt h, h, if_true, true_and]
    constructor
    · intro e
      cases e
      exact ⟨rfl, rfl⟩
    · rintro ⟨rfl, rfl⟩
      rfl
  · constructor
    · intro e
      dsimp only at e
      split at e
      · cases e
      · rw [if_neg h] at e
        cases e
    · exact fun e => absurd e.1 h

/-- Phases 5 to 8 in order (R140). -/
theorem afterExecute_eq_ok {s t : State} :
    afterExecute s = .ok t ↔ ∃ s1 s2 s3, drain s = .ok s1 ∧ wdtTick s1 = .ok s2 ∧ fpuTick s2 = .ok s3 ∧ t = advance s3 := by
  unfold afterExecute
  simp only [bind_eq_ok]
  constructor
  · rintro ⟨s1, h1, s2, h2, s3, h3, h⟩
    cases h
    exact ⟨s1, s2, s3, h1, h2, h3, rfl⟩
  · rintro ⟨s1, s2, s3, h1, h2, h3, rfl⟩
    exact ⟨s1, h1, s2, h2, s3, h3, rfl⟩

/-- A cycle that executed to `u` ends there if `u` halted, and else after phases 5 to 8 (R140, R149). -/
theorem endCycle_eq_next {o : Host.Outcome State Fault Refusal} {t : State} :
    endCycle o = .next t ↔ ∃ u, o = .next u ∧
      ((u.halted = true ∧ t = u) ∨ (u.halted = false ∧ afterExecute u = .ok t)) := by
  cases o with
  | fault f => exact ⟨fun h => (nomatch h), fun ⟨_, h, _⟩ => (nomatch h)⟩
  | refused r => exact ⟨fun h => (nomatch h), fun ⟨_, h, _⟩ => (nomatch h)⟩
  | next u =>
    simp only [endCycle]
    by_cases hu : u.halted = true
    · rw [if_pos hu]
      constructor
      · intro h
        cases h
        exact ⟨_, rfl, .inl ⟨hu, rfl⟩⟩
      · rintro ⟨v, hv, h | h⟩
        · cases hv
          rw [h.2]
        · cases hv
          exact absurd (hu.symm.trans h.1) (by decide)
    · rw [if_neg hu, finish_eq_next]
      constructor
      · exact fun h => ⟨u, rfl, .inr ⟨by simpa using hu, h⟩⟩
      · rintro ⟨v, hv, h | h⟩
        · cases hv
          exact absurd h.1 hu
        · cases hv
          exact h.2

/-- Everything a step can do: a halted state stands; otherwise a fetch, an execution, and the end of the cycle (R140). -/
theorem step_cases {s t : State} (h : step s = .next t) :
    s.fault = none ∧
    ((s.halted = true ∧ t = s) ∨
     (s.halted = false ∧ ∃ w s1 u, fetch s = .ok (w, s1) ∧ execute w s1 = .next u ∧
       ((u.halted = true ∧ t = u) ∨ (u.halted = false ∧ afterExecute u = .ok t)))) := by
  unfold step at h
  split at h
  · cases h
  · rename_i hf
    refine ⟨hf, ?_⟩
    split at h
    · rename_i hh
      cases h
      exact .inl ⟨hh, rfl⟩
    · rename_i hh
      refine .inr ⟨by simpa using hh, ?_⟩
      unfold cycle at h
      split at h
      · rename_i w s1 hfetch
        obtain ⟨u, hu, hc⟩ := endCycle_eq_next.1 h
        exact ⟨w, s1, u, hfetch, hu, hc⟩
      · cases h

/-- Everything an execution can do: an instruction of the table, or the invalid-instruction trap (R144, R145). -/
theorem execute_cases {w : Word} {s u : State} (h : execute w s = .next u) :
    (∃ i, decode w = .ok i ∧ exec i s = .next u) ∨ (∃ e, decode w = .error e ∧ invalidTrap w s = .ok u) := by
  unfold execute at h
  split at h
  · rename_i i hi
    exact .inl ⟨i, hi, h⟩
  · rename_i e he
    exact .inr ⟨e, he, finish_eq_next.1 h⟩

end Sys2Proof.Machine
end

