-- ==== Sys2Proof/Laws/Decode.lean ====
section
/-! SUPPORT. Small lemmas of the encoding: each field of a packed word, the bytes of a word, active lists. -/

namespace Sys2Proof.Laws

/-! The fields of a word and the words of the formats at the default places (R111 to R114): a field inside L is a field of the
word, and a word is its fields side by side. -/

theorem fieldZ_eq (w : Word) : fieldZ w = w.extractLsb' 21 5 := rfl
theorem fieldX_eq (w : Word) : fieldX w = w.extractLsb' 16 5 := rfl
theorem fieldY_eq (w : Word) : fieldY w = w.extractLsb' 11 5 := rfl
theorem fieldImm21_eq (w : Word) : fieldImm21 w = w.extractLsb' 0 21 := rfl
theorem fieldZF_eq (w : Word) : fieldZF w = w.extractLsb' 21 5 := rfl
theorem fieldXF_eq (w : Word) : fieldXF w = w.extractLsb' 16 5 := rfl
theorem fieldImm16_eq (w : Word) : fieldImm16 w = w.extractLsb' 0 16 := rfl
theorem fieldImm26_eq (w : Word) : fieldImm26 w = w.extractLsb' 0 26 := rfl

/-- A field of L as a field of the word. -/
theorem extractL (w : Word) {k n : Nat} (h : k + n ≤ 11) : (fieldL w).extractLsb' k n = w.extractLsb' k n := by
  apply BitVec.eq_of_getLsbD_eq
  intro j hj
  change ((w.extractLsb' 0 11).extractLsb' k n).getLsbD j = _
  simp only [BitVec.getLsbD_extractLsb', hj, decide_true, Bool.true_and, Nat.zero_add]
  rw [decide_eq_true (by omega), Bool.true_and]

theorem fieldSub_eq (w : Word) : fieldSub w = w.extractLsb' 8 3 := extractL w (by decide)
theorem fieldI_eq (w : Word) : fieldI w = w.extractLsb' 0 5 := extractL w (by decide)
theorem fieldV_eq (w : Word) : fieldV w = w.extractLsb' 6 5 := extractL w (by decide)
theorem fieldW_eq (w : Word) : fieldW w = w.extractLsb' 0 5 := extractL w (by decide)
theorem fieldB_eq (w : Word) : fieldB w = w.extractLsb' 0 1 := extractL w (by decide)

/-- Two fields placed side by side are their concatenation placed. -/
theorem or_place_append {m n : Nat} (k : Nat) (h : BitVec m) (v : BitVec n) (hk : n ≤ k) :
    place h k ||| place v (k - n) = place (h ++ v) (k - n) := by
  apply BitVec.eq_of_getLsbD_eq
  intro j hj
  simp only [place, BitVec.getLsbD_or, BitVec.getLsbD_shiftLeft, BitVec.getLsbD_setWidth, BitVec.getLsbD_append, hj,
    decide_true, Bool.true_and]
  by_cases h1 : j < k - n
  · have : j < k := by omega
    simp [h1, this]
  · by_cases h2 : j < k
    · have h3 : j - (k - n) < n := by omega
      have h4 : j - (k - n) < 32 := by omega
      simp [h1, h2, h3, h4]
    · have h3 : ¬ j - (k - n) < n := by omega
      have h4 : j - (k - n) < 32 := by omega
      have h5 : j - k < 32 := by omega
      have h6 : j - (k - n) - n = j - k := by omega
      have h7 : n ≤ j - (k - n) := by omega
      simp [h1, h2, h3, h4, h5, h6, BitVec.getLsbD_of_ge v _ h7]
theorem place_zero (w : Word) : place w 0 = w := by
  simp [place]

section
variable (op : BitVec 6) (z x y v w : RegIdx) (l : BitVec 11) (imm : BitVec 16) (imm21 : BitVec 21) (imm26 : BitVec 26)
  (sub : BitVec 3) (i : BitVec 5)

theorem packU_eq : packU op z x y l = op ++ z ++ x ++ y ++ l := by
  change place op 26 ||| place z 21 ||| place x 16 ||| place y 11 ||| place l 0 = _
  rw [or_place_append 26 op z (by decide), or_place_append 21 _ x (by decide), or_place_append 16 _ y (by decide),
    or_place_append 11 _ l (by decide)]
  exact place_zero _

theorem packMov_eq : packMov op z imm21 = op ++ z ++ imm21 := by
  change place op 26 ||| place z 21 ||| place imm21 0 = _
  rw [or_place_append 26 op z (by decide), or_place_append 21 _ imm21 (by decide)]
  exact place_zero _

theorem packF_eq : packF op z x imm = op ++ z ++ x ++ imm := by
  change place op 26 ||| place z 21 ||| place x 16 ||| place imm 0 = _
  rw [or_place_append 26 op z (by decide), or_place_append 21 _ x (by decide), or_place_append 16 _ imm (by decide)]
  exact place_zero _

theorem packS_eq : packS op imm26 = op ++ imm26 := by
  change place op 26 ||| place imm26 0 = _
  rw [or_place_append 26 op imm26 (by decide)]
  exact place_zero _

/-- L of the family of opcode 0x04 (R112). -/
theorem packSub_eq (sub : BitVec 3) (i : BitVec 5) : packSub sub i = sub ++ 0#3 ++ i := by
  revert sub i
  decide

/-- L of push and pop (R112). -/
theorem packVW_eq (v w : RegIdx) : packVW v w = v ++ 0#1 ++ w := by
  revert v w
  decide

/-- The last bit of L of the pair of opcode 0x21 (R112). -/
theorem lastBit_packBit (b : BitVec 1) : (packBit b).extractLsb' 0 1 = b := by
  revert b
  decide

theorem fieldOp_packU : fieldOp (packU op z x y l) = op := by
  apply BitVec.eq_of_getLsbD_eq
  intro k hk
  simp only [fieldOp, packU_eq, BitVec.getLsbD_extractLsb', BitVec.getLsbD_append, hk, decide_true, Bool.true_and]
  repeat' split
  all_goals first | omega | (congr 1; omega)

theorem fieldZ_packU : fieldZ (packU op z x y l) = z := by
  apply BitVec.eq_of_getLsbD_eq
  intro k hk
  simp only [fieldZ_eq, packU_eq, BitVec.getLsbD_extractLsb', BitVec.getLsbD_append, hk, decide_true, Bool.true_and]
  repeat' split
  all_goals first | omega | (congr 1; omega)

theorem fieldX_packU : fieldX (packU op z x y l) = x := by
  apply BitVec.eq_of_getLsbD_eq
  intro k hk
  simp only [fieldX_eq, packU_eq, BitVec.getLsbD_extractLsb', BitVec.getLsbD_append, hk, decide_true, Bool.true_and]
  repeat' split
  all_goals first | omega | (congr 1; omega)

theorem fieldY_packU : fieldY (packU op z x y l) = y := by
  apply BitVec.eq_of_getLsbD_eq
  intro k hk
  simp only [fieldY_eq, packU_eq, BitVec.getLsbD_extractLsb', BitVec.getLsbD_append, hk, decide_true, Bool.true_and]
  repeat' split
  all_goals first | omega | (congr 1; omega)

theorem fieldSub_packSub : fieldSub (packU op z x y (packSub sub i)) = sub := by
  apply BitVec.eq_of_getLsbD_eq
  intro k hk
  simp only [fieldSub_eq, packU_eq, packSub_eq, BitVec.getLsbD_extractLsb', BitVec.getLsbD_append, hk, decide_true, Bool.true_and]
  repeat' split
  all_goals first | omega | (congr 1; omega)

theorem fieldI_packSub : fieldI (packU op z x y (packSub sub i)) = i := by
  apply BitVec.eq_of_getLsbD_eq
  intro k hk
  simp only [fieldI_eq, packU_eq, packSub_eq, BitVec.getLsbD_extractLsb', BitVec.getLsbD_append, hk, decide_true, Bool.true_and]
  repeat' split
  all_goals first | omega | (congr 1; omega)

theorem fieldV_packU_list : fieldV (packU op z x y (packVW v w)) = v := by
  apply BitVec.eq_of_getLsbD_eq
  intro k hk
  simp only [fieldV_eq, packU_eq, packVW_eq, BitVec.getLsbD_extractLsb', BitVec.getLsbD_append, hk, decide_true, Bool.true_and]
  repeat' split
  all_goals first | omega | (congr 1; omega)

theorem fieldW_packU_list : fieldW (packU op z x y (packVW v w)) = w := by
  apply BitVec.eq_of_getLsbD_eq
  intro k hk
  simp only [fieldW_eq, packU_eq, packVW_eq, BitVec.getLsbD_extractLsb', BitVec.getLsbD_append, hk, decide_true, Bool.true_and]
  repeat' split
  all_goals first | omega | (congr 1; omega)

theorem fieldOp_packMov : fieldOp (packMov op z imm21) = op := by
  apply BitVec.eq_of_getLsbD_eq
  intro k hk
  simp only [fieldOp, packMov_eq, BitVec.getLsbD_extractLsb', BitVec.getLsbD_append, hk, decide_true, Bool.true_and]
  repeat' split
  all_goals first | omega | (congr 1; omega)

theorem fieldZ_packMov : fieldZ (packMov op z imm21) = z := by
  apply BitVec.eq_of_getLsbD_eq
  intro k hk
  simp only [fieldZ_eq, packMov_eq, BitVec.getLsbD_extractLsb', BitVec.getLsbD_append, hk, decide_true, Bool.true_and]
  repeat' split
  all_goals first | omega | (congr 1; omega)

theorem fieldImm21_packMov : fieldImm21 (packMov op z imm21) = imm21 := by
  apply BitVec.eq_of_getLsbD_eq
  intro k hk
  simp only [fieldImm21_eq, packMov_eq, BitVec.getLsbD_extractLsb', BitVec.getLsbD_append, hk, decide_true, Bool.true_and]
  repeat' split
  all_goals first | omega | (congr 1; omega)

theorem fieldOp_packF : fieldOp (packF op z x imm) = op := by
  apply BitVec.eq_of_getLsbD_eq
  intro k hk
  simp only [fieldOp, packF_eq, BitVec.getLsbD_extractLsb', BitVec.getLsbD_append, hk, decide_true, Bool.true_and]
  repeat' split
  all_goals first | omega | (congr 1; omega)

theorem fieldZF_packF : fieldZF (packF op z x imm) = z := by
  apply BitVec.eq_of_getLsbD_eq
  intro k hk
  simp only [fieldZF_eq, packF_eq, BitVec.getLsbD_extractLsb', BitVec.getLsbD_append, hk, decide_true, Bool.true_and]
  repeat' split
  all_goals first | omega | (congr 1; omega)

theorem fieldXF_packF : fieldXF (packF op z x imm) = x := by
  apply BitVec.eq_of_getLsbD_eq
  intro k hk
  simp only [fieldXF_eq, packF_eq, BitVec.getLsbD_extractLsb', BitVec.getLsbD_append, hk, decide_true, Bool.true_and]
  repeat' split
  all_goals first | omega | (congr 1; omega)

theorem fieldImm16_packF : fieldImm16 (packF op z x imm) = imm := by
  apply BitVec.eq_of_getLsbD_eq
  intro k hk
  simp only [fieldImm16_eq, packF_eq, BitVec.getLsbD_extractLsb', BitVec.getLsbD_append, hk, decide_true, Bool.true_and]
  repeat' split
  all_goals first | omega | (congr 1; omega)

theorem fieldOp_packS : fieldOp (packS op imm26) = op := by
  apply BitVec.eq_of_getLsbD_eq
  intro k hk
  simp only [fieldOp, packS_eq, BitVec.getLsbD_extractLsb', BitVec.getLsbD_append, hk, decide_true, Bool.true_and]
  repeat' split
  all_goals first | omega | (congr 1; omega)

theorem fieldImm26_packS : fieldImm26 (packS op imm26) = imm26 := by
  apply BitVec.eq_of_getLsbD_eq
  intro k hk
  simp only [fieldImm26_eq, packS_eq, BitVec.getLsbD_extractLsb', BitVec.getLsbD_append, hk, decide_true, Bool.true_and]
  repeat' split
  all_goals first | omega | (congr 1; omega)

/-- The last bit of a format U word is the last bit of L. -/
theorem fieldB_packU : fieldB (packU op z x y l) = l.extractLsb' 0 1 := by
  apply BitVec.eq_of_getLsbD_eq
  intro k hk
  simp only [fieldB_eq, packU_eq, BitVec.getLsbD_extractLsb', BitVec.getLsbD_append, hk, decide_true, Bool.true_and]
  rw [if_pos (by omega)]

end

/-- The bytes of a word put it together again (R73). -/
theorem bytesWord_wordBytes (w : Word) :
    bytesWord (w.extractLsb' 24 8) (w.extractLsb' 16 8) (w.extractLsb' 8 8) (w.extractLsb' 0 8) = w := by
  apply BitVec.eq_of_getLsbD_eq
  intro k hk
  simp only [bytesWord, BitVec.getLsbD_extractLsb', BitVec.getLsbD_append]
  repeat' split
  all_goals
    rw [decide_eq_true (by omega), Bool.true_and]
    congr 1
    omega

/-- Decoding the bytes of a word decodes the word and leaves the rest. -/
theorem decodeBytes_wordBytes (w : Word) (rest : List Byte) :
    decodeBytes (wordBytes w ++ rest) = (decode w).map fun i => (i, rest) := by
  simp only [wordBytes, List.cons_append, List.nil_append, decodeBytes, bytesWord_wordBytes]
  cases decode w <;> rfl

/-- The decoder reads back a table word as the word itself. -/
theorem decodeTableWord_32 (w : Word) : decodeTableWord 32 w.toNat = (decode w).toOption := by
  have h : BitVec.ofNat 32 (w.toNat % 2 ^ 32) = w := by
    apply BitVec.eq_of_toNat_eq
    simp only [BitVec.toNat_ofNat, Nat.mod_mod]
    exact Nat.mod_eq_of_lt w.isLt
  have hb := decodeBytes_wordBytes w []
  rw [List.append_nil] at hb
  simp only [decodeTableWord, h, hb]
  cases decode w <;> rfl

/-- An active list is its own active list (R260). -/
theorem activeList_listReg {regs : List RegIdx} (h : (Instr.push regs).wellFormed = true) :
    activeList (listReg regs 0) (listReg regs 1) (listReg regs 2) (listReg regs 3) (listReg regs 4) = regs := by
  simp only [Instr.wellFormed, listFits, listHasNoZero, Bool.and_eq_true, decide_eq_true_eq, List.all_eq_true,
    bne_iff_ne] at h
  obtain ⟨hlen, hz⟩ := h
  match regs, hlen, hz with
  | [], _, _ => rfl
  | [a], _, hz => simp_all [activeList, listReg]
  | [a, b], _, hz => simp_all [activeList, listReg]
  | [a, b, c], _, hz => simp_all [activeList, listReg]
  | [a, b, c, d], _, hz => simp_all [activeList, listReg]
  | [a, b, c, d, e], _, hz => simp_all [activeList, listReg]
  | _ :: _ :: _ :: _ :: _ :: _ :: _, hlen, _ => simp only [List.length_cons] at hlen; omega

/-- Every active list has at most five registers and no slot 0 (R260). -/
theorem activeList_fits (v w x y z : RegIdx) : (Instr.push (activeList v w x y z)).wellFormed = true := by
  simp only [Instr.wellFormed, listFits, listHasNoZero, Bool.and_eq_true, decide_eq_true_eq, List.all_eq_true]
  constructor
  · exact (List.takeWhile_prefix _).length_le
  · intro r hr
    exact List.mem_takeWhile_imp (p := (· != 0#5)) hr

/-- A three-bit discriminant has eight values (R118). -/
theorem decodeFamily04_ok (w : Word) : ∃ i, decodeFamily04 w = .ok i := by
  have hall : ∀ k : BitVec 3, selected Machine.Param.config.shiftSubop.members k ≠ none := by decide
  unfold decodeFamily04
  split
  all_goals first | exact ⟨_, rfl⟩ | (rename_i h; exact absurd h (hall _))

/-- A one-bit discriminant has two values (R119). -/
theorem decodeFamily21_ok (w : Word) : ∃ i, decodeFamily21 w = .ok i := by
  have hall : ∀ k : BitVec 1, selected Machine.Param.config.bitSubop.members k ≠ none := by decide
  unfold decodeFamily21
  split
  all_goals first | exact ⟨_, rfl⟩ | (rename_i h; exact absurd h (hall _))

/-! ### The two maps -/

/-- Every entry of the opcode map selects its own opcode (R117). -/
theorem opcodeAt_opcodeOf (o : Opcode) : opcodeAt (opcodeOf o) = some o := by
  cases o <;> rfl

/-- Every member of the family of opcode 0x04 is selected by its own discriminant (R118). -/
theorem selected_subOf (o : ShiftMulDivOp) : selected Machine.Param.config.shiftSubop.members (subOf o) = some o := by
  cases o <;> rfl

/-- Each of the pair of opcode 0x21 is selected by its own discriminant (R119). -/
theorem selected_bitOf (o : BitOp) : selected Machine.Param.config.bitSubop.members (bitOf o) = some o := by
  cases o <;> rfl

/-- The word of an entry's opcode decodes as that entry (R117). -/
theorem decode_of_opcode {w : Word} {o : Opcode} (h : fieldOp w = opcodeOf o) : decode w = decodeAs o w := by
  rw [decode, h, decodeOp, opcodeAt_opcodeOf]

end Sys2Proof.Laws
end

