-- ==== Sys2Proof/Laws/PerInstr.lean ====
section
/-! SUPPORT. Statements made per instruction, one lemma for each constructor. -/

namespace Sys2Proof.Laws

namespace DecodeEncode

/-- Decoding the word of a well-formed instruction gives it back. -/
def Statement (i : Instr) : Prop := i.wellFormed = true → decode (encode i) = .ok i

theorem mov (z : RegIdx) (imm : BitVec 21) : Statement (.mov z imm) := fun _ => by
  refine (decode_of_opcode (o := .mov) (fieldOp_packMov ..)).trans ?_
  change Except.ok (Instr.mov _ _) = _
  rw [fieldZ_packMov, fieldImm21_packMov]

theorem movs (z : RegIdx) (imm : BitVec 21) : Statement (.movs z imm) := fun _ => by
  refine (decode_of_opcode (o := .movs) (fieldOp_packMov ..)).trans ?_
  change Except.ok (Instr.movs _ _) = _
  rw [fieldZ_packMov, fieldImm21_packMov]

theorem add (z x y : RegIdx) : Statement (.add z x y) := fun _ => by
  refine (decode_of_opcode (o := .add) (fieldOp_packU ..)).trans ?_
  change Except.ok (Instr.add _ _ _) = _
  rw [fieldZ_packU, fieldX_packU, fieldY_packU]

theorem sub (z x y : RegIdx) : Statement (.sub z x y) := fun _ => by
  refine (decode_of_opcode (o := .sub) (fieldOp_packU ..)).trans ?_
  change Except.ok (Instr.sub _ _ _) = _
  rw [fieldZ_packU, fieldX_packU, fieldY_packU]

theorem addi (z x : RegIdx) (imm : BitVec 16) : Statement (.addi z x imm) := fun _ => by
  refine (decode_of_opcode (o := .addi) (fieldOp_packF ..)).trans ?_
  change Except.ok (Instr.addi _ _ _) = _
  rw [fieldZF_packF, fieldXF_packF, fieldImm16_packF]

theorem subi (z x : RegIdx) (imm : BitVec 16) : Statement (.subi z x imm) := fun _ => by
  refine (decode_of_opcode (o := .subi) (fieldOp_packF ..)).trans ?_
  change Except.ok (Instr.subi _ _ _) = _
  rw [fieldZF_packF, fieldXF_packF, fieldImm16_packF]

theorem muli (z x : RegIdx) (imm : BitVec 16) : Statement (.muli z x imm) := fun _ => by
  refine (decode_of_opcode (o := .muli) (fieldOp_packF ..)).trans ?_
  change Except.ok (Instr.muli _ _ _) = _
  rw [fieldZF_packF, fieldXF_packF, fieldImm16_packF]

theorem divi (z x : RegIdx) (imm : BitVec 16) : Statement (.divi z x imm) := fun _ => by
  refine (decode_of_opcode (o := .divi) (fieldOp_packF ..)).trans ?_
  change Except.ok (Instr.divi _ _ _) = _
  rw [fieldZF_packF, fieldXF_packF, fieldImm16_packF]

theorem modi (z x : RegIdx) (imm : BitVec 16) : Statement (.modi z x imm) := fun _ => by
  refine (decode_of_opcode (o := .modi) (fieldOp_packF ..)).trans ?_
  change Except.ok (Instr.modi _ _ _) = _
  rw [fieldZF_packF, fieldXF_packF, fieldImm16_packF]

theorem mul (z x y i : RegIdx) : Statement (.mul z x y i) := fun _ => by
  refine (decode_of_opcode (o := .shiftMulDiv) (fieldOp_packU ..)).trans ?_
  change decodeFamily04 _ = _
  rw [decodeFamily04, fieldSub_packSub, selected_subOf, fieldZ_packU, fieldX_packU, fieldY_packU, fieldI_packSub]

theorem muls (z x y i : RegIdx) : Statement (.muls z x y i) := fun _ => by
  refine (decode_of_opcode (o := .shiftMulDiv) (fieldOp_packU ..)).trans ?_
  change decodeFamily04 _ = _
  rw [decodeFamily04, fieldSub_packSub, selected_subOf, fieldZ_packU, fieldX_packU, fieldY_packU, fieldI_packSub]

theorem sll (z x y : RegIdx) (i : BitVec 5) : Statement (.sll z x y i) := fun _ => by
  refine (decode_of_opcode (o := .shiftMulDiv) (fieldOp_packU ..)).trans ?_
  change decodeFamily04 _ = _
  rw [decodeFamily04, fieldSub_packSub, selected_subOf, fieldZ_packU, fieldX_packU, fieldY_packU, fieldI_packSub]

theorem sla (z x y : RegIdx) (i : BitVec 5) : Statement (.sla z x y i) := fun _ => by
  refine (decode_of_opcode (o := .shiftMulDiv) (fieldOp_packU ..)).trans ?_
  change decodeFamily04 _ = _
  rw [decodeFamily04, fieldSub_packSub, selected_subOf, fieldZ_packU, fieldX_packU, fieldY_packU, fieldI_packSub]

theorem srl (z x y : RegIdx) (i : BitVec 5) : Statement (.srl z x y i) := fun _ => by
  refine (decode_of_opcode (o := .shiftMulDiv) (fieldOp_packU ..)).trans ?_
  change decodeFamily04 _ = _
  rw [decodeFamily04, fieldSub_packSub, selected_subOf, fieldZ_packU, fieldX_packU, fieldY_packU, fieldI_packSub]

theorem sra (z x y : RegIdx) (i : BitVec 5) : Statement (.sra z x y i) := fun _ => by
  refine (decode_of_opcode (o := .shiftMulDiv) (fieldOp_packU ..)).trans ?_
  change decodeFamily04 _ = _
  rw [decodeFamily04, fieldSub_packSub, selected_subOf, fieldZ_packU, fieldX_packU, fieldY_packU, fieldI_packSub]

theorem div (z x y i : RegIdx) : Statement (.div z x y i) := fun _ => by
  refine (decode_of_opcode (o := .shiftMulDiv) (fieldOp_packU ..)).trans ?_
  change decodeFamily04 _ = _
  rw [decodeFamily04, fieldSub_packSub, selected_subOf, fieldZ_packU, fieldX_packU, fieldY_packU, fieldI_packSub]

theorem divs (z x y i : RegIdx) : Statement (.divs z x y i) := fun _ => by
  refine (decode_of_opcode (o := .shiftMulDiv) (fieldOp_packU ..)).trans ?_
  change decodeFamily04 _ = _
  rw [decodeFamily04, fieldSub_packSub, selected_subOf, fieldZ_packU, fieldX_packU, fieldY_packU, fieldI_packSub]

theorem cmp (x y : RegIdx) : Statement (.cmp x y) := fun _ => by
  refine (decode_of_opcode (o := .cmp) (fieldOp_packU ..)).trans ?_
  change Except.ok (Instr.cmp _ _) = _
  rw [fieldX_packU, fieldY_packU]

theorem cmpi (x : RegIdx) (imm : BitVec 16) : Statement (.cmpi x imm) := fun _ => by
  refine (decode_of_opcode (o := .cmpi) (fieldOp_packF ..)).trans ?_
  change Except.ok (Instr.cmpi _ _) = _
  rw [fieldXF_packF, fieldImm16_packF]

theorem and (z x y : RegIdx) : Statement (.and z x y) := fun _ => by
  refine (decode_of_opcode (o := .and) (fieldOp_packU ..)).trans ?_
  change Except.ok (Instr.and _ _ _) = _
  rw [fieldZ_packU, fieldX_packU, fieldY_packU]

theorem or (z x y : RegIdx) : Statement (.or z x y) := fun _ => by
  refine (decode_of_opcode (o := .or) (fieldOp_packU ..)).trans ?_
  change Except.ok (Instr.or _ _ _) = _
  rw [fieldZ_packU, fieldX_packU, fieldY_packU]

theorem not (z x : RegIdx) : Statement (.not z x) := fun _ => by
  refine (decode_of_opcode (o := .not) (fieldOp_packU ..)).trans ?_
  change Except.ok (Instr.not _ _) = _
  rw [fieldZ_packU, fieldX_packU]

theorem xor (z x y : RegIdx) : Statement (.xor z x y) := fun _ => by
  refine (decode_of_opcode (o := .xor) (fieldOp_packU ..)).trans ?_
  change Except.ok (Instr.xor _ _ _) = _
  rw [fieldZ_packU, fieldX_packU, fieldY_packU]

theorem l8 (z x : RegIdx) (imm : BitVec 16) : Statement (.l8 z x imm) := fun _ => by
  refine (decode_of_opcode (o := .l8) (fieldOp_packF ..)).trans ?_
  change Except.ok (Instr.l8 _ _ _) = _
  rw [fieldZF_packF, fieldXF_packF, fieldImm16_packF]

theorem l16 (z x : RegIdx) (imm : BitVec 16) : Statement (.l16 z x imm) := fun _ => by
  refine (decode_of_opcode (o := .l16) (fieldOp_packF ..)).trans ?_
  change Except.ok (Instr.l16 _ _ _) = _
  rw [fieldZF_packF, fieldXF_packF, fieldImm16_packF]

theorem l32 (z x : RegIdx) (imm : BitVec 16) : Statement (.l32 z x imm) := fun _ => by
  refine (decode_of_opcode (o := .l32) (fieldOp_packF ..)).trans ?_
  change Except.ok (Instr.l32 _ _ _) = _
  rw [fieldZF_packF, fieldXF_packF, fieldImm16_packF]

theorem s8 (z x : RegIdx) (imm : BitVec 16) : Statement (.s8 z x imm) := fun _ => by
  refine (decode_of_opcode (o := .s8) (fieldOp_packF ..)).trans ?_
  change Except.ok (Instr.s8 _ _ _) = _
  rw [fieldZF_packF, fieldXF_packF, fieldImm16_packF]

theorem s16 (z x : RegIdx) (imm : BitVec 16) : Statement (.s16 z x imm) := fun _ => by
  refine (decode_of_opcode (o := .s16) (fieldOp_packF ..)).trans ?_
  change Except.ok (Instr.s16 _ _ _) = _
  rw [fieldZF_packF, fieldXF_packF, fieldImm16_packF]

theorem s32 (z x : RegIdx) (imm : BitVec 16) : Statement (.s32 z x imm) := fun _ => by
  refine (decode_of_opcode (o := .s32) (fieldOp_packF ..)).trans ?_
  change Except.ok (Instr.s32 _ _ _) = _
  rw [fieldZF_packF, fieldXF_packF, fieldImm16_packF]

theorem push (regs : List RegIdx) : Statement (.push regs) := fun h => by
  refine (decode_of_opcode (o := .push) (fieldOp_packU ..)).trans ?_
  change Except.ok (Instr.push _) = _
  rw [fieldV_packU_list, fieldW_packU_list, fieldX_packU, fieldY_packU, fieldZ_packU]
  exact congrArg (fun l => Except.ok (Instr.push l)) (activeList_listReg h)

theorem pop (regs : List RegIdx) : Statement (.pop regs) := fun h => by
  refine (decode_of_opcode (o := .pop) (fieldOp_packU ..)).trans ?_
  change Except.ok (Instr.pop _) = _
  rw [fieldV_packU_list, fieldW_packU_list, fieldX_packU, fieldY_packU, fieldZ_packU]
  exact congrArg (fun l => Except.ok (Instr.pop l)) (activeList_listReg h)

theorem bae (imm : BitVec 26) : Statement (.bae imm) := fun _ => by
  refine (decode_of_opcode (o := .bae) (fieldOp_packS ..)).trans ?_
  change Except.ok (Instr.bae _) = _
  rw [fieldImm26_packS]

theorem bat (imm : BitVec 26) : Statement (.bat imm) := fun _ => by
  refine (decode_of_opcode (o := .bat) (fieldOp_packS ..)).trans ?_
  change Except.ok (Instr.bat _) = _
  rw [fieldImm26_packS]

theorem bbe (imm : BitVec 26) : Statement (.bbe imm) := fun _ => by
  refine (decode_of_opcode (o := .bbe) (fieldOp_packS ..)).trans ?_
  change Except.ok (Instr.bbe _) = _
  rw [fieldImm26_packS]

theorem bbt (imm : BitVec 26) : Statement (.bbt imm) := fun _ => by
  refine (decode_of_opcode (o := .bbt) (fieldOp_packS ..)).trans ?_
  change Except.ok (Instr.bbt _) = _
  rw [fieldImm26_packS]

theorem beq (imm : BitVec 26) : Statement (.beq imm) := fun _ => by
  refine (decode_of_opcode (o := .beq) (fieldOp_packS ..)).trans ?_
  change Except.ok (Instr.beq _) = _
  rw [fieldImm26_packS]

theorem bge (imm : BitVec 26) : Statement (.bge imm) := fun _ => by
  refine (decode_of_opcode (o := .bge) (fieldOp_packS ..)).trans ?_
  change Except.ok (Instr.bge _) = _
  rw [fieldImm26_packS]

theorem bgt (imm : BitVec 26) : Statement (.bgt imm) := fun _ => by
  refine (decode_of_opcode (o := .bgt) (fieldOp_packS ..)).trans ?_
  change Except.ok (Instr.bgt _) = _
  rw [fieldImm26_packS]

theorem biv (imm : BitVec 26) : Statement (.biv imm) := fun _ => by
  refine (decode_of_opcode (o := .biv) (fieldOp_packS ..)).trans ?_
  change Except.ok (Instr.biv _) = _
  rw [fieldImm26_packS]

theorem ble (imm : BitVec 26) : Statement (.ble imm) := fun _ => by
  refine (decode_of_opcode (o := .ble) (fieldOp_packS ..)).trans ?_
  change Except.ok (Instr.ble _) = _
  rw [fieldImm26_packS]

theorem blt (imm : BitVec 26) : Statement (.blt imm) := fun _ => by
  refine (decode_of_opcode (o := .blt) (fieldOp_packS ..)).trans ?_
  change Except.ok (Instr.blt _) = _
  rw [fieldImm26_packS]

theorem bne (imm : BitVec 26) : Statement (.bne imm) := fun _ => by
  refine (decode_of_opcode (o := .bne) (fieldOp_packS ..)).trans ?_
  change Except.ok (Instr.bne _) = _
  rw [fieldImm26_packS]

theorem bni (imm : BitVec 26) : Statement (.bni imm) := fun _ => by
  refine (decode_of_opcode (o := .bni) (fieldOp_packS ..)).trans ?_
  change Except.ok (Instr.bni _) = _
  rw [fieldImm26_packS]

theorem bnz (imm : BitVec 26) : Statement (.bnz imm) := fun _ => by
  refine (decode_of_opcode (o := .bnz) (fieldOp_packS ..)).trans ?_
  change Except.ok (Instr.bnz _) = _
  rw [fieldImm26_packS]

theorem bun (imm : BitVec 26) : Statement (.bun imm) := fun _ => by
  refine (decode_of_opcode (o := .bun) (fieldOp_packS ..)).trans ?_
  change Except.ok (Instr.bun _) = _
  rw [fieldImm26_packS]

theorem bzd (imm : BitVec 26) : Statement (.bzd imm) := fun _ => by
  refine (decode_of_opcode (o := .bzd) (fieldOp_packS ..)).trans ?_
  change Except.ok (Instr.bzd _) = _
  rw [fieldImm26_packS]

theorem callF (x : RegIdx) (imm : BitVec 16) : Statement (.callF x imm) := fun _ => by
  refine (decode_of_opcode (o := .callF) (fieldOp_packF ..)).trans ?_
  change Except.ok (Instr.callF _ _) = _
  rw [fieldXF_packF, fieldImm16_packF]

theorem callS (imm : BitVec 26) : Statement (.callS imm) := fun _ => by
  refine (decode_of_opcode (o := .callS) (fieldOp_packS ..)).trans ?_
  change Except.ok (Instr.callS _) = _
  rw [fieldImm26_packS]

theorem ret : Statement (.ret) := fun _ => by
  refine (decode_of_opcode (o := .ret) (fieldOp_packF ..)).trans ?_
  rfl

theorem reti : Statement (.reti) := fun _ => by
  refine (decode_of_opcode (o := .reti) (fieldOp_packF ..)).trans ?_
  rfl

theorem cbr (z : RegIdx) (x : BitVec 5) : Statement (.cbr z x) := fun _ => by
  refine (decode_of_opcode (o := .bitSetClear) (fieldOp_packU ..)).trans ?_
  change decodeFamily21 _ = _
  rw [decodeFamily21, fieldB_packU, lastBit_packBit, selected_bitOf, fieldZ_packU, fieldX_packU]

theorem sbr (z : RegIdx) (x : BitVec 5) : Statement (.sbr z x) := fun _ => by
  refine (decode_of_opcode (o := .bitSetClear) (fieldOp_packU ..)).trans ?_
  change decodeFamily21 _ = _
  rw [decodeFamily21, fieldB_packU, lastBit_packBit, selected_bitOf, fieldZ_packU, fieldX_packU]

theorem int (imm : BitVec 26) : Statement (.int imm) := fun _ => by
  refine (decode_of_opcode (o := .int) (fieldOp_packS ..)).trans ?_
  change Except.ok (Instr.int _) = _
  rw [fieldImm26_packS]

end DecodeEncode

end Sys2Proof.Laws
end

