-- ==== Sys2Proof/Tests/Slice0.lean ====
section
/-! SUPPORT. The model's own tests. Words and expected results are those of spec/ (30_encoding.md R117 to R119 and R126, the
vectors L1 and L2 of 95_test_vectors.md, the examples of the instruction rules); below them, one witness for each statement
that has hypotheses. -/

namespace Sys2Proof.Tests

open Sys2Proof.Machine

/-! ### Well-formedness: ill-formed terms are refused -/

theorem test_six_registers_do_not_fit : listFits [1#5, 2#5, 3#5, 4#5, 5#5, 6#5] = false := by decide
theorem test_push_of_six_refused : (Instr.push [1#5, 2#5, 3#5, 4#5, 5#5, 6#5]).wellFormed = false := by decide
theorem test_slot_zero_is_no_member : listHasNoZero [1#5, 0#5] = false := by decide
theorem test_pop_of_slot_zero_refused : (Instr.pop [1#5, 0#5]).wellFormed = false := by decide
theorem test_push_of_five_accepted : (Instr.push [1#5, 2#5, 30#5, 31#5, 5#5]).wellFormed = true := by decide

/-! ### Decoding: the spec's words, by family -/

theorem test_decode_moves :
    decode 0x00700000#32 = .ok (.mov 3#5 0x100000#21) ∧ decode 0x043fffff#32 = .ok (.movs 1#5 0x1fffff#21) := by decide

theorem test_decode_arithmetic :
    decode 0x08611000#32 = .ok (.add 3#5 1#5 2#5) ∧ decode 0x0c611000#32 = .ok (.sub 3#5 1#5 2#5) ∧
    decode 0x48617fff#32 = .ok (.addi 3#5 1#5 0x7fff#16) ∧ decode 0x4c61ffff#32 = .ok (.subi 3#5 1#5 0xffff#16) ∧
    decode 0x50610002#32 = .ok (.muli 3#5 1#5 2#16) ∧ decode 0x5461fffe#32 = .ok (.divi 3#5 1#5 0xfffe#16) ∧
    decode 0x58610004#32 = .ok (.modi 3#5 1#5 4#16) := by decide

theorem test_decode_shift_multiply_divide :
    decode 0x106110e4#32 = .ok (.mul 3#5 1#5 2#5 4#5) ∧ decode 0x10611204#32 = .ok (.muls 3#5 1#5 2#5 4#5) ∧
    decode 0x1064111f#32 = .ok (.sll 3#5 4#5 2#5 31#5) ∧ decode 0x10641300#32 = .ok (.sla 3#5 4#5 2#5 0#5) ∧
    decode 0x10641503#32 = .ok (.srl 3#5 4#5 2#5 3#5) ∧ decode 0x10641700#32 = .ok (.sra 3#5 4#5 2#5 0#5) ∧
    decode 0x10611404#32 = .ok (.div 3#5 1#5 2#5 4#5) ∧ decode 0x10611603#32 = .ok (.divs 3#5 1#5 2#5 3#5) := by decide

theorem test_decode_compare_and_logic :
    decode 0x14011000#32 = .ok (.cmp 1#5 2#5) ∧ decode 0x5c01ffff#32 = .ok (.cmpi 1#5 0xffff#16) ∧
    decode 0x1bff0800#32 = .ok (.and 31#5 31#5 1#5) ∧ decode 0x1c611000#32 = .ok (.or 3#5 1#5 2#5) ∧
    decode 0x20600000#32 = .ok (.not 3#5 0#5) ∧ decode 0x24610800#32 = .ok (.xor 3#5 1#5 1#5) := by decide

theorem test_decode_load_store :
    decode 0x60200103#32 = .ok (.l8 1#5 0#5 0x103#16) ∧ decode 0x64200103#32 = .ok (.l16 1#5 0#5 0x103#16) ∧
    decode 0x6822fffc#32 = .ok (.l32 1#5 2#5 0xfffc#16) ∧ decode 0x6c400103#32 = .ok (.s8 2#5 0#5 0x103#16) ∧
    decode 0x70400101#32 = .ok (.s16 2#5 0#5 0x101#16) ∧ decode 0x74430000#32 = .ok (.s32 2#5 3#5 0#16) := by decide

theorem test_decode_stack :
    decode 0x28a32042#32 = .ok (.push [1#5, 2#5, 3#5, 4#5, 5#5]) ∧ decode 0x28020040#32 = .ok (.push [1#5]) ∧
    decode 0x28000001#32 = .ok (.push []) ∧ decode 0x2c000781#32 = .ok (.pop [30#5, 1#5]) := by decide

/-- The fifteen branches with IMM26 = -1, opcodes 0x2A to 0x38 (47_control_transfer.md R270). -/
theorem test_decode_branches :
    decode 0xabffffff#32 = .ok (.bae 0x3ffffff#26) ∧ decode 0xafffffff#32 = .ok (.bat 0x3ffffff#26) ∧
    decode 0xb3ffffff#32 = .ok (.bbe 0x3ffffff#26) ∧ decode 0xb7ffffff#32 = .ok (.bbt 0x3ffffff#26) ∧
    decode 0xbbffffff#32 = .ok (.beq 0x3ffffff#26) ∧ decode 0xbfffffff#32 = .ok (.bge 0x3ffffff#26) ∧
    decode 0xc3ffffff#32 = .ok (.bgt 0x3ffffff#26) ∧ decode 0xc7ffffff#32 = .ok (.biv 0x3ffffff#26) ∧
    decode 0xcbffffff#32 = .ok (.ble 0x3ffffff#26) ∧ decode 0xcfffffff#32 = .ok (.blt 0x3ffffff#26) ∧
    decode 0xd3ffffff#32 = .ok (.bne 0x3ffffff#26) ∧ decode 0xd7ffffff#32 = .ok (.bni 0x3ffffff#26) ∧
    decode 0xdbffffff#32 = .ok (.bnz 0x3ffffff#26) ∧ decode 0xdfffffff#32 = .ok (.bun 0x3ffffff#26) ∧
    decode 0xe3ffffff#32 = .ok (.bzd 0x3ffffff#26) := by decide

theorem test_decode_calls_and_returns :
    decode 0x7805ffff#32 = .ok (.callF 5#5 0xffff#16) ∧ decode 0xe7ffffff#32 = .ok (.callS 0x3ffffff#26) ∧
    decode 0x7c000000#32 = .ok .ret ∧ decode 0x80000000#32 = .ok .reti ∧ decode 0x83ffffff#32 = .ok .reti := by decide

theorem test_decode_bit_and_trap :
    decode 0x87e10000#32 = .ok (.cbr 31#5 1#5) ∧ decode 0x8464ffff#32 = .ok (.sbr 3#5 4#5) ∧
    decode 0xfc000000#32 = .ok (.int 0#26) ∧ decode 0xffffffff#32 = .ok (.int 0x3ffffff#26) := by decide

theorem test_decode_invalid :
    decode 0x30000000#32 = .error (.unknownOpcode 0x0c#6) ∧ decode 0x44000000#32 = .error (.unknownOpcode 0x11#6) ∧
    decode 0x88000000#32 = .error (.unknownOpcode 0x22#6) ∧ decode 0xa4000000#32 = .error (.unknownOpcode 0x29#6) ∧
    decode 0xe8000000#32 = .error (.unknownOpcode 0x3a#6) ∧ decode 0xf8000000#32 = .error (.unknownOpcode 0x3e#6) := by decide

/-- Memory order is big-endian (20_memory.md R73). -/
theorem test_decode_bytes_big_endian :
    decodeBytes [0x08#8, 0x61#8, 0x10#8, 0x00#8, 0xff#8] = .ok (.add 3#5 1#5 2#5, [0xff#8]) := by decide

/-! ### The configuration record at its defaults (00_scope.md R9, R10) -/

/-- No opcode and no instruction stands twice in the map, the seven flags have places of their own, and MEM_BYTES is a positive
multiple of 4. -/
theorem test_default_configuration_is_legal :
    (Param.config.opcodeMap.map (·.1)).Nodup ∧ (Param.config.opcodeMap.map (·.2)).Nodup ∧
    ([Flag.cy, .ie, .iv, .ov, .sn, .zd, .zn].map Param.config.srPos).Nodup ∧
    0 < Param.config.memBytes ∧ Param.config.memBytes % 4 = 0 := by decide

/-! ### One step of each instruction (L2), at 0x100 with SP = 0x7FFC as the vectors are -/

/-- Reset with PC = 0x100, SP = 0x7FFC, some registers and some words of memory. -/
def boot (regs : List (RegIdx × Word)) (words : List (Nat × Word)) : State :=
  let s := regs.foldl (fun s p => s.writeReg p.1 p.2) ((State.reset.writeReg PC 0x100#32).writeReg SP 0x7ffc#32)
  s.setMem (words.foldl (fun m p => m.storeWord p.1 p.2) s.mem)

/-- The step that fetches `w` answers a next state of which `f` holds. -/
def after (w : Word) (s : State) (f : State → Bool) : Bool :=
  match step (s.withFetchWord 32 w.toNat) with
  | .next t => f t
  | _ => false

/-- The step that fetches `w` ends in the fault `f`. -/
def faults (w : Word) (s : State) (f : Fault) : Bool :=
  match step (s.withFetchWord 32 w.toNat) with
  | .fault g => g == f
  | _ => false

/-- Slots with these values. -/
def holds (t : State) (l : List (RegIdx × Word)) : Bool := l.all fun p => t.reg p.1 == p.2

/-- Two operands in r1 and r2. -/
def two (a b : Word) : State := boot [(1#5, a), (2#5, b)] []

-- In SR: CY 0x01, IE 0x02, IV 0x04, OV 0x08, SN 0x10, ZD 0x20, ZN 0x40. R31 is SR, R29 PC, R30 SP, R26 CR, R27 IPC.

theorem test_mov_zero_extends : after 0x00700000#32 (two 0 0) (holds · [(3#5, 0x100000#32), (31#5, 0#32)]) = true := by decide
theorem test_movs_sign_extends : after 0x04700000#32 (two 0 0) (holds · [(3#5, 0xfff00000#32)]) = true := by decide

theorem test_add_carry_and_overflow :
    after 0x08611000#32 (two 0x80000000#32 0x80000000#32) (holds · [(3#5, 0#32), (31#5, 0x49#32)]) = true := by decide
theorem test_add_into_r0_still_writes_flags :
    after 0x08011000#32 (two 1#32 0xffffffff#32) (holds · [(0#5, 0#32), (31#5, 0x41#32)]) = true := by decide
theorem test_sub_borrow_and_overflow :
    after 0x0c611000#32 (two 0x7fffffff#32 0xffffffff#32) (holds · [(3#5, 0x80000000#32), (31#5, 0x19#32)]) = true := by decide
theorem test_sub_negative : after 0x0c611000#32 (two 3#32 5#32) (holds · [(3#5, 0xfffffffe#32), (31#5, 0x11#32)]) = true := by decide
theorem test_addi_negative_immediate :
    after 0x4861ffff#32 (two 0x80000000#32 0#32) (holds · [(3#5, 0x7fffffff#32), (31#5, 0x09#32)]) = true := by decide
theorem test_subi_minus_one :
    after 0x4c61ffff#32 (two 0x7fffffff#32 0#32) (holds · [(3#5, 0x80000000#32), (31#5, 0x19#32)]) = true := by decide

theorem test_muli_overflow : after 0x50610002#32 (two 0x7fffffff#32 0#32) (holds · [(3#5, 0xfffffffe#32), (31#5, 0x08#32)]) = true := by decide
theorem test_muli_negative : after 0x5061ffff#32 (two 0x80000000#32 0#32) (holds · [(3#5, 0x80000000#32), (31#5, 0x08#32)]) = true := by decide
theorem test_divi_truncates : after 0x5461fffe#32 (two 7#32 0#32) (holds · [(3#5, 0xfffffffd#32), (31#5, 0#32)]) = true := by decide
theorem test_divi_wraps : after 0x5461ffff#32 (two 0x80000000#32 0#32) (holds · [(3#5, 0x80000000#32), (31#5, 0x08#32)]) = true := by decide
theorem test_modi_sign : after 0x5861fffe#32 (two 7#32 0#32) (holds · [(3#5, 1#32), (31#5, 0#32)]) = true := by decide

theorem test_mul_keeps_ov :
    after 0x10611004#32 (boot [(2#5, 0x1234#32), (31#5, 0x09#32)] []) (holds · [(3#5, 0#32), (4#5, 0#32), (31#5, 0x48#32)]) = true := by decide
theorem test_mul_high_word_wins_on_one_slot :
    after 0x10611003#32 (two 0xffffffff#32 0xffffffff#32) (holds · [(3#5, 0xfffffffe#32), (31#5, 0x01#32)]) = true := by decide
theorem test_muls_largest :
    after 0x10611204#32 (two 0x80000000#32 0x80000000#32) (holds · [(3#5, 0#32), (4#5, 0x40000000#32), (31#5, 0x08#32)]) = true := by decide
theorem test_muls_fits :
    after 0x10611204#32 (two 0x80000000#32 1#32) (holds · [(3#5, 0x80000000#32), (4#5, 0xffffffff#32), (31#5, 0#32)]) = true := by decide

/-- The pair {r3, r2} of the shift vectors. -/
def pair (high low : Word) : State := boot [(3#5, high), (2#5, low)] []

theorem test_sll_by_32 :
    after 0x1064111f#32 (pair 0xaaaaaaaa#32 0x12345678#32) (holds · [(3#5, 0x12345678#32), (4#5, 0#32), (31#5, 0x01#32)]) = true := by decide
theorem test_sll_loses_bit_63 : after 0x10641100#32 (pair 0x80000000#32 0#32) (holds · [(3#5, 0#32), (4#5, 0#32), (31#5, 0x40#32)]) = true := by decide
theorem test_srl_by_32 :
    after 0x1064151f#32 (pair 0x12345678#32 0x9abcdef0#32) (holds · [(3#5, 0#32), (4#5, 0x12345678#32), (31#5, 0#32)]) = true := by decide
theorem test_srl_by_4 : after 0x10641503#32 (pair 0#32 0x10#32) (holds · [(3#5, 0#32), (4#5, 1#32)]) = true := by decide
theorem test_sra_by_32 :
    after 0x1064171f#32 (pair 0x80000000#32 0#32) (holds · [(3#5, 0xffffffff#32), (4#5, 0x80000000#32), (31#5, 0#32)]) = true := by decide
theorem test_sla_overflow :
    after 0x10641300#32 (pair 0xffffffff#32 0x40000000#32) (holds · [(3#5, 0xfffffffe#32), (4#5, 0x80000000#32), (31#5, 0x08#32)]) = true := by decide
theorem test_sla_fits :
    after 0x10641300#32 (pair 0xffffffff#32 0xc0000000#32) (holds · [(3#5, 0xffffffff#32), (4#5, 0x80000000#32), (31#5, 0#32)]) = true := by decide

theorem test_div_unsigned :
    after 0x10611404#32 (two 0xffffffff#32 0x10#32) (holds · [(3#5, 0x0fffffff#32), (4#5, 0xf#32), (31#5, 0x01#32)]) = true := by decide
theorem test_div_by_zero_without_ie :
    after 0x10611404#32 (boot [(1#5, 5#32), (3#5, 0x33#32), (4#5, 0x44#32), (31#5, 0x09#32)] [])
      (holds · [(3#5, 0x33#32), (4#5, 0x44#32), (31#5, 0x29#32), (29#5, 0x104#32)]) = true := by decide
theorem test_divs_signed :
    after 0x10611604#32 (two 0xfffffff9#32 0xfffffffe#32) (holds · [(3#5, 3#32), (4#5, 0xffffffff#32), (31#5, 0#32)]) = true := by decide
theorem test_divs_remainder_wins_on_one_slot : after 0x10611603#32 (two 7#32 2#32) (holds · [(3#5, 1#32), (31#5, 0#32)]) = true := by decide
/-- 41_arithmetic.md R168, by the row of divi in L2.1: with IE = 1 the divide-by-zero trap is taken. -/
theorem test_modi_by_zero_with_ie :
    after 0x58610000#32 (boot [(1#5, 9#32), (3#5, 0x33#32), (31#5, 0x02#32)] [])
      (fun t => holds t [(3#5, 0x33#32), (26#5, 0#32), (27#5, 0x100#32), (30#5, 0x7ff0#32), (29#5, 0x8#32), (31#5, 0x22#32)] &&
        wordAt t.mem 0x1fff == 0x104#32 && t.events.head? == some (.softwareInterrupt 0#32)) = true := by decide

theorem test_cmp_signed_and_unsigned :
    after 0x14011000#32 (two 0x7fffffff#32 0x80000000#32) (holds · [(1#5, 0x7fffffff#32), (31#5, 0x19#32)]) = true := by decide
theorem test_cmpi_sign_extends : after 0x5c01ffff#32 (two 5#32 0#32) (holds · [(31#5, 0x01#32)]) = true := by decide

theorem test_and_into_sr : after 0x1bff0800#32 (boot [(1#5, 0xfffffffd#32), (31#5, 0x02#32)] []) (holds · [(31#5, 0x40#32)]) = true := by decide
theorem test_or_keeps_cy_and_ov :
    after 0x1c611000#32 (boot [(1#5, 0x80000000#32), (31#5, 0x09#32)] []) (holds · [(3#5, 0x80000000#32), (31#5, 0x19#32)]) = true := by decide
theorem test_xor_self : after 0x24610800#32 (two 0x1234#32 0#32) (holds · [(3#5, 0#32), (31#5, 0x40#32)]) = true := by decide
theorem test_not : after 0x20600000#32 (two 0#32 0#32) (holds · [(3#5, 0xffffffff#32), (31#5, 0x10#32)]) = true := by decide

/-- mem[0x100] of the load and store vectors, moved to 0x200: 0x100 holds the instruction. -/
def cell : State := boot [(2#5, 0xcafef00d#32)] [(0x200, 0x11223344#32)]

theorem test_l8 : after 0x60200203#32 cell (holds · [(1#5, 0x44#32)]) = true := by decide
theorem test_l16_ignores_bit_0 : after 0x64200201#32 cell (holds · [(1#5, 0x1122#32)]) = true := by decide
theorem test_l32_address_wraps :
    after 0x68220020#32 (boot [(2#5, 0xfffffff0#32)] [(0x10, 0xabcd#32)]) (holds · [(1#5, 0xabcd#32)]) = true := by decide
theorem test_l32_outside_memory : faults 0x68220000#32 (two 0#32 0x8000#32) (.memFault 0x8000#32) = true := by decide
theorem test_s8 : after 0x6c400203#32 cell (fun t => wordAt t.mem 0x80 == 0x1122330d#32) = true := by decide
theorem test_s8_terminal :
    after 0x6c430000#32 (boot [(3#5, 0x80808890#32), (2#5, 0x141#32)] []) (fun t => t.terminal == [0x41#8]) = true := by decide
theorem test_s16 : after 0x70400201#32 cell (fun t => wordAt t.mem 0x80 == 0xf00d3344#32) = true := by decide
theorem test_s16_watchdog_faults :
    faults 0x70430000#32 (boot [(3#5, 0x80808080#32)] []) (.deviceFault 0x80808080#32 2) = true := by decide
theorem test_s32 : after 0x74400203#32 cell (fun t => wordAt t.mem 0x80 == 0xcafef00d#32) = true := by decide
/-- L2.11: the tick of the store's own cycle already counts. -/
theorem test_s32_arms_watchdog :
    after 0x74430000#32 (boot [(3#5, 0x80808080#32), (2#5, 0x80000005#32)] []) (fun t => t.wdt == 0x80000004#32) = true := by decide

theorem test_push_sp_sp :
    after 0x2800079e#32 (two 0#32 0#32) (fun t => holds t [(30#5, 0x7ff4#32)] && wordAt t.mem 0x1fff == 0x7ffc#32 &&
      wordAt t.mem 0x1ffe == 0x7ff8#32) = true := by decide
theorem test_push_gap_ends_the_list :
    after 0x28020040#32 (two 0x11#32 0x22#32) (fun t => holds t [(30#5, 0x7ff8#32)] && wordAt t.mem 0x1fff == 0x11#32 &&
      wordAt t.mem 0x1ffe == 0#32) = true := by decide
theorem test_pop_sp_last :
    after 0x2c000781#32 (boot [(30#5, 0x7ff4#32)] [(0x7ff8, 0xaa#32), (0x7ffc, 0x100#32)]) (holds · [(1#5, 0xaa#32), (30#5, 0x100#32)]) = true := by decide
theorem test_pop_pc_advances :
    after 0x2c000740#32 (boot [(30#5, 0x7ff8#32)] [(0x7ffc, 0x200#32)]) (holds · [(29#5, 0x204#32)]) = true := by decide

/-- 46_stack.md R261, R262, 47_control_transfer.md R288, R289, 92_eei_decisions.md D18, D41: a stack word that is a device word is a
model fault. -/
theorem test_stack_instructions_fault_on_device_words :
    faults 0x28000040#32 (boot [(30#5, 0x80808080#32)] []) (.deviceFault 0x80808080#32 4) = true ∧
    faults 0x2c000040#32 (boot [(30#5, 0x8080807c#32)] []) (.deviceFault 0x80808080#32 4) = true ∧
    faults 0x7c000000#32 (boot [(30#5, 0x8080887c#32)] []) (.deviceFault 0x80808880#32 4) = true ∧
    faults 0x80000000#32 (boot [(30#5, 0x80808888#32)] []) (.deviceFault 0x8080888c#32 4) = true ∧
    faults 0xe7ffffff#32 (boot [(30#5, 0x80808880#32)] []) (.deviceFault 0x80808880#32 4) = true ∧
    faults 0xfc000001#32 (boot [(30#5, 0x80808080#32)] []) (.deviceFault 0x80808080#32 4) = true := by decide

theorem test_bun_backward : after 0xde000000#32 (two 0#32 0#32) (holds · [(29#5, 0xf8000104#32)]) = true := by decide
theorem test_beq_not_taken : after 0xb8000005#32 (two 0#32 0#32) (holds · [(29#5, 0x104#32)]) = true := by decide

/-- Which of the fifteen branches are taken with this SR, in the table's order. -/
def taken (sr : Word) : List Bool :=
  branchTable.map fun row => match exec (row.1 1#26) (boot [(31#5, sr)] []) with
    | .next t => t.reg PC != 0x100#32
    | _ => false

/-- Rows of the truth table of L2.7: bae bat bbe bbt beq bge bgt biv ble blt bne bni bnz bun bzd. -/
theorem test_branch_rows_equal_and_above :
    taken 0x40#32 = [true, false, true, false, true, true, false, false, true, false, false, true, true, true, false] ∧
    taken 0x00#32 = [true, true, false, false, false, true, true, false, false, false, true, true, true, true, false] := by decide
theorem test_branch_rows_below_and_overflow :
    taken 0x11#32 = [false, false, true, true, false, false, false, false, true, true, true, true, true, true, false] ∧
    taken 0x08#32 = [true, true, false, false, false, false, false, false, true, true, true, true, true, true, false] ∧
    taken 0x19#32 = [false, false, true, true, false, true, true, false, false, false, true, true, true, true, false] := by decide
theorem test_branch_rows_iv_and_zd :
    taken 0x04#32 = [true, true, false, false, false, true, true, true, false, false, true, false, true, true, false] ∧
    taken 0x20#32 = [true, true, false, false, false, true, true, false, false, false, true, true, false, true, true] := by decide

theorem test_call_f :
    after 0x7805ffff#32 (boot [(5#5, 0x200#32)] []) (fun t => holds t [(29#5, 0x1fc#32), (30#5, 0x7ff8#32)] &&
      wordAt t.mem 0x1fff == 0x104#32) = true := by decide
theorem test_call_f_through_sp : after 0x781e0000#32 (two 0#32 0#32) (holds · [(29#5, 0x7ffc#32), (30#5, 0x7ff8#32)]) = true := by decide
theorem test_call_s :
    after 0xe7ffffff#32 (two 0#32 0#32) (fun t => holds t [(29#5, 0x100#32), (30#5, 0x7ff8#32)] && wordAt t.mem 0x1fff == 0x104#32) = true := by decide
theorem test_ret : after 0x7c000000#32 (boot [(30#5, 0x7ff8#32)] [(0x7ffc, 0x302#32)]) (holds · [(29#5, 0x302#32), (30#5, 0x7ffc#32)]) = true := by decide
theorem test_reti :
    after 0x80000000#32 (boot [(30#5, 0x7ff0#32), (26#5, 5#32), (27#5, 0x40#32)] [(0x7ff4, 0x1f0#32), (0x7ff8, 0xc1#32), (0x7ffc, 0x48#32)])
      (holds · [(27#5, 0x1f0#32), (26#5, 0xc1#32), (30#5, 0x7ffc#32), (29#5, 0x48#32), (31#5, 0#32)]) = true := by decide

theorem test_cbr_clears_ie : after 0x87e10000#32 (boot [(31#5, 0x43#32)] []) (holds · [(31#5, 0x41#32)]) = true := by decide
theorem test_sbr_ignored_bits : after 0x8464ffff#32 (two 0#32 0#32) (holds · [(3#5, 0x10#32), (31#5, 0#32)]) = true := by decide
theorem test_sbr_pc : after 0x87a20001#32 (two 0#32 0#32) (holds · [(29#5, 0x108#32)]) = true := by decide

/-- L2.9: taken with IE = 0; CR and IPC are stacked. -/
theorem test_int_one :
    after 0xfc000001#32 (boot [(29#5, 0x40#32), (26#5, 0x77#32), (27#5, 0x88#32)] []) (fun t =>
      holds t [(26#5, 1#32), (27#5, 0x40#32), (30#5, 0x7ff0#32), (29#5, 0x0c#32)] && wordAt t.mem 0x1fff == 0x44#32 &&
      wordAt t.mem 0x1ffe == 0x77#32 && wordAt t.mem 0x1ffd == 0x88#32) = true := by decide
theorem test_int_zero_halts :
    after 0xfc000000#32 (boot [(29#5, 0x40#32), (31#5, 0x02#32)] []) (fun t => t.halted && holds t [(29#5, 0x40#32), (31#5, 0x02#32)] &&
      t.eventStream == [.start, .exec 0x40#32 0xfc000000#32, .endRun]) = true := by decide
theorem test_invalid_opcode :
    after 0x44000000#32 (boot [(29#5, 0x40#32)] []) (fun t => holds t [(31#5, 0x04#32), (26#5, 0x11#32), (27#5, 0x40#32), (30#5, 0x7ff0#32),
      (29#5, 0x04#32)] && wordAt t.mem 0x1fff == 0x44#32 && t.events.head? == some (.invalid 0x40#32 0x44000000#32)) = true := by decide
theorem test_fetch_outside_memory :
    fetch (boot [(29#5, 0x8000#32)] []) = .error (.fetchFault 0x8000#32) ∧
    fetch (boot [(29#5, 0x80808080#32)] []) = .error (.fetchFault 0x80808080#32) := by decide

/-! ### The interrupt controller and the watchdog -/

/-- The pending list as (priority, cause, savedPC). -/
def shown (s : State) : List (Nat × Nat × Nat) :=
  s.pending.map fun e => (Param.prioNumber e.prio, e.cause.toNat, e.savedPC.toNat)

/-- The calls of L2.10, in order. -/
def scheduled (l : List (Nat × Word × Word)) : Except Fault State :=
  l.foldl (fun r p => r >>= schedule p.1 p.2.1 p.2.2) (.ok (boot [] []))

theorem test_pending_order_and_duplicate :
    (scheduled [(3, 0xa#32, 0x100#32), (1, 0xb#32, 0x104#32), (3, 0xc#32, 0x108#32), (2, 0xd#32, 0x10c#32), (3, 0xa#32, 0x110#32)]).toOption.map shown =
      some [(1, 0xb, 0x104), (2, 0xd, 0x10c), (3, 0xc, 0x108), (3, 0xa, 0x110)] := by decide
theorem test_priority_five_faults : (scheduled [(5, 0#32, 0#32)]) = .error (.priorityFault 5) := by decide

/-- A pending entry of each class, IE set. -/
def waiting : State :=
  (boot [(31#5, 0x02#32), (29#5, 0x80#32)] []).setPending [⟨.class1, 0xb#32, 0x114#32⟩, ⟨.class2, 0xd#32, 0x10c#32⟩]

/-- L2.10, cycle 0. -/
theorem test_drain_head :
    after 0x08000000#32 waiting (fun t => holds t [(29#5, 0x10#32), (26#5, 0xb#32), (27#5, 0x114#32), (30#5, 0x7ff0#32)] &&
      wordAt t.mem 0x1fff == 0x84#32 && shown t == [(2, 0xd, 0x10c)]) = true := by decide

/-- L2.11, N = 0 with IE = 1: the interrupt enters in the store's own cycle. -/
theorem test_watchdog_enters_at_zero :
    after 0x74430000#32 (boot [(29#5, 0x20#32), (3#5, 0x80808080#32), (2#5, 0x80000000#32), (31#5, 0x02#32)] [])
      (fun t => holds t [(26#5, 0xe1ac04da#32), (27#5, 0x20#32), (29#5, 0x10#32)] && t.wdt == 0#32) = true := by decide
/-- L1.4, cycle 0: with IE = 0 it is queued. -/
theorem test_watchdog_queues :
    after 0x74430000#32 (boot [(29#5, 0#32), (3#5, 0x80808080#32), (2#5, 0x80000000#32)] [])
      (fun t => shown t == [(1, 0xe1ac04da, 0)] && t.wdt == 0#32) = true := by decide

/-! ### Loading and placing -/

theorem test_image_word_one :
    (loadImage [0x11223344#32, 0x55667788#32] State.reset).map (fun t => (wordAt t.mem 0, wordAt t.mem 1, wordAt t.mem 2)) =
      some (0x11223344#32, 0x55667788#32, 0#32) := by decide
theorem test_placed_word_is_fetched : (match fetch (State.reset.withFetchWord 32 0xfc000000) with
    | .ok p => p.1 == 0xfc000000#32
    | .error _ => false) = true := by decide
theorem test_table_word_decodes : decodeTableWord 32 0x08611000 = some (.add 3#5 1#5 2#5) := by decide

/-! ### Witnesses: concrete states and operands that meet the hypotheses of each statement, at the ends of their ranges -/

/-- A computation that answers, and one that ends in a fault. -/
def answers {α : Type} : Except Fault α → Bool
  | .ok _ => true
  | .error _ => false

theorem exists_answer {α : Type} {r : Except Fault α} (h : answers r = true) : ∃ t, r = .ok t := by
  cases r with
  | ok t => exact ⟨t, rfl⟩
  | error _ => simp [answers] at h

/-- Two computations in a row: the first answers and the second does what `b` says. -/
theorem exists_two {α β : Type} {r : Except Fault α} {g : α → Except Fault β} {b : Bool}
    (h : answers r = true) (hb : answers (r >>= g) = b) : ∃ t, r = .ok t ∧ answers (g t) = b := by
  obtain ⟨t, rfl⟩ := exists_answer h
  exact ⟨t, rfl, hb⟩

/-- Words of both kinds (EveryWordIsAnInstructionOrInvalid; InvalidWordsTrap). -/
theorem test_witness_opcodes_assigned_and_not :
    fieldOp 0x30000000#32 ∈ unassignedOpcodes ∧ fieldOp 0xf8ffffff#32 ∈ unassignedOpcodes ∧
    fieldOp 0x00000000#32 ∉ unassignedOpcodes ∧ fieldOp 0xffffffff#32 ∉ unassignedOpcodes := by decide

/-- Every opcode, discriminant and selector bit that a decoding clause names is that of some word. -/
theorem test_witness_every_opcode_has_a_word :
    (∀ op : BitVec 6, fieldOp (packS op 0#26) = op) ∧
    (∀ sub : BitVec 3, fieldOp (packU 0x04#6 0#5 0#5 0#5 (packSub sub 0#5)) = 0x04#6 ∧
      fieldSub (packU 0x04#6 0#5 0#5 0#5 (packSub sub 0#5)) = sub) ∧
    (0x84000000#32).getLsbD 0 = false ∧ (0x84000001#32).getLsbD 0 = true := by decide

/-- IgnoredBitsAreIgnored: two different words. -/
theorem test_witness_ignored_bits :
    fieldOp 0x84600001#32 = fieldOp 0x8460ffff#32 ∧
    0x84600001#32 &&& readMask (fieldOp 0x84600001#32) = 0x8460ffff#32 &&& readMask (fieldOp 0x84600001#32) := by decide

/-- ActiveListIsTheLongestNonzeroPrefix: a list that ends early and one that does not. -/
theorem test_witness_active_lists :
    fieldOp 0x28020040#32 = 0x0a#6 ∧ decode 0x28020040#32 = .ok (.push [1#5]) ∧
    fieldOp 0x2ca32042#32 = 0x0b#6 ∧ decode 0x2ca32042#32 = .ok (.pop [1#5, 2#5, 3#5, 4#5, 5#5]) := by decide

/-- ImageIsLoadedSequentiallyFromAddressZero: the longest image and the shortest that is too long. -/
theorem test_witness_images :
    (List.replicate 8192 1#32).length ≤ 8192 ∧ 8191 < (List.replicate 8192 1#32).length ∧ 8192 < (List.replicate 8193 1#32).length := by
  simp only [List.length_replicate]; decide

/-- RegisterFileReadsBackAndSlotZeroIsZero: decoded lists. -/
theorem test_witness_decoded_lists :
    decode 0x28a32042#32 = .ok (.push [1#5, 2#5, 3#5, 4#5, 5#5]) ∧ decode 0x2c000781#32 = .ok (.pop [30#5, 1#5]) := by decide

/-- A running state with memory, a queued request, an armed watchdog and a used FPU port that meets the invariant. -/
def busy : State :=
  ((boot [] [(0x100, 0x08611000#32), (0x200, 0x11223344#32)]).setPending [⟨.class1, 1#32, 0x40#32⟩, ⟨.class1, 2#32, 0x44#32⟩]).setWdt 0x80000005#32

theorem busy_meets_the_invariant : Inv busy where
  memory := by decide
  sorted := by unfold PendingSorted; decide
  distinct := by unfold PendingDistinct; decide
  noFault := rfl
  events := by unfold EventsMatchHalt; decide
  started := ⟨[], rfl, by decide⟩
  fpu := by unfold FpuRecordOrdered; decide

/-- EveryStepKeepsTheInvariant: a state with the invariant that steps; also OverflowMeansTheExactResultDoesNotFit's kind. -/
theorem test_witness_invariant_step : Inv busy ∧ ∃ t, step busy = .next t := ⟨busy_meets_the_invariant, _, rfl⟩

/-- The backing addresses' ends, and addresses that are neither, or device words (BackingReads…, BackingWrites…, AccessResolution,
DeviceWordsTakeOnlyTheirLegalForms). -/
theorem test_witness_address_classes :
    InBacking 0#32 ∧ InBacking 0x7fff#32 ∧ ¬InBacking 0x8000#32 ∧ ¬InBacking 0xffffffff#32 ∧
    ¬IsDeviceWord 0x7fff#32 ∧ ¬IsDeviceWord 0x8000#32 ∧ ¬IsDeviceWord 0x8080807f#32 ∧ ¬IsDeviceWord 0x80808894#32 ∧
    IsDeviceWord 0x80808080#32 ∧ IsDeviceWord 0x80808083#32 ∧ IsDeviceWord 0x80808893#32 := by decide

/-- DeviceWordsTakeOnlyTheirLegalForms: illegal forms, to the last byte of the last device word. -/
theorem test_witness_illegal_device_forms :
    IsDeviceWord 0x80808081#32 ∧
    ¬(Width.word = .word ∧ 0x80808081#32 ∈ [0x80808080#32, 0x80808880#32, 0x80808884#32, 0x80808888#32, 0x8080888c#32]) ∧
    ¬(Width.half = .word ∧ 0x80808890#32 ∈ [0x80808080#32, 0x80808880#32, 0x80808884#32, 0x80808888#32, 0x8080888c#32]) ∧
    ¬(Width.half = .byte ∧ 0x80808890#32 = 0x80808890#32) ∧ ¬(Width.byte = .byte ∧ 0x80808893#32 = 0x80808890#32) := by decide

/-- AccessResolution: device accesses that are answered. -/
theorem test_witness_device_accesses :
    (∃ u t, memRead 0x80808080#32 .word busy = .ok (u, t)) ∧ (∃ t, memWrite 0x80808890#32 .byte 0x41#32 busy = .ok t) :=
  ⟨⟨_, _, rfl⟩, ⟨_, rfl⟩⟩

/-- OverflowMeansTheExactResultDoesNotFit, BranchesAfterCompareDecideTheOrder and the frames: instructions that answer. -/
theorem test_witness_answering_instructions :
    (∃ t, exec (.add 3#5 1#5 2#5) busy = .next t) ∧ (∃ t, exec (.addi 3#5 1#5 0x8000#16) busy = .next t) ∧
    (∃ t, exec (.sub 3#5 1#5 2#5) busy = .next t) ∧ (∃ t, exec (.subi 3#5 1#5 0x8000#16) busy = .next t) ∧
    (∃ t, exec (.cmp 1#5 2#5) busy = .next t) ∧ (∃ t, exec (.cmpi 1#5 0x8000#16) busy = .next t) :=
  ⟨⟨_, rfl⟩, ⟨_, rfl⟩, ⟨_, rfl⟩, ⟨_, rfl⟩, ⟨_, rfl⟩, ⟨_, rfl⟩⟩

/-- DivisionByNonzeroWritesQuotientAndRemainder: divisors 1 and -1, by register and by immediate. -/
theorem test_witness_nonzero_divisors :
    (two 0x80000000#32 1#32).reg 2#5 ≠ 0#32 ∧ (two 0x80000000#32 0xffffffff#32).reg 2#5 ≠ 0#32 ∧ (0xffff#16 : BitVec 16) ≠ 0#16 ∧
    (1#16 : BitVec 16) ≠ 0#16 := by decide

/-- DivisionByZeroSetsZdAndTrapsOnlyWithIe: with IE clear, and with IE set and room on the stack. -/
theorem test_witness_division_by_zero :
    (two 5#32 0#32).reg 2#5 = 0#32 ∧ (two 5#32 0#32).flag .ie = false ∧
    Instr.modi 3#5 1#5 0#16 ∈ [Instr.div 3#5 1#5 2#5 4#5, .divs 3#5 1#5 2#5 4#5, .divi 3#5 1#5 0#16, .modi 3#5 1#5 0#16] ∧
    (boot [(31#5, 0x02#32)] []).reg 2#5 = 0#32 ∧ (boot [(31#5, 0x02#32)] []).flag .ie = true ∧ StackRoom (boot [(31#5, 0x02#32)] []) := by
  decide

/-- LoadsFromBackingMemory, StoresToBackingMemory: effective addresses 0 and 0x7FFF, the first by wrapping. -/
theorem test_witness_effective_addresses :
    InBacking ((two 1#32 0#32).reg 1#5 + BitVec.ofInt 32 (0xffff#16).toInt) ∧
    InBacking ((two 0#32 0#32).reg 1#5 + BitVec.ofInt 32 (0x7fff#16).toInt) := by decide

/-- LoadsAndStoresFaultWhereNoAccessExists: each clause's addresses. -/
theorem test_witness_faulting_and_device_addresses :
    (¬InBacking ((two 0#32 0#32).reg 1#5 + BitVec.ofInt 32 (0xffff#16).toInt) ∧
      ¬IsDeviceWord ((two 0#32 0#32).reg 1#5 + BitVec.ofInt 32 (0xffff#16).toInt)) ∧
    (IsDeviceWord ((two 0x80808081#32 0#32).reg 1#5 + BitVec.ofInt 32 (0#16).toInt) ∧
      (two 0x80808081#32 0#32).reg 1#5 + BitVec.ofInt 32 (0#16).toInt ≠ 0x80808890#32 ∧
      (two 0x80808081#32 0#32).reg 1#5 + BitVec.ofInt 32 (0#16).toInt ∉
        [0x80808080#32, 0x80808880#32, 0x80808884#32, 0x80808888#32, 0x8080888c#32]) := by decide

/-- LoadsAndStoresReachTheDevices: every address of its clauses is some effective address. -/
theorem test_witness_device_addresses :
    ([0x80808080#32, 0x80808880#32, 0x80808884#32, 0x80808888#32, 0x8080888c#32, 0x80808890#32].all fun a =>
      (two a 0#32).reg 1#5 + BitVec.ofInt 32 (0#16).toInt == a) = true := by decide

/-- The stack's ends: SP = 8 and 0x7FFF leave room for three words; 4, 0 and 0x8000 do not (EntryProtocol, RetiUndoesTheEntry,
IntHaltsOrTraps, RequestsEnterAtOnceWhileIeIsSet, DrainEntersTheHead, WatchdogTick). -/
theorem test_witness_stack_room :
    StackRoom (boot [(30#5, 8#32)] []) ∧ StackRoom (boot [(30#5, 0x7fff#32)] []) ∧ ¬StackRoom (boot [(30#5, 4#32)] []) ∧
    ¬StackRoom (boot [(30#5, 0x8000#32)] []) := by decide

/-- PushAndPopAreWordAccessesAtSp: the ends of memory, past them, and a device word. -/
theorem test_witness_push_and_pop :
    InBacking ((boot [(30#5, 0#32)] []).reg SP) ∧ InBacking ((boot [(30#5, 0x7fff#32)] []).reg SP) ∧
    ¬InBacking ((boot [(30#5, 0x8000#32)] []).reg SP) ∧ ¬InBacking ((boot [(30#5, 0x80808080#32)] []).reg SP) ∧
    InBacking ((boot [(30#5, 0xfffffffc#32)] []).reg SP + 4#32) ∧ ¬InBacking ((boot [] []).reg SP + 4#32) := by decide

/-- EntryProtocol: each word may be the one outside memory, and all three pushes may be answered. -/
theorem test_witness_entry_pushes :
    ¬InBacking ((boot [(30#5, 0x80808080#32)] []).reg SP) ∧
    (InBacking ((boot [(30#5, 0#32)] []).reg SP) ∧ ¬InBacking ((boot [(30#5, 0#32)] []).reg SP - 4#32)) ∧
    (InBacking ((boot [(30#5, 4#32)] []).reg SP) ∧ InBacking ((boot [(30#5, 4#32)] []).reg SP - 4#32) ∧
      ¬InBacking ((boot [(30#5, 4#32)] []).reg SP - 8#32)) ∧
    (∃ s1 s2 s3, push ((boot [(30#5, 8#32)] []).reg PC + 4#32) (boot [(30#5, 8#32)] []) = .ok s1 ∧
      push ((boot [(30#5, 8#32)] []).reg CR) s1 = .ok s2 ∧ push ((boot [(30#5, 8#32)] []).reg IPC) s2 = .ok s3) :=
  ⟨by decide, by decide, by decide, ⟨_, _, _, rfl, rfl, rfl⟩⟩

/-- PushStoresTheListDownward: the ends of memory and past them, a device word; five registers, SP among them, down to address
0. -/
theorem test_witness_push_list :
    InBacking ((boot [(30#5, 0x7fff#32)] []).reg SP) ∧ ¬InBacking ((boot [(30#5, 0x8000#32)] []).reg SP) ∧
    ¬InBacking ((boot [(30#5, 0x80808080#32)] []).reg SP) ∧ IsDeviceWord ((boot [(30#5, 0x80808080#32)] []).reg SP) ∧
    (Instr.push [1#5, 30#5, 3#5, 31#5, 5#5]).wellFormed = true ∧
    ∀ k < 5, InBacking ((boot [(30#5, 0x10#32)] []).reg SP - BitVec.ofNat 32 (4 * k)) := by decide

/-- PopLoadsTheListLastToFirst: SP = -4 pops from address 0, SP = 0x7FFC past memory, SP = 0x8080887C from a device word; five distinct registers up to the top word. -/
theorem test_witness_pop_list :
    InBacking ((boot [(30#5, 0xfffffffc#32)] []).reg SP + 4#32) ∧ ¬InBacking ((boot [(30#5, 0x7ffc#32)] []).reg SP + 4#32) ∧
    ¬InBacking ((boot [(30#5, 0x8080887c#32)] []).reg SP + 4#32) ∧ (Instr.pop [1#5, 29#5, 3#5, 31#5, 5#5]).wellFormed = true ∧
    SP ∉ [1#5, 29#5, 3#5, 31#5, 5#5] ∧ [1#5, 29#5, 3#5, 31#5, 5#5].Nodup ∧
    ∀ k < 5, InBacking ((boot [(30#5, 0x7fe8#32)] []).reg SP + BitVec.ofNat 32 (4 * (k + 1))) := by decide

/-- `t` with the byte at 0x7FF0, below the stacked words of the two witnesses here, changed. -/
def scribbled (t : State) : State := t.setMem (t.mem.write 0x7ff0 (t.mem.read 0x7ff0 + 1#8))

theorem scribbled_differs (t : State) : (scribbled t).mem.read 0x7ff0 ≠ t.mem.read 0x7ff0 := by
  have h : ∀ b : Byte, b + 1#8 ≠ b := by decide
  simp [scribbled, h]

theorem scribbled_wordAt (t : State) {i : Nat} (h : i ≠ 0x1ffc) : wordAt (scribbled t).mem i = wordAt t.mem i := by
  simp only [wordAt, scribbled, State.setMem_mem, Memory.read_write]
  rw [if_neg (by omega), if_neg (by omega), if_neg (by omega), if_neg (by omega)]

/-- PushThenPopRestoresTheList: a push, and a state it leaves in which a register of the list and a byte of memory have changed. -/
theorem test_witness_push_then_pop :
    (Instr.push [1#5, 2#5]).wellFormed = true ∧ SP ∉ [1#5, 2#5] ∧
    (∀ k < 2, InBacking ((two 7#32 9#32).reg SP - BitVec.ofNat 32 (4 * k))) ∧
    ∃ t u : State, exec (.push [1#5, 2#5]) (two 7#32 9#32) = .next t ∧ u.reg SP = t.reg SP ∧ u.reg 1#5 = 0#32 ∧
      u.mem.read 0x7ff0 ≠ t.mem.read 0x7ff0 ∧
      (∀ k < 2, wordAt u.mem (((two 7#32 9#32).reg SP - BitVec.ofNat 32 (4 * k)).toNat / 4) =
        wordAt t.mem (((two 7#32 9#32).reg SP - BitVec.ofNat 32 (4 * k)).toNat / 4)) :=
  have h : ∀ k < 2, ((two 7#32 9#32).reg SP - BitVec.ofNat 32 (4 * k)).toNat / 4 ≠ 0x1ffc := by decide
  let ⟨t, ht⟩ := exists_answer (r := pushList [1#5, 2#5] (two 7#32 9#32)) (by decide)
  ⟨by decide, by decide, by decide, t, (scribbled t).writeReg 1#5 0#32, finish_eq_next.2 ht, State.reg_writeReg_of_ne _ (by decide) _,
    State.reg_writeReg_self _ (by decide) _, by simpa using scribbled_differs t,
    fun k hk => by simpa using scribbled_wordAt t (h k hk)⟩

/-- BranchesTestSrAndMoveThePc, BranchesAfterCompareDecideTheOrder: rows of the two tables. -/
theorem test_witness_branch_rows : branchTable.length = 15 ∧ comparingBranches.length = 10 := by decide

/-- CallsPushTheReturnAddress (a push that answers stands in test_witness_entry_pushes) and ReturnsPopThePc: the stack at both
ends of memory and past it, and each pop of reti past it. -/
theorem test_witness_calls_and_returns :
    ¬InBacking ((boot [(30#5, 0x8000#32)] []).reg SP) ∧
    InBacking ((boot [(30#5, 0#32)] []).reg SP) ∧ InBacking ((boot [(30#5, 0xfffffffc#32)] []).reg SP + 4#32) ∧
    InBacking ((boot [(30#5, 0x7ff3#32)] []).reg SP + 4#32) ∧ InBacking ((boot [(30#5, 0x7ff3#32)] []).reg SP + 8#32) ∧
    InBacking ((boot [(30#5, 0x7ff3#32)] []).reg SP + 12#32) ∧ ¬InBacking ((boot [(30#5, 0x7ffc#32)] []).reg SP + 4#32) ∧
    InBacking ((boot [(30#5, 0x7ff8#32)] []).reg SP + 4#32) ∧ ¬InBacking ((boot [(30#5, 0x7ff8#32)] []).reg SP + 8#32) ∧
    InBacking ((boot [(30#5, 0x7ff4#32)] []).reg SP + 4#32) ∧ InBacking ((boot [(30#5, 0x7ff4#32)] []).reg SP + 8#32) ∧
    ¬InBacking ((boot [(30#5, 0x7ff4#32)] []).reg SP + 12#32) := by decide

/-- RetiUndoesTheEntry: an entry, and a state it leaves in which a handler has changed SR and a byte of memory. -/
theorem test_witness_reti :
    StackRoom (boot [] []) ∧ ∃ t u : State, enter 5#32 0x10#32 0x100#32 (boot [] []) = .ok t ∧ u.reg SP = t.reg SP ∧
      u.reg SR = 0x40#32 ∧ u.mem.read 0x7ff0 ≠ t.mem.read 0x7ff0 ∧
      (∀ a ∈ [(boot [] []).reg SP, (boot [] []).reg SP - 4#32, (boot [] []).reg SP - 8#32],
        wordAt u.mem (a.toNat / 4) = wordAt t.mem (a.toNat / 4)) :=
  have h : ∀ a ∈ [(boot [] []).reg SP, (boot [] []).reg SP - 4#32, (boot [] []).reg SP - 8#32], a.toNat / 4 ≠ 0x1ffc := by
    simp only [List.forall_mem_cons]
    exact ⟨by decide, by decide, by decide, List.forall_mem_nil _⟩
  let ⟨t, ht⟩ := exists_answer (r := enter 5#32 0x10#32 0x100#32 (boot [] [])) (by decide)
  ⟨by decide, t, (scribbled t).writeReg SR 0x40#32, ht, State.reg_writeReg_of_ne _ (by decide) _,
    State.reg_writeReg_self _ (by decide) _, by simpa using scribbled_differs t,
    fun a ha => by simpa using scribbled_wordAt t (h a ha)⟩

/-- InvalidWordsTrap: a state that fetches an invalid word. -/
theorem test_witness_invalid_fetched :
    ∃ s s1, s.fault = none ∧ s.halted = false ∧ fetch s = .ok (0xf8000000#32, s1) ∧ fieldOp 0xf8000000#32 ∈ unassignedOpcodes ∧ StackRoom s :=
  ⟨boot [] [(0x100, 0xf8000000#32)], _, rfl, rfl, rfl, by decide, by decide⟩

/-- RequestsAreQueuedInOrderWhileIeIsClear, DuplicateRequestsCollapse: a queue that holds the pair already. -/
theorem test_witness_queue :
    busy.flag .ie = false ∧ PendingSorted busy.pending ∧ PendingDistinct busy.pending ∧
    ∃ t u, schedule (Param.prioNumber .class1) 1#32 0x50#32 busy = .ok t ∧ schedule (Param.prioNumber .class1) 1#32 0x54#32 t = .ok u :=
  let ⟨t, ht, h⟩ := exists_two (r := schedule (Param.prioNumber .class1) 1#32 0x50#32 busy)
    (g := schedule (Param.prioNumber .class1) 1#32 0x54#32) (b := true) (by decide) (by decide)
  let ⟨u, hu⟩ := exists_answer h
  ⟨by decide, busy_meets_the_invariant.sorted, busy_meets_the_invariant.distinct, t, u, ht, hu⟩

/-- RequestsEnterAtOnceWhileIeIsSet, DrainEntersTheHead. -/
theorem test_witness_entering :
    waiting.flag .ie = true ∧ StackRoom waiting ∧
    waiting.pending = ⟨.class1, 0xb#32, 0x114#32⟩ :: [⟨.class2, 0xd#32, 0x10c#32⟩] ∧ busy.flag .ie = false ∧ (boot [] []).pending = [] := by
  decide

/-- PrioritiesOutsideTheClassesFault: both sides of the range. -/
theorem test_witness_priorities : 0 ∉ [1, 2, 3, 4] ∧ 5 ∉ [1, 2, 3, 4] ∧ 1 ∈ [1, 2, 3, 4] ∧ 4 ∈ [1, 2, 3, 4] := by decide

/-- A state with IE and this watchdog word. -/
def dog (ie wdt : Word) : State := (boot [(31#5, ie)] []).setWdt wdt

/-- WatchdogTick: each clause at an end of its range; also a request that faults. -/
theorem test_witness_watchdog :
    (dog 0#32 0x7fffffff#32).wdt.toNat < 2 ^ 31 ∧ 2 ^ 31 < (dog 0#32 0x80000001#32).wdt.toNat ∧
    (dog 0#32 0x80000000#32).wdt.toNat = 2 ^ 31 ∧ (dog 0#32 0x80000000#32).flag .ie = false ∧
    (dog 2#32 0x80000000#32).flag .ie = true ∧ StackRoom (dog 2#32 0x80000000#32) ∧
    (∃ u, schedule 1 0xe1ac04da#32 ((dog 2#32 0x80000000#32).reg PC) (dog 2#32 0x80000000#32) = .ok u) ∧
    (∃ f, schedule 1 0xe1ac04da#32 (((dog 2#32 0x80000000#32).writeReg SP 0x8000#32).reg PC)
      ((dog 2#32 0x80000000#32).writeReg SP 0x8000#32) = .error f) :=
  ⟨by decide, by decide, by decide, by decide, by decide, by decide, ⟨_, rfl⟩, ⟨_, rfl⟩⟩

/-- WatchdogCountsDownOneATick: no tick, and all of them. -/
theorem test_witness_countdown :
    2 ^ 31 ≤ (dog 0#32 0x80000000#32).wdt.toNat ∧ 0 ≤ (dog 0#32 0x80000000#32).wdt.toNat - 2 ^ 31 ∧
    2 ^ 31 ≤ (dog 0#32 0x80000003#32).wdt.toNat ∧ 3 ≤ (dog 0#32 0x80000003#32).wdt.toNat - 2 ^ 31 := by decide

/-- FpuTickSchedulesTheAnswer: an FPU that no call has engaged, and one that a call has; phases before the tick that answer; a
halted state. -/
theorem test_witness_fpu_ports :
    busy.fpu.engaged = false ∧ (fpuWrite .ctrl 1#32 busy).fpu.engaged = true ∧
    (∃ d e, drain busy = .ok d ∧ wdtTick d = .ok e) ∧ busy.halt.halted = true :=
  ⟨rfl, rfl, ⟨_, _, rfl, rfl⟩, rfl⟩

/-- FetchReadsTheWordAtPc, StepRunsTheDecodedInstruction: PC at the ends of memory and outside it. -/
theorem test_witness_fetches :
    InBacking ((boot [(29#5, 0#32)] []).reg PC) ∧ InBacking ((boot [(29#5, 0x7fff#32)] []).reg PC) ∧
    ¬InBacking ((boot [(29#5, 0x8000#32)] []).reg PC) ∧
    ∃ x, fetch (boot [(29#5, 0x8000#32)] []) = .error x :=
  ⟨by decide, by decide, by decide, _, rfl⟩

/-- StepRunsTheDecodedInstruction: an instruction that halts, one whose phases all answer, and one that faults. -/
theorem test_witness_step_clauses :
    (∃ s s1 u, s.fault = none ∧ s.halted = false ∧ fetch s = .ok (0xfc000000#32, s1) ∧ decode 0xfc000000#32 = .ok (.int 0#26) ∧
      exec (.int 0#26) s1 = .next u ∧ u.halted = true) ∧
    (∃ s1 u d e, busy.fault = none ∧ busy.halted = false ∧ fetch busy = .ok (0x08611000#32, s1) ∧
      decode 0x08611000#32 = .ok (.add 3#5 1#5 2#5) ∧ exec (.add 3#5 1#5 2#5) s1 = .next u ∧ u.halted = false ∧ drain u = .ok d ∧
      wdtTick d = .ok e) ∧
    (∃ s s1 x, s.fault = none ∧ s.halted = false ∧ fetch s = .ok (0x7c000000#32, s1) ∧ decode 0x7c000000#32 = .ok .ret ∧
      exec .ret s1 = .fault x) :=
  ⟨⟨boot [] [(0x100, 0xfc000000#32)], _, _, rfl, rfl, rfl, rfl, rfl, rfl⟩, ⟨_, _, _, _, rfl, rfl, rfl, rfl, rfl, rfl, rfl, rfl⟩,
   ⟨boot [] [(0x100, 0x7c000000#32)], _, _, rfl, rfl, rfl, rfl, rfl⟩⟩

/-- StepRunsTheDecodedInstruction: a drain and a watchdog tick that fault. -/
theorem test_witness_phases_that_fault :
    (∃ s s1 u x, s.fault = none ∧ s.halted = false ∧ fetch s = .ok (0#32, s1) ∧ decode 0#32 = .ok (.mov 0#5 0#21) ∧
      exec (.mov 0#5 0#21) s1 = .next u ∧ u.halted = false ∧ drain u = .error x) ∧
    (∃ s s1 u d x, s.fault = none ∧ s.halted = false ∧ fetch s = .ok (0#32, s1) ∧ decode 0#32 = .ok (.mov 0#5 0#21) ∧
      exec (.mov 0#5 0#21) s1 = .next u ∧ u.halted = false ∧ drain u = .ok d ∧ wdtTick d = .error x) :=
  ⟨⟨waiting.writeReg SP 0x8000#32, _, _, _, rfl, rfl, rfl, rfl, rfl, rfl, rfl⟩,
   ⟨(dog 2#32 0x80000000#32).writeReg SP 0x8000#32, _, _, _, _, rfl, rfl, rfl, rfl, rfl, rfl, rfl, rfl⟩⟩

/-- QuietStepAdvancesThePcByFour: entries pending while IE is clear, and the largest word with EN clear. -/
theorem test_witness_quiet_step :
    ∃ s s1 u, s.fault = none ∧ s.halted = false ∧ fetch s = .ok (0x08611000#32, s1) ∧ decode 0x08611000#32 = .ok (.add 3#5 1#5 2#5) ∧
      exec (.add 3#5 1#5 2#5) s1 = .next u ∧ u.halted = false ∧ (u.flag .ie = false ∨ u.pending = []) ∧ u.wdt.toNat < 2 ^ 31 ∧
      (Param.fpuModel.tick u.fpu).1 = none :=
  ⟨busy.setWdt 0x7fffffff#32, _, _, rfl, rfl, rfl, rfl, rfl, rfl, .inl (by decide), by decide, rfl⟩

/-- IntZeroEndsTheCycleAtOnce, OnlyIntZeroHalts: a state that runs `int 0`. -/
theorem test_witness_int_zero :
    ∃ s t, s.fault = none ∧ s.halted = false ∧ InBacking (s.reg PC) ∧ wordAt s.mem ((s.reg PC).toNat / 4) = 0xfc000000#32 ∧
      step s = .next t ∧ t.halted = true :=
  ⟨boot [] [(0x100, 0xfc000000#32)], _, rfl, rfl, by decide, by decide, rfl, rfl⟩

/-- HaltedStatesStand: a halted state, and a state with a mark. -/
theorem test_witness_halted_and_marked :
    busy.halt.fault = none ∧ busy.halt.halted = true ∧
    ∃ (s : State) (f : Fault), s.fault = some f :=
  ⟨rfl, rfl, { busy with fault := some (.memFault 0#32) }, _, rfl⟩

/-- The frames: a register outside the written ones, an instruction that cannot store, one without SR among its destinations. -/
theorem test_witness_frames :
    (∃ t, exec (.add 3#5 1#5 2#5) busy = .next t) ∧ 4#5 ∉ destRegs (.add 3#5 1#5 2#5) ∧ 4#5 ∉ implicitRegs (.add 3#5 1#5 2#5) ∧
    canStore (.add 3#5 1#5 2#5) = false ∧ SR ∉ destRegs (.add 3#5 1#5 2#5) ∧
    (∃ t, invalidTrap 0x30000000#32 busy = .ok t) ∧ ∃ t, afterExecute busy = .ok t :=
  ⟨⟨_, rfl⟩, by decide, by decide, by decide, by decide, ⟨_, rfl⟩, ⟨_, rfl⟩⟩

/-- EveryCycleEmitsExecFirst. -/
theorem test_witness_running_step : busy.halted = false ∧ ∃ t, step busy = .next t := ⟨rfl, _, rfl⟩

end Sys2Proof.Tests
end

section
/-! PROOFS. The scope family, 00_scope.md: which registers an instruction writes (rules R14, R19), and what writing a flag does
to SR (rule R15). -/

namespace Sys2Proof.Machine

/-! ### Writing one flag -/

/-- Nothing written yet. -/
theorem Wrote.refl (s : State) : Wrote s s [] [] :=
  ⟨fun _ _ => rfl, by simp, fun _ _ _ => rfl, fun _ => rfl, ⟨rfl, rfl, rfl⟩, ⟨rfl, rfl, rfl⟩⟩

/-- One more flag written, one not written before, adds its bit of SR to what was written (R15). -/
theorem Wrote.setFlag {s t : State} {ws : List (RegIdx × Word)} {fs : List (Flag × Bool)} {f : Flag} (h : Wrote s t ws fs)
    (hf : ∀ p ∈ fs, p.1 ≠ f) (b : Bool) : Wrote s (t.setFlag f b) ws (fs ++ [(f, b)]) := by
  obtain ⟨hregs, hflags, hbits, hmem, hcontrol, hdevices⟩ := h
  refine ⟨fun r hr => ?_, fun p hp => ?_, fun j hj hfree => ?_, by simpa [SameMem] using hmem,
    by simpa [SameControl] using hcontrol, by simpa [SameDevices] using hdevices⟩
  · rw [State.reg_setFlag, if_neg hr, hregs r hr]
  · rw [State.flag_setFlag]
    rcases List.mem_append.1 hp with hold | hnew
    · rw [if_neg (hf p hold), hflags p hold]
    · rw [List.mem_singleton.1 hnew, if_pos rfl]
  · have hjf : j ≠ Param.srPos f := (hfree (f, b) (by simp)).symm
    rw [State.reg_setFlag, if_pos rfl, getLsbD_putBit, if_neg fun e => hjf e.1]
    exact hbits j hj fun p hp => hfree p (List.mem_append_left _ hp)

/-- Settles O10: the positions are those of the record, and one flag write from a state is `Wrote.setFlag` on nothing written. -/
theorem flagWriteChangesOneBitOfSr : Obligations.FlagWriteChangesOneBitOfSr :=
  ⟨fun _ => ⟨rfl, rfl, rfl, rfl, rfl, rfl, rfl⟩, fun s _ b => (Wrote.refl s).setFlag (by simp) b⟩

/-! ### The frame of the registers, and how it composes -/

/-- Every register outside the list `l` reads as before. -/
def SameRegsOutside (l : List RegIdx) (s t : State) : Prop := ∀ r, r ∉ l → t.reg r = s.reg r

theorem SameRegsOutside.refl (l : List RegIdx) (s : State) : SameRegsOutside l s s := fun _ _ => rfl

theorem SameRegs.outside {s t : State} (h : SameRegs s t) (l : List RegIdx) : SameRegsOutside l s t := fun r _ => h r

theorem SameRegsOutside.trans {l l' : List RegIdx} {s t u : State} (h : SameRegsOutside l s t)
    (h' : SameRegsOutside l' t u) : SameRegsOutside (l ++ l') s u := fun r hr => by
  obtain ⟨hl, hl'⟩ := not_or.1 fun e => hr (List.mem_append.2 e)
  rw [h' r hl', h r hl]

theorem SameRegsOutside.mono {l l' : List RegIdx} {s t : State} (h : SameRegsOutside l s t) (hl : l ⊆ l') :
    SameRegsOutside l' s t := fun r hr => h r fun e => hr (hl e)

/-! ### The frame of each update and shared operation -/

/-- Changing SR alone, as each of the flag computations does. -/
theorem frame_of_ne_SR {s t : State} (h : ∀ {k : RegIdx}, k ≠ SR → t.reg k = s.reg k) : SameRegsOutside [SR] s t :=
  fun _ hr => h (List.ne_of_not_mem_cons hr)

theorem writeReg_frame (s : State) (r : RegIdx) (v : Word) : SameRegsOutside [r] s (s.writeReg r v) :=
  fun _ hq => State.reg_writeReg_of_ne s (List.ne_of_not_mem_cons hq) v

theorem jump_frame (s : State) (a : Word) : SameRegsOutside [PC] s (s.jump a) := writeReg_frame s PC _

theorem setFlag_frame (s : State) (f : Flag) (b : Bool) : SameRegsOutside [SR] s (s.setFlag f b) := writeReg_frame s SR _

theorem writePair_frame (a b : RegIdx) (v w : Word) (s : State) : SameRegsOutside [a, b] s (writePair a b v w s) :=
  (writeReg_frame s a v).trans (writeReg_frame _ b w)

theorem push_frame {v : Word} {s t : State} (h : push v s = .ok t) : SameRegsOutside [SP] s t :=
  fun r hr => by rw [push_reg h, if_neg (List.ne_of_not_mem_cons hr)]

theorem pop_frame {v : Word} {s t : State} (h : pop s = .ok (v, t)) : SameRegsOutside [SP] s t :=
  fun r hr => by rw [pop_reg h, if_neg (List.ne_of_not_mem_cons hr)]

theorem popInto_frame {r : RegIdx} {s t : State} (h : popInto r s = .ok t) : SameRegsOutside [SP, r] s t := by
  obtain ⟨⟨v, u⟩, hpop, h⟩ := bind_eq_ok.1 h
  cases h
  exact (pop_frame hpop).trans (writeReg_frame u r v)

theorem pushList_frame {regs : List RegIdx} {s t : State} (h : pushList regs s = .ok t) : SameRegsOutside [SP] s t := by
  induction regs generalizing s with
  | nil =>
    cases h
    exact SameRegsOutside.refl _ _
  | cons r rs ih =>
    obtain ⟨u, hpush, hrest⟩ := bind_eq_ok.1 h
    exact ((push_frame hpush).trans (ih hrest)).mono (by simp)

theorem popList_frame {regs : List RegIdx} {s t : State} (h : popList regs s = .ok t) :
    SameRegsOutside (SP :: regs) s t := by
  induction regs generalizing s with
  | nil =>
    cases h
    exact SameRegsOutside.refl _ _
  | cons r rs ih =>
    obtain ⟨u, hpop, hrest⟩ := bind_eq_ok.1 h
    exact ((popInto_frame hpop).trans (ih hrest)).mono (by simp)

/-- The entry protocol changes SP, CR, IPC and the PC alone (60_exceptions.md R322, R323). -/
theorem enter_frame {cause vector ipcval : Word} {s t : State} (h : enter cause vector ipcval s = .ok t) :
    SameRegsOutside [SP, CR, IPC, PC] s t := by
  obtain ⟨s1, s2, s3, h1, h2, h3, rfl⟩ := enter_eq_ok.1 h
  have hpushes := ((push_frame h1).trans (push_frame h2)).trans (push_frame h3)
  have hwrites := ((writeReg_frame s3 CR cause).trans (writeReg_frame _ IPC ipcval)).trans (jump_frame _ vector)
  exact (hpushes.trans hwrites).mono (by simp)

theorem softwareInterrupt_frame {c : Word} {s t : State} (h : softwareInterrupt c s = .ok t) :
    SameRegsOutside [SP, CR, IPC, PC] s t := enter_frame (s := s.emit _) h

/-- A division by zero writes ZD, and with IE = 1 enters the trap (60_exceptions.md R325). -/
theorem divideByZero_cases {s t : State} (h : divideByZero s = .ok t) :
    t = s.setFlag .zd true ∨
      enter Param.causeDivZero Param.vecDivZero ((s.setFlag .zd true).reg PC)
        ((s.setFlag .zd true).emit (.softwareInterrupt Param.causeDivZero)) = .ok t := by
  unfold divideByZero at h
  dsimp only at h
  split at h
  · exact .inr h
  · cases h
    exact .inl rfl

theorem divideByZero_frame {s t : State} (h : divideByZero s = .ok t) : SameRegsOutside [SR, SP, CR, IPC, PC] s t := by
  have hflag := setFlag_frame s .zd true
  rcases divideByZero_cases h with rfl | henter
  · exact hflag.mono (by simp)
  · exact hflag.trans (enter_frame (s := (s.setFlag .zd true).emit _) henter)

/-- The return from an interrupt pops IPC, CR and the address it continues at (60_exceptions.md R327). -/
theorem returnFromInterrupt_frame {s t : State} (h : returnFromInterrupt s = .ok t) :
    SameRegsOutside [SP, IPC, CR, PC] s t := by
  obtain ⟨s1, hipc, h⟩ := bind_eq_ok.1 h
  obtain ⟨s2, hcr, h⟩ := bind_eq_ok.1 h
  obtain ⟨⟨a, s3⟩, hpop, h⟩ := bind_eq_ok.1 h
  cases h
  exact ((((popInto_frame hipc).trans (popInto_frame hcr)).trans (pop_frame hpop)).trans (jump_frame s3 a)).mono (by simp)

theorem returnFromCall_frame {s t : State} (h : returnFromCall s = .ok t) : SameRegsOutside [SP, PC] s t := by
  obtain ⟨⟨a, u⟩, hpop, h⟩ := bind_eq_ok.1 h
  cases h
  exact (pop_frame hpop).trans (jump_frame u a)

theorem callTo_frame {a : Word} {s t : State} (h : callTo a s = .ok t) : SameRegsOutside [SP, PC] s t := by
  obtain ⟨u, hpush, h⟩ := bind_eq_ok.1 h
  cases h
  exact (push_frame hpush).trans (jump_frame u a)

theorem loadInto_frame {n : Width} {z x : RegIdx} {imm : BitVec 16} {s t : State} (h : loadInto n z x imm s = .ok t) :
    SameRegsOutside [z] s t := by
  obtain ⟨⟨v, u⟩, hread, h⟩ := bind_eq_ok.1 h
  cases h
  exact (SameRegs.outside (memRead_reg hread) []).trans (writeReg_frame u z v)

theorem storeFrom_frame {n : Width} {z x : RegIdx} {imm : BitVec 16} {s t : State} (h : storeFrom n z x imm s = .ok t) :
    SameRegsOutside [] s t := SameRegs.outside (memWrite_reg h) []

/-! ### The frame of each shape of instruction -/

theorem branchIf_frame {cond : Bool} {imm : BitVec 26} {s t : State} (h : branchIf cond imm s = .next t) :
    SameRegsOutside [PC] s t := by
  unfold branchIf at h
  split at h
  · cases h
    exact jump_frame s _
  · cases h
    exact SameRegsOutside.refl _ _

theorem addInto_frame {z : RegIdx} {a b : Word} {s t : State} (h : addInto z a b s = .next t) :
    SameRegsOutside [z, SR] s t := by
  cases h
  exact (writeReg_frame s z _).trans (frame_of_ne_SR (addFlags_reg_of_ne _ a b))

theorem subInto_frame {z : RegIdx} {a b : Word} {s t : State} (h : subInto z a b s = .next t) :
    SameRegsOutside [z, SR] s t := by
  cases h
  exact (writeReg_frame s z _).trans (frame_of_ne_SR (subFlags_reg_of_ne _ a b))

theorem logicInto_frame {z : RegIdx} {v : Word} {s t : State} (h : logicInto z v s = .next t) :
    SameRegsOutside [z, SR] s t := by
  cases h
  exact (writeReg_frame s z v).trans (frame_of_ne_SR (logicFlags_reg_of_ne _ v))

theorem wideUnsigned_frame (a b : RegIdx) (v w : Word) (r : BitVec 64) (s : State) :
    SameRegsOutside [a, b, SR] s (wideUnsignedFlags r (writePair a b v w s)) :=
  (writePair_frame a b v w s).trans (frame_of_ne_SR (wideUnsignedFlags_reg_of_ne _ r))

theorem wideSigned_frame (a b : RegIdx) (v w : Word) (r : BitVec 64) (s : State) :
    SameRegsOutside [a, b, SR] s (wideSignedFlags r (writePair a b v w s)) :=
  (writePair_frame a b v w s).trans (frame_of_ne_SR (wideSignedFlags_reg_of_ne _ r))

/-- A division either traps on the zero divisor or writes its results: both stay within a list that holds SR, what the entry
protocol writes, and the destinations `ds`. -/
theorem division_frame {ds : List RegIdx} {b : Word} {s u t : State} (hu : SameRegsOutside (ds ++ [SR]) s u)
    (h : (if b = 0#32 then finish (divideByZero s) else .next u) = .next t) :
    SameRegsOutside (ds ++ [SR, SP, CR, IPC, PC]) s t := by
  split at h
  · exact (divideByZero_frame (finish_eq_next.1 h)).mono (by simp)
  · cases h
    exact hu.mono (by simp)

/-- `int` halts, which writes no register, or takes the software-interrupt trap (49_software_trap.md R310). -/
theorem execInt_frame {imm : BitVec 26} {s t : State} (h : execInt imm s = .next t) :
    SameRegsOutside [SP, CR, IPC, PC] s t := by
  unfold execInt at h
  split at h
  · cases h
    exact SameRegs.outside (fun _ => rfl) _
  · exact softwareInterrupt_frame (finish_eq_next.1 h)

/-! ### The frame of every instruction -/

/-- An instruction changes the registers it names as destinations and those it writes implicitly, and no others. -/
theorem exec_frame {i : Instr} {s t : State} (h : exec i s = .next t) :
    SameRegsOutside (destRegs i ++ implicitRegs i) s t := by
  cases i with
  | mov z _ | movs z _ | cbr z _ | sbr z _ =>
    cases h
    exact writeReg_frame s z _
  | add _ _ _ | addi _ _ _ => exact addInto_frame h
  | sub _ _ _ | subi _ _ _ => exact subInto_frame h
  | muli z x imm =>
    cases h
    exact (writeReg_frame s z _).trans (frame_of_ne_SR (mulImmFlags_reg_of_ne _ _))
  | divi z _ _ | modi z _ _ =>
    exact division_frame ((writeReg_frame s z _).trans (frame_of_ne_SR (signedDivFlags_reg_of_ne _ _ _ _))) h
  | div z _ _ i =>
    exact division_frame ((writePair_frame z i _ _ s).trans (frame_of_ne_SR (unsignedDivFlags_reg_of_ne _ _ _))) h
  | divs z _ _ i =>
    exact division_frame ((writePair_frame z i _ _ s).trans (frame_of_ne_SR (signedDivFlags_reg_of_ne _ _ _ _))) h
  | mul z _ _ i =>
    cases h
    exact wideUnsigned_frame z i _ _ _ s
  | muls z _ _ i =>
    cases h
    exact wideSigned_frame z i _ _ _ s
  | sll z x _ _ | srl z x _ _ =>
    cases h
    exact (wideUnsigned_frame x z _ _ _ s).mono (List.Perm.swap z x _).subset
  | sla z x _ _ | sra z x _ _ =>
    cases h
    exact (wideSigned_frame x z _ _ _ s).mono (List.Perm.swap z x _).subset
  | cmp _ _ | cmpi _ _ =>
    cases h
    exact frame_of_ne_SR (subFlags_reg_of_ne s _ _)
  | and _ _ _ | or _ _ _ | not _ _ | xor _ _ _ => exact logicInto_frame h
  | l8 _ _ _ | l16 _ _ _ | l32 _ _ _ => exact loadInto_frame (finish_eq_next.1 h)
  | s8 _ _ _ | s16 _ _ _ | s32 _ _ _ => exact storeFrom_frame (finish_eq_next.1 h)
  | push regs => exact pushList_frame (finish_eq_next.1 h)
  | pop regs =>
    exact (popList_frame (finish_eq_next.1 h)).mono (by simp [destRegs, implicitRegs])
  | bae _ | bat _ | bbe _ | bbt _ | beq _ | bge _ | bgt _ | biv _ | ble _ | blt _ | bne _ | bni _ | bnz _ | bzd _ =>
    exact branchIf_frame h
  | bun _ => exact branchIf_frame (cond := s.takes .bun) h
  | callF _ _ | callS _ => exact callTo_frame (finish_eq_next.1 h)
  | ret => exact returnFromCall_frame (finish_eq_next.1 h)
  | reti => exact returnFromInterrupt_frame (finish_eq_next.1 h)
  | int _ => exact execInt_frame h

/-- Settles O57, by `exec_frame`: a register in neither list is outside their union. -/
theorem registersOutsideTheWrittenOnesKeepTheirValues : Obligations.RegistersOutsideTheWrittenOnesKeepTheirValues :=
  fun _ _ _ h r hdest himplicit => exec_frame h r fun hr => (List.mem_append.1 hr).elim hdest himplicit

end Sys2Proof.Machine
end

section
/-! PROOFS. The state family, 10_state.md: the register file, the state after reset, the invariant of the machine
(rules R44, R47, R51, R52), and who writes IE (rule R40). -/

namespace Sys2Proof.Machine

/-! ### What an instruction is made of -/

/-- One elementary effect of an instruction that names `dests` as destinations. What it leaves out is the point: no write of IE
but by a write to a destination, no write of the pending list, the run state or the fault mark, no second `Start` and no `End`. -/
inductive Update (dests : List RegIdx) : State → State → Prop
  | reg (s : State) {r : RegIdx} (v : Word) (hr : r ∈ dests ∨ r ≠ SR) : Update dests s (s.writeReg r v)
  | flag (s : State) {f : Flag} (b : Bool) (hf : f ≠ .ie) : Update dests s (s.setFlag f b)
  | mem (s : State) {m : Memory} (hm : s.mem.wf → m.wf) : Update dests s (s.setMem m)
  | wdt (s : State) (v : Word) : Update dests s (s.setWdt v)
  | fpu (s : State) (c : FpuCall) : Update dests s (s.setFpu (s.fpu.called c))
  | event (s : State) {e : Event} (hstart : e ≠ .start) (hend : e ≠ .endRun) : Update dests s (s.emit e)

/-- Any number of elementary effects, one after another. -/
abbrev Updates (dests : List RegIdx) : State → State → Prop := Relation.ReflTransGen (Update dests)

section
variable {ds : List RegIdx} {s t : State}

theorem Updates.writeReg (h : Updates ds s t) {r : RegIdx} (hr : r ∈ ds ∨ r ≠ SR) (v : Word) :
    Updates ds s (t.writeReg r v) := h.tail (.reg t v hr)

theorem Updates.jump (h : Updates ds s t) (a : Word) : Updates ds s (t.jump a) := h.writeReg (.inr (by decide)) _

theorem Updates.setFlag (h : Updates ds s t) {f : Flag} (hf : f ≠ .ie) (b : Bool) : Updates ds s (t.setFlag f b) :=
  h.tail (.flag t b hf)

theorem Updates.emit (h : Updates ds s t) {e : Event} (hstart : e ≠ .start) (hend : e ≠ .endRun) :
    Updates ds s (t.emit e) := h.tail (.event t hstart hend)

theorem Updates.writePair (h : Updates ds s t) {a b : RegIdx} (ha : a ∈ ds) (hb : b ∈ ds) (v w : Word) :
    Updates ds s (writePair a b v w t) := (h.writeReg (.inl ha) v).writeReg (.inl hb) w

/-! ### The flag computations: none writes IE -/

theorem Updates.addFlags (h : Updates ds s t) (a b : Word) : Updates ds s (addFlags a b t) :=
  (((h.setFlag (by decide) _).setFlag (by decide) _).setFlag (by decide) _).setFlag (by decide) _

theorem Updates.subFlags (h : Updates ds s t) (a b : Word) : Updates ds s (subFlags a b t) :=
  (((h.setFlag (by decide) _).setFlag (by decide) _).setFlag (by decide) _).setFlag (by decide) _

theorem Updates.logicFlags (h : Updates ds s t) (r : Word) : Updates ds s (logicFlags r t) :=
  (h.setFlag (by decide) _).setFlag (by decide) _

theorem Updates.wideUnsignedFlags (h : Updates ds s t) (r : BitVec 64) : Updates ds s (wideUnsignedFlags r t) :=
  (h.setFlag (by decide) _).setFlag (by decide) _

theorem Updates.wideSignedFlags (h : Updates ds s t) (r : BitVec 64) : Updates ds s (wideSignedFlags r t) :=
  (h.setFlag (by decide) _).setFlag (by decide) _

theorem Updates.mulImmFlags (h : Updates ds s t) (p : BitVec 64) : Updates ds s (mulImmFlags p t) :=
  (h.setFlag (by decide) _).setFlag (by decide) _

theorem Updates.signedDivFlags (h : Updates ds s t) (a b r : Word) : Updates ds s (signedDivFlags a b r t) :=
  ((h.setFlag (by decide) _).setFlag (by decide) _).setFlag (by decide) _

theorem Updates.unsignedDivFlags (h : Updates ds s t) (q m : Word) : Updates ds s (unsignedDivFlags q m t) :=
  ((h.setFlag (by decide) _).setFlag (by decide) _).setFlag (by decide) _

/-! ### The shared operations -/

theorem memRead_updates {a : Word} {n : Width} {v : Word} (h : memRead a n s = .ok (v, t)) : Updates ds s t := by
  rcases memRead_cases h with ⟨_, _, rfl⟩ | ⟨_, _, _, rfl⟩ | ⟨r, _, _, e⟩
  · exact .refl
  · exact .refl
  · cases e
    exact .single (.fpu s (.read r))

theorem memWrite_updates {a : Word} {n : Width} {v : Word} (h : memWrite a n v s = .ok t) : Updates ds s t := by
  rcases memWrite_cases h with ⟨ha, rfl⟩ | ⟨_, _, rfl⟩ | ⟨r, _, _, rfl⟩ | ⟨_, _, rfl⟩
  · exact .single (.mem s fun hm => backingWrite_wf hm ha v n)
  · exact .single (.wdt s v)
  · exact .single (.fpu s (.write r v))
  · exact .single (.event s nofun nofun)

theorem push_updates {v : Word} (h : push v s = .ok t) : Updates ds s t := by
  obtain ⟨hb, rfl⟩ := push_eq_ok.1 h
  have hstore : Update ds s (s.setMem (s.mem.storeWord (s.reg SP).toNat v)) := .mem s fun hm =>
    Memory.wf_storeWord hm hb v
  exact Updates.writeReg (.single hstore) (.inr (by decide)) _

theorem pop_updates {v : Word} (h : pop s = .ok (v, t)) : Updates ds s t := by
  obtain ⟨-, -, rfl⟩ := pop_eq_ok.1 h
  exact Updates.writeReg .refl (.inr (by decide)) _

theorem popInto_updates {r : RegIdx} (hr : r ∈ ds ∨ r ≠ SR) (h : popInto r s = .ok t) : Updates ds s t := by
  obtain ⟨⟨v, u⟩, hpop, h⟩ := bind_eq_ok.1 h
  cases h
  exact (pop_updates hpop).writeReg hr v

theorem pushList_updates {regs : List RegIdx} (h : pushList regs s = .ok t) : Updates ds s t := by
  induction regs generalizing s with
  | nil =>
    cases h
    exact .refl
  | cons r rs ih =>
    obtain ⟨u, hpush, hrest⟩ := bind_eq_ok.1 h
    exact (push_updates hpush).trans (ih hrest)

theorem popList_updates {regs : List RegIdx} (hregs : regs ⊆ ds) (h : popList regs s = .ok t) : Updates ds s t := by
  induction regs generalizing s with
  | nil =>
    cases h
    exact .refl
  | cons r rs ih =>
    obtain ⟨u, hpop, hrest⟩ := bind_eq_ok.1 h
    obtain ⟨hr, hrs⟩ := List.cons_subset.1 hregs
    exact (popInto_updates (.inl hr) hpop).trans (ih hrs hrest)

/-- The entry protocol writes the stack, SP, CR, IPC and the PC, but never SR (60_exceptions.md R322, R323). -/
theorem enter_updates {cause vector ipcval : Word} (h : enter cause vector ipcval s = .ok t) : Updates ds s t := by
  obtain ⟨s1, s2, s3, h1, h2, h3, rfl⟩ := enter_eq_ok.1 h
  have hpushes : Updates ds s s3 := ((push_updates h1).trans (push_updates h2)).trans (push_updates h3)
  exact ((hpushes.writeReg (.inr (by decide)) cause).writeReg (.inr (by decide)) ipcval).jump vector

theorem softwareInterrupt_updates {c : Word} (h : softwareInterrupt c s = .ok t) : Updates ds s t := by
  have hemit : Updates ds s (s.emit (.softwareInterrupt c)) := Updates.emit .refl nofun nofun
  exact hemit.trans (enter_updates h)

theorem invalidTrap_updates {w : Word} (h : invalidTrap w s = .ok t) : Updates ds s t := by
  have hflag : Updates ds s (s.setFlag .iv true) := Updates.setFlag .refl (by decide) true
  have hemit : Updates ds s ((s.setFlag .iv true).emit (.invalid ((s.setFlag .iv true).reg PC) w)) := hflag.emit nofun nofun
  exact hemit.trans (enter_updates h)

theorem divideByZero_updates (h : divideByZero s = .ok t) : Updates ds s t := by
  have hflag : Updates ds s (s.setFlag .zd true) := Updates.setFlag .refl (by decide) true
  rcases divideByZero_cases h with rfl | henter
  · exact hflag
  · have hemit : Updates ds s ((s.setFlag .zd true).emit (.softwareInterrupt Param.causeDivZero)) := hflag.emit nofun nofun
    exact hemit.trans (enter_updates henter)

theorem returnFromInterrupt_updates (h : returnFromInterrupt s = .ok t) : Updates ds s t := by
  obtain ⟨s1, hipc, h⟩ := bind_eq_ok.1 h
  obtain ⟨s2, hcr, h⟩ := bind_eq_ok.1 h
  obtain ⟨⟨a, s3⟩, hpop, h⟩ := bind_eq_ok.1 h
  cases h
  have hregs : Updates ds s s2 := (popInto_updates (.inr (by decide)) hipc).trans (popInto_updates (.inr (by decide)) hcr)
  have hpops : Updates ds s s3 := hregs.trans (pop_updates hpop)
  exact hpops.jump a

theorem returnFromCall_updates (h : returnFromCall s = .ok t) : Updates ds s t := by
  obtain ⟨⟨a, u⟩, hpop, h⟩ := bind_eq_ok.1 h
  cases h
  exact (pop_updates hpop).jump a

theorem callTo_updates {a : Word} (h : callTo a s = .ok t) : Updates ds s t := by
  obtain ⟨u, hpush, h⟩ := bind_eq_ok.1 h
  cases h
  exact (push_updates hpush).jump a

theorem loadInto_updates {n : Width} {z x : RegIdx} {imm : BitVec 16} (h : loadInto n z x imm s = .ok t) :
    Updates [z] s t := by
  obtain ⟨⟨v, u⟩, hread, h⟩ := bind_eq_ok.1 h
  cases h
  exact (memRead_updates hread).writeReg (.inl List.mem_cons_self) v

/-- An interrupt's entry is the entry protocol after the event, and in class 2 after the FPU's status call (R342, R347). -/
theorem hwEnter_cases {p : Prio} {cause ipcval : Word} (h : hwEnter p cause ipcval s = .ok t) :
    ∃ u, (u = s ∨ u = fpuSetStatus s) ∧
      enter cause (Param.hwVector p) ipcval (u.emit (.hardwareInterrupt p cause)) = .ok t := by
  refine ⟨if Param.setsFpuStatus p then fpuSetStatus s else s, ?_, h⟩
  split
  · exact .inr rfl
  · exact .inl rfl

theorem hwEnter_updates {p : Prio} {cause ipcval : Word} (h : hwEnter p cause ipcval s = .ok t) : Updates ds s t := by
  obtain ⟨u, hu, henter⟩ := hwEnter_cases h
  have hstatus : Updates ds s u := by
    rcases hu with rfl | rfl
    · exact .refl
    · exact .single (.fpu s .setStatus)
  have hemit : Updates ds s (u.emit (.hardwareInterrupt p cause)) := hstatus.emit nofun nofun
  exact hemit.trans (enter_updates henter)

theorem fetch_updates {w : Word} (h : fetch s = .ok (w, t)) : Updates ds s t := by
  obtain ⟨-, -, rfl⟩ := fetch_eq_ok.1 h
  exact (Updates.writeReg .refl (.inr (by decide)) w).emit nofun nofun

/-! ### Every instruction -/

theorem branchIf_updates {cond : Bool} {imm : BitVec 26} (h : branchIf cond imm s = .next t) : Updates ds s t := by
  unfold branchIf at h
  split at h
  · cases h
    exact Updates.jump .refl _
  · cases h
    exact .refl

/-- A division traps on the zero divisor or writes its results. -/
theorem division_updates {b : Word} {u : State} (hu : Updates ds s u)
    (h : (if b = 0#32 then finish (divideByZero s) else .next u) = .next t) : Updates ds s t := by
  split at h
  · exact divideByZero_updates (finish_eq_next.1 h)
  · cases h
    exact hu

theorem execInt_updates {imm : BitVec 26} (himm : imm ≠ 0#26) (h : execInt imm s = .next t) : Updates ds s t := by
  have hne : zext26 imm ≠ 0#32 := by
    unfold zext26
    bv_omega
  rw [execInt, if_neg hne] at h
  exact softwareInterrupt_updates (finish_eq_next.1 h)

/-- Every instruction but `int 0` is a run of elementary effects. -/
theorem exec_updates {i : Instr} (hi : i ≠ .int 0#26) (h : exec i s = .next t) : Updates (destRegs i) s t := by
  have hself : ∀ (z : RegIdx) (l : List RegIdx), z ∈ z :: l ∨ z ≠ SR := fun _ _ => .inl List.mem_cons_self
  have hpair : ∀ z x : RegIdx, z ∈ [z, x] ∧ x ∈ [z, x] := by simp
  cases i with
  | mov z _ | movs z _ | cbr z _ | sbr z _ =>
    cases h
    exact Updates.writeReg .refl (hself z _) _
  | add z _ _ | addi z _ _ =>
    cases h
    exact (Updates.writeReg .refl (hself z _) _).addFlags _ _
  | sub z _ _ | subi z _ _ =>
    cases h
    exact (Updates.writeReg .refl (hself z _) _).subFlags _ _
  | and z _ _ | or z _ _ | not z _ | xor z _ _ =>
    cases h
    exact (Updates.writeReg .refl (hself z _) _).logicFlags _
  | muli z _ _ =>
    cases h
    exact (Updates.writeReg .refl (hself z _) _).mulImmFlags _
  | divi z _ _ | modi z _ _ =>
    exact division_updates ((Updates.writeReg .refl (hself z _) _).signedDivFlags _ _ _) h
  | div z _ _ i => exact division_updates ((Updates.writePair .refl (hpair z i).1 (hpair z i).2 _ _).unsignedDivFlags _ _) h
  | divs z _ _ i => exact division_updates ((Updates.writePair .refl (hpair z i).1 (hpair z i).2 _ _).signedDivFlags _ _ _) h
  | mul z _ _ i =>
    cases h
    exact (Updates.writePair .refl (hpair z i).1 (hpair z i).2 _ _).wideUnsignedFlags _
  | muls z _ _ i =>
    cases h
    exact (Updates.writePair .refl (hpair z i).1 (hpair z i).2 _ _).wideSignedFlags _
  | sll z x _ _ | srl z x _ _ =>
    cases h
    exact (Updates.writePair .refl (hpair z x).2 (hpair z x).1 _ _).wideUnsignedFlags _
  | sla z x _ _ | sra z x _ _ =>
    cases h
    exact (Updates.writePair .refl (hpair z x).2 (hpair z x).1 _ _).wideSignedFlags _
  | cmp _ _ | cmpi _ _ =>
    cases h
    exact Updates.subFlags .refl _ _
  | l8 _ _ _ | l16 _ _ _ | l32 _ _ _ => exact loadInto_updates (finish_eq_next.1 h)
  | s8 _ _ _ | s16 _ _ _ | s32 _ _ _ => exact memWrite_updates (finish_eq_next.1 h)
  | push _ => exact pushList_updates (finish_eq_next.1 h)
  | pop regs => exact popList_updates (List.reverse_subset.2 (List.Subset.refl regs)) (finish_eq_next.1 h)
  | bae _ | bat _ | bbe _ | bbt _ | beq _ | bge _ | bgt _ | biv _ | ble _ | blt _ | bne _ | bni _ | bnz _ | bzd _ =>
    exact branchIf_updates h
  | bun _ => exact branchIf_updates (cond := s.takes .bun) h
  | callF _ _ | callS _ => exact callTo_updates (finish_eq_next.1 h)
  | ret => exact returnFromCall_updates (finish_eq_next.1 h)
  | reti => exact returnFromInterrupt_updates (finish_eq_next.1 h)
  | int _ => exact execInt_updates (fun e => hi (congrArg _ e)) h

/-- `int 0` halts and emits `End` (49_software_trap.md R310). -/
theorem exec_int_zero (s : State) : exec (.int 0#26) s = .next (s.halt.emit .endRun) := rfl

end

/-! ### The pending list: sorted, and without duplicates (10_state.md R51, R52) -/

theorem insertAt_perm {α : Type} (a : α) (k : Nat) (l : List α) : (insertAt a k l).Perm (a :: l) := by
  induction l generalizing k with
  | nil => cases k <;> exact .refl _
  | cons d ds ih =>
    cases k with
    | zero => exact .refl _
    | succ k => exact ((ih k).cons d).trans (.swap a d ds)

theorem insertPending_perm (e : PendingEntry) (l : List PendingEntry) : (insertPending e l).Perm (e :: l) := insertAt_perm ..

theorem insertPending_sorted {l : List PendingEntry} (h : PendingSorted l) (e : PendingEntry) :
    PendingSorted (insertPending e l) := by
  induction l with
  | nil => exact List.pairwise_singleton _ _
  | cons d ds ih =>
    obtain ⟨hd, hds⟩ := List.pairwise_cons.1 h
    rw [insertPending_cons]
    split
    next hany =>
      obtain ⟨f, hf, hfe⟩ : ∃ f ∈ d :: ds, Param.prioNumber f.prio ≤ Param.prioNumber e.prio := by simpa using hany
      have hde : Param.prioNumber d.prio ≤ Param.prioNumber e.prio := by
        rcases List.mem_cons.1 hf with rfl | hf
        · exact hfe
        · exact (hd f hf).trans hfe
      refine List.pairwise_cons.2 ⟨fun x hx => ?_, ih hds⟩
      rcases List.mem_cons.1 ((insertPending_perm e ds).subset hx) with rfl | hx
      · exact hde
      · exact hd x hx
    next hnone =>
      have habove : ∀ f ∈ d :: ds, Param.prioNumber e.prio < Param.prioNumber f.prio := by simpa using hnone
      exact List.pairwise_cons.2 ⟨fun f hf => (habove f hf).le, h⟩

theorem insertPending_distinct {l : List PendingEntry} (h : PendingDistinct l) {e : PendingEntry}
    (hnew : ∀ f ∈ l, ¬(e.prio = f.prio ∧ e.cause = f.cause)) : PendingDistinct (insertPending e l) :=
  ((insertPending_perm e l).pairwise_iff fun hab hba => hab ⟨hba.1.symm, hba.2.symm⟩).2 (List.pairwise_cons.2 ⟨hnew, h⟩)

/-- An eviction removes every entry of its priority and cause (60_exceptions.md R340). -/
theorem not_same_of_mem_evictPending {q : Prio} {cause : Word} {l : List PendingEntry} {f : PendingEntry}
    (h : f ∈ evictPending q cause l) : ¬(q = f.prio ∧ cause = f.cause) := by
  obtain ⟨-, hf⟩ := List.mem_filter.1 h
  rintro ⟨rfl, rfl⟩
  simp at hf

/-! ### The FPU port: its tick, and the record of its calls -/

/-- Everything the FPU tick can do: count, and pass on a request if FPU_MODEL answers one (R364). -/
theorem fpuTick_cases {s t : State} (h : fpuTick s = .ok t) :
    t = s.setFpu s.fpu.ticked ∨
      ∃ q : FpuRequest, schedule q.prio q.cause (s.reg PC) (s.setFpu s.fpu.ticked) = .ok t := by
  rw [fpuTick_eq] at h
  generalize (Param.fpuModel.tick s.fpu).1 = request at h
  cases request with
  | none =>
    cases h
    exact .inl rfl
  | some q => exact .inr ⟨q, h⟩

theorem FpuRecordOrdered.called {p : FpuPort} (h : FpuRecordOrdered p) (c : FpuCall) : FpuRecordOrdered (p.called c) := by
  obtain ⟨hpast, hsorted, -⟩ := h
  refine ⟨fun a ha => ?_, List.pairwise_cons.2 ⟨hpast, hsorted⟩, fun _ => rfl⟩
  rcases List.mem_cons.1 ha with rfl | ha
  · exact Nat.le_refl _
  · exact hpast a ha

theorem FpuRecordOrdered.ticked {p : FpuPort} (h : FpuRecordOrdered p) : FpuRecordOrdered p.ticked :=
  ⟨fun a ha => Nat.le_succ_of_le (h.1 a ha), h.2⟩

/-! ### The invariant of a running state -/

/-- A running state with the invariant: what every phase of the cycle but the halt keeps. -/
structure Running (s : State) : Prop extends Inv s where
  notHalted : s.halted = false

section
variable {s t : State}

theorem Running.writeReg (h : Running s) (r : RegIdx) (v : Word) : Running (s.writeReg r v) := by
  unfold State.writeReg
  split
  · exact h
  · exact { h with }

theorem Running.emit (h : Running s) {e : Event} (hstart : e ≠ .start) (hend : e ≠ .endRun) : Running (s.emit e) := by
  obtain ⟨es, hes, hfresh⟩ := h.started
  have hrun := h.notHalted
  refine { h with
    events := ⟨fun hh => absurd (hh.symm.trans hrun) (by decide), fun _ => ?_⟩
    started := ⟨e :: es, congrArg (e :: ·) hes, ?_⟩ }
  · exact List.not_mem_cons_of_ne_of_not_mem hend.symm (h.events.2 hrun)
  · exact List.not_mem_cons_of_ne_of_not_mem hstart.symm hfresh

theorem Running.update {ds : List RegIdx} (h : Running s) (hu : Update ds s t) : Running t := by
  cases hu with
  | reg v _ => exact h.writeReg _ v
  | flag b _ => exact h.writeReg SR _
  | mem hm => exact { h with memory := hm h.memory }
  | wdt v => exact { h with }
  | fpu c => exact { h with fpu := h.fpu.called c }
  | event hstart hend => exact h.emit hstart hend

theorem Running.updates {ds : List RegIdx} (h : Running s) (hu : Updates ds s t) : Running t := by
  induction hu with
  | refl => exact h
  | tail _ hlast ih => exact ih.update hlast

/-- A request leaves a sorted list without duplicates: it evicts its own pair before it is inserted (R340). -/
theorem Running.schedule {p : Nat} {cause saved : Word} (h : Running s) (ht : schedule p cause saved s = .ok t) :
    Running t := by
  obtain ⟨q, -, ⟨-, henter⟩ | ⟨-, rfl⟩⟩ := schedule_cases ht
  · exact h.updates (ds := []) (hwEnter_updates henter)
  · exact { h with
      sorted := insertPending_sorted (h.sorted.filter _) _
      distinct := insertPending_distinct (h.distinct.filter _) fun _ => not_same_of_mem_evictPending }

theorem Running.drain (h : Running s) (ht : drain s = .ok t) : Running t := by
  obtain ⟨rfl, -⟩ | ⟨e, rest, hp, -, henter⟩ := drain_cases ht
  · exact h
  · have hrest : Running (s.setPending rest) := { h with
      sorted := (List.pairwise_cons.1 (hp ▸ h.sorted)).2
      distinct := (List.pairwise_cons.1 (hp ▸ h.distinct)).2 }
    exact hrest.updates (ds := []) (hwEnter_updates henter)

theorem Running.wdtTick (h : Running s) (ht : wdtTick s = .ok t) : Running t := by
  obtain ⟨-, rfl⟩ | ⟨-, -, rfl⟩ | ⟨-, -, u, hu, rfl⟩ := wdtTick_cases ht
  · exact h
  · exact { h with }
  · exact { h.schedule hu with }

theorem Running.fpuTick (h : Running s) (ht : fpuTick s = .ok t) : Running t := by
  have hticked : Running (s.setFpu s.fpu.ticked) := { h with fpu := h.fpu.ticked }
  obtain rfl | ⟨q, hq⟩ := fpuTick_cases ht
  · exact hticked
  · exact hticked.schedule hq

theorem Running.afterExecute (h : Running s) (ht : afterExecute s = .ok t) : Running t := by
  obtain ⟨s1, s2, s3, hdrain, hwdt, hfpu, rfl⟩ := afterExecute_eq_ok.1 ht
  exact (((h.drain hdrain).wdtTick hwdt).fpuTick hfpu).writeReg PC _

/-- The halt closes the stream with `End` (R156). -/
theorem Running.inv_halt (h : Running s) : Inv (s.halt.emit .endRun) := by
  obtain ⟨es, hes, hfresh⟩ := h.started
  exact { h with
    events := ⟨fun _ => rfl, nofun⟩
    started := ⟨.endRun :: es, congrArg (_ :: ·) hes, List.not_mem_cons_of_ne_of_not_mem nofun hfresh⟩ }

theorem Running.inv_execute {w : Word} (h : Running s) (ht : execute w s = .next t) : Inv t := by
  obtain ⟨i, -, hexec⟩ | ⟨_, -, htrap⟩ := execute_cases ht
  · by_cases hi : i = .int 0#26
    · rw [hi, exec_int_zero] at hexec
      cases hexec
      exact h.inv_halt
    · exact (h.updates (exec_updates hi hexec)).toInv
  · exact (h.updates (ds := []) (invalidTrap_updates htrap)).toInv

end

/-- Settles O12: a halted state stands; a running one stays `Running` through the fetch, the execution keeps the invariant, and
what it leaves running stays so through phases 5 to 8. -/
theorem everyStepKeepsTheInvariant : Obligations.EveryStepKeepsTheInvariant := by
  intro s t hs hstep
  obtain ⟨-, ⟨-, rfl⟩ | ⟨hrun, w, s1, u, hfetch, hexec, hend⟩⟩ := step_cases hstep
  · exact hs
  · have hfetched : Running s1 := Running.updates (ds := []) ⟨hs, hrun⟩ (fetch_updates hfetch)
    have hu : Inv u := hfetched.inv_execute hexec
    obtain ⟨-, rfl⟩ | ⟨hurun, hafter⟩ := hend
    · exact hu
    · exact (Running.afterExecute ⟨hu, hurun⟩ hafter).toInv

/-! ### Who writes IE (10_state.md R40) -/

section
variable {s t : State}

theorem Update.flag_ie {ds : List RegIdx} (hds : SR ∉ ds) (h : Update ds s t) : t.flag .ie = s.flag .ie := by
  cases h with
  | reg v hr => exact State.flag_writeReg_of_ne s (hr.elim (ne_of_mem_of_not_mem · hds) id) v .ie
  | flag b hf => rw [State.flag_setFlag, if_neg hf.symm]
  | mem _ | wdt _ | fpu _ | event _ _ => rfl

theorem Updates.flag_ie {ds : List RegIdx} (hds : SR ∉ ds) (h : Updates ds s t) : t.flag .ie = s.flag .ie := by
  induction h with
  | refl => rfl
  | tail _ hlast ih => rw [hlast.flag_ie hds, ih]

theorem exec_flag_ie {i : Instr} (h : exec i s = .next t) (hds : SR ∉ destRegs i) : t.flag .ie = s.flag .ie := by
  by_cases hi : i = .int 0#26
  · rw [hi, exec_int_zero] at h
    cases h
    rfl
  · exact (exec_updates hi h).flag_ie hds

/-! ### The registers through phases 5 to 8: the entry protocol's, and no other -/

theorem hwEnter_frame {p : Prio} {cause ipcval : Word} (h : hwEnter p cause ipcval s = .ok t) :
    SameRegsOutside [SP, CR, IPC, PC] s t := by
  obtain ⟨u, rfl | rfl, henter⟩ := hwEnter_cases h
  · exact enter_frame (s := u.emit _) henter
  · exact enter_frame (s := (fpuSetStatus s).emit _) henter

theorem schedule_frame {p : Nat} {cause saved : Word} (h : schedule p cause saved s = .ok t) :
    SameRegsOutside [SP, CR, IPC, PC] s t := by
  obtain ⟨q, -, ⟨-, henter⟩ | ⟨-, rfl⟩⟩ := schedule_cases h
  · exact hwEnter_frame henter
  · exact SameRegs.outside (fun _ => rfl) _

theorem drain_frame (h : drain s = .ok t) : SameRegsOutside [SP, CR, IPC, PC] s t := by
  obtain ⟨rfl, -⟩ | ⟨e, rest, -, -, henter⟩ := drain_cases h
  · exact .refl _ _
  · exact hwEnter_frame (s := s.setPending rest) henter

theorem wdtTick_frame (h : wdtTick s = .ok t) : SameRegsOutside [SP, CR, IPC, PC] s t := by
  obtain ⟨-, rfl⟩ | ⟨-, -, rfl⟩ | ⟨-, -, u, hu, rfl⟩ := wdtTick_cases h
  · exact .refl _ _
  · exact SameRegs.outside (fun _ => rfl) _
  · have hrequest : SameRegsOutside [SP, CR, IPC, PC] s u := schedule_frame hu
    exact hrequest

theorem fpuTick_frame (h : fpuTick s = .ok t) : SameRegsOutside [SP, CR, IPC, PC] s t := by
  obtain rfl | ⟨q, hq⟩ := fpuTick_cases h
  · exact SameRegs.outside (fun _ => rfl) _
  · have hrequest : SameRegsOutside [SP, CR, IPC, PC] (s.setFpu s.fpu.ticked) t := schedule_frame hq
    exact hrequest

theorem afterExecute_frame (h : afterExecute s = .ok t) : SameRegsOutside [SP, CR, IPC, PC] s t := by
  obtain ⟨s1, s2, s3, hdrain, hwdt, hfpu, rfl⟩ := afterExecute_eq_ok.1 h
  have hphases := ((drain_frame hdrain).trans (wdtTick_frame hwdt)).trans (fpuTick_frame hfpu)
  exact (hphases.trans (writeReg_frame s3 PC _)).mono (by simp)

end

/-- Settles O59: an instruction and the invalid-instruction trap are elementary effects, which leave IE where SR is no
destination; phases 5 to 8 do not write SR. -/
theorem onlyWritesToSrChangeIe : Obligations.OnlyWritesToSrChangeIe :=
  ⟨fun _ _ _ h hds => exec_flag_ie h hds,
   fun _ _ _ h => (invalidTrap_updates h).flag_ie (List.not_mem_nil (a := SR)),
   fun _ _ h => afterExecute_frame h SR (by decide)⟩

/-! ### The state after reset -/

theorem State.reset_reg (r : RegIdx) : State.reset.reg r = 0#32 := by
  unfold State.reg
  split
  · rfl
  · exact Vector.getElem_replicate _

/-- Settles O7: the registers by `State.reset_reg`, every other field by its value in `State.reset`. -/
theorem resetValues : Obligations.ResetValues := ⟨State.reset_reg, fun _ => rfl, rfl, rfl, rfl, rfl, rfl, rfl⟩

/-- Settles O11: at reset the memory has no cell, the pending list and the FPU's record are empty, and the stream is `Start`. -/
theorem resetMeetsTheInvariant : Obligations.ResetMeetsTheInvariant where
  memory := ⟨.nil, nofun⟩
  sorted := .nil
  distinct := .nil
  noFault := rfl
  events := ⟨nofun, fun _ => by decide⟩
  started := ⟨[], rfl, nofun⟩
  fpu := ⟨nofun, .nil, fun h => absurd rfl h⟩

/-! ### The register file -/

theorem decodeFamily04_wellFormed {w : Word} {i : Instr} (h : decodeFamily04 w = .ok i) : i.wellFormed = true := by
  unfold decodeFamily04 at h
  split at h <;> cases h <;> rfl

theorem decodeFamily21_wellFormed {w : Word} {i : Instr} (h : decodeFamily21 w = .ok i) : i.wellFormed = true := by
  unfold decodeFamily21 at h
  split at h <;> cases h <;> rfl

/-- The decoder answers well-formed instructions alone: its one list is an active list (46_stack.md R260). -/
theorem decode_wellFormed {w : Word} {i : Instr} (h : decode w = .ok i) : i.wellFormed = true := by
  unfold decode decodeOp at h
  split at h
  · next o _ =>
    cases o with
    | shiftMulDiv => exact decodeFamily04_wellFormed h
    | bitSetClear => exact decodeFamily21_wellFormed h
    | push | pop =>
      cases h
      exact Laws.activeList_fits ..
    | _ =>
      cases h
      rfl
  · cases h

theorem not_mem_of_listHasNoZero {regs : List RegIdx} (h : listHasNoZero regs = true) : 0#5 ∉ regs := fun hz => by
  simpa using List.all_eq_true.1 h _ hz

theorem decoded_list_no_zero {w : Word} {regs : List RegIdx}
    (h : decode w = .ok (.push regs) ∨ decode w = .ok (.pop regs)) : 0#5 ∉ regs := by
  have hwf : (listFits regs && listHasNoZero regs) = true := h.elim decode_wellFormed decode_wellFormed
  exact not_mem_of_listHasNoZero (Bool.and_eq_true_iff.1 hwf).2

/-- Settles O9, by the laws of `State.writeReg`; a decoded list is well-formed. -/
theorem registerFileReadsBackAndSlotZeroIsZero : Obligations.RegisterFileReadsBackAndSlotZeroIsZero := by
  refine ⟨fun _ _ => decoded_list_no_zero, fun s r v => ⟨rfl, rfl, fun hr => State.reg_writeReg_self s hr v,
    fun q hq => State.reg_writeReg_of_ne s hq v, ?_, ?_, ?_⟩⟩
  · simp [SameMem]
  · simp [SameControl]
  · simp [SameDevices]

end Sys2Proof.Machine
end

section
/-! PROOFS. The memory family, 20_memory.md: what a load answers and a store changes in backing memory (rules R75 to R78), how
an address is resolved (rule R72), the legal device accesses (rule R80), and the stack's word accesses (rules R84, R85). -/

namespace Sys2Proof.Machine

/-! ### Loads from backing memory, in bits of `mem[a >> 2]` -/

/-- The word a load answers is `mem[a >> 2]` (R75). -/
theorem Memory.loadWord_eq_wordAt (m : Memory) (a : Nat) : m.loadWord a = wordAt m (a / 4) := by
  rw [Memory.loadWord, wordBase, Nat.mul_comm]
  rfl

/-- The fields of a word put together from four bytes (R73). -/
theorem extractLsb'_append_bytes (b0 b1 b2 b3 : Byte) :
    (b0 ++ b1 ++ b2 ++ b3).extractLsb' 24 8 = b0 ∧ (b0 ++ b1 ++ b2 ++ b3).extractLsb' 16 8 = b1 ∧
    (b0 ++ b1 ++ b2 ++ b3).extractLsb' 8 8 = b2 ∧ (b0 ++ b1 ++ b2 ++ b3).extractLsb' 0 8 = b3 := by
  have hlast : ∀ {n : Nat} (hi : BitVec n) (lo : Byte), (hi ++ lo).extractLsb' 0 8 = lo := fun _ _ =>
    BitVec.extractLsb'_append_eq_right
  have hskip : ∀ {n : Nat} (hi : BitVec n) (lo : Byte) (k : Nat),
      (hi ++ lo).extractLsb' (k + 8) 8 = hi.extractLsb' k 8 := fun _ _ _ =>
    BitVec.extractLsb'_append_eq_of_le (Nat.le_add_left ..)
  have hsecond : (b0 ++ b1 ++ b2 ++ b3).extractLsb' 16 8 = b1 :=
    (hskip (b0 ++ b1 ++ b2) b3 8).trans ((hskip (b0 ++ b1) b2 0).trans (hlast b0 b1))
  have hfirst : (b0 ++ b1 ++ b2 ++ b3).extractLsb' 24 8 = b0 :=
    (hskip (b0 ++ b1 ++ b2) b3 16).trans ((hskip (b0 ++ b1) b2 8).trans BitVec.extractLsb'_append_eq_left)
  exact ⟨hfirst, hsecond, (hskip (b0 ++ b1 ++ b2) b3 0).trans (hlast (b0 ++ b1) b2), hlast (b0 ++ b1 ++ b2) b3⟩

/-- The byte at an address stands in its word, the most significant byte at the lowest address (R73, R77). -/
theorem Memory.read_eq_extractLsb' (m : Memory) (a : Nat) :
    m.read a = (wordAt m (a / 4)).extractLsb' (8 * (3 - a % 4)) 8 := by
  have ha : a = 4 * (a / 4) + a % 4 := by omega
  obtain ⟨h0, h1, h2, h3⟩ := extractLsb'_append_bytes (m.read (4 * (a / 4))) (m.read (4 * (a / 4) + 1))
    (m.read (4 * (a / 4) + 2)) (m.read (4 * (a / 4) + 3))
  rcases (by omega : a % 4 = 0 ∨ a % 4 = 1 ∨ a % 4 = 2 ∨ a % 4 = 3) with e | e | e | e <;> rw [e] at ha ⊢
  · exact (congrArg m.read ha).trans h0.symm
  · exact (congrArg m.read ha).trans h1.symm
  · exact (congrArg m.read ha).trans h2.symm
  · exact (congrArg m.read ha).trans h3.symm

/-- The halfword at an address: its two bytes side by side in the word (R73, R76). -/
theorem Memory.loadHalf_eq_extractLsb' (m : Memory) (a : Nat) :
    m.loadHalf a = (wordAt m (a / 4)).extractLsb' (16 * (1 - a / 2 % 2)) 16 := by
  have hhigh : halfBase a / 4 = a / 4 := by unfold halfBase; omega
  have hlow : (halfBase a + 1) / 4 = a / 4 := by unfold halfBase; omega
  have hadjacent : 8 * (3 - halfBase a % 4) = 8 * (3 - (halfBase a + 1) % 4) + 8 := by unfold halfBase; omega
  have hplace : 8 * (3 - (halfBase a + 1) % 4) = 16 * (1 - a / 2 % 2) := by unfold halfBase; omega
  rw [Memory.loadHalf, Memory.read_eq_extractLsb', Memory.read_eq_extractLsb', hhigh, hlow,
    BitVec.extractLsb'_append_extractLsb'_eq_extractLsb' hadjacent, hplace]

/-- A field of a word, zero-extended, in arithmetic on the word. -/
theorem setWidth_extractLsb'_eq_ofNat (w : Word) (k n : Nat) :
    (w.extractLsb' k n).setWidth 32 = BitVec.ofNat 32 (w.toNat / 2 ^ k % 2 ^ n) := by
  apply BitVec.eq_of_toNat_eq
  simp [Nat.shiftRight_eq_div_pow]

theorem backingRead_word (m : Memory) (a : Word) : backingRead m a .word = wordAt m (a.toNat / 4) :=
  m.loadWord_eq_wordAt a.toNat

theorem backingRead_half (m : Memory) (a : Word) : backingRead m a .half =
    BitVec.ofNat 32 ((wordAt m (a.toNat / 4)).toNat / 2 ^ (16 * (1 - a.toNat / 2 % 2)) % 2 ^ 16) := by
  rw [backingRead, Memory.loadHalf_eq_extractLsb', setWidth_extractLsb'_eq_ofNat]

theorem backingRead_byte (m : Memory) (a : Word) : backingRead m a .byte =
    BitVec.ofNat 32 ((wordAt m (a.toNat / 4)).toNat / 2 ^ (8 * (3 - a.toNat % 4)) % 2 ^ 8) := by
  rw [backingRead, Memory.read_eq_extractLsb', setWidth_extractLsb'_eq_ofNat]

/-- Settles O13: a load from backing memory answers `backingRead` alone, which is the word or a field of it. -/
theorem backingReadsFollowMirroredIndexing : Obligations.BackingReadsFollowMirroredIndexing := by
  intro s a ha w
  simp only [memRead_backing ha, backingRead_word, backingRead_half, backingRead_byte, w, BitVec.ofNat_toNat,
    BitVec.setWidth_eq, and_self]

/-! ### Stores to backing memory -/

theorem wordBase_eq_iff {a b : Nat} : wordBase b = wordBase a ↔ b / 4 = a / 4 := by
  unfold wordBase
  omega

theorem halfBase_eq_iff {a b : Nat} : halfBase b = halfBase a ↔ b / 2 = a / 2 := by
  unfold halfBase
  omega

theorem Memory.read_storeWord_of_ne (m : Memory) {a b : Nat} (h : b / 4 ≠ a / 4) (v : Word) :
    (m.storeWord a v).read b = m.read b := by
  rw [Memory.read_storeWord, if_neg (mt wordBase_eq_iff.1 h)]

theorem Memory.read_storeHalf_of_ne (m : Memory) {a b : Nat} (h : b / 2 ≠ a / 2) (v : Word) :
    (m.storeHalf a v).read b = m.read b := by
  rw [Memory.read_storeHalf, if_neg (mt halfBase_eq_iff.1 h)]

theorem Memory.read_storeByte_of_ne (m : Memory) {a b : Nat} (h : b ≠ a) (v : Word) :
    (m.storeByte a v).read b = m.read b := by
  rw [Memory.read_storeByte, if_neg h]

/-- A word stored is the word its address loads (R75, R78). -/
theorem Memory.wordAt_storeWord_self (m : Memory) (a : Nat) (v : Word) : wordAt (m.storeWord a v) (a / 4) = v := by
  have hbyte : ∀ k < 4, (m.storeWord a v).read (4 * (a / 4) + k) = v.extractLsb' (8 * (3 - k)) 8 := fun k hk => by
    rw [Memory.read_storeWord, if_pos (wordBase_eq_iff.2 (by omega)), Nat.mul_add_mod, Nat.mod_eq_of_lt hk]
  have hfirst : (m.storeWord a v).read (4 * (a / 4)) = v.extractLsb' 24 8 := hbyte 0 (by decide)
  rw [wordAt, hfirst, hbyte 1 (by decide), hbyte 2 (by decide), hbyte 3 (by decide)]
  exact Laws.bytesWord_wordBytes v

/-- A halfword stored is the halfword its address loads (R76, R78). -/
theorem Memory.loadHalf_storeHalf_self (m : Memory) (a : Nat) (v : Word) :
    (m.storeHalf a v).loadHalf a = v.extractLsb' 0 16 := by
  have hbyte : ∀ k < 2, (m.storeHalf a v).read (halfBase a + k) = v.extractLsb' (8 * (1 - k)) 8 := fun k hk => by
    have hmod : (halfBase a + k) % 2 = k := by unfold halfBase; omega
    rw [Memory.read_storeHalf, if_pos (by unfold halfBase; omega), hmod]
  have hfirst : (m.storeHalf a v).read (halfBase a) = v.extractLsb' 8 8 := hbyte 0 (by decide)
  rw [Memory.loadHalf, hfirst, hbyte 1 (by decide)]
  exact BitVec.extractLsb'_append_extractLsb'_eq_extractLsb' rfl

/-- A store to backing memory changes no byte outside the word of its address (R78). -/
theorem backingWrite_read_of_ne (m : Memory) {a : Word} {b : Nat} (h : b / 4 ≠ a.toNat / 4) (v : Word) (n : Width) :
    (backingWrite m a v n).read b = m.read b := by
  cases n with
  | byte => exact m.read_storeByte_of_ne (fun e => h (by rw [e])) v
  | half => exact m.read_storeHalf_of_ne (by omega) v
  | word => exact m.read_storeWord_of_ne h v

/-- A new memory leaves every other field as it is. -/
theorem setMem_rest (s : State) (m : Memory) :
    SameRegs s (s.setMem m) ∧ SameControl s (s.setMem m) ∧ SameDevices s (s.setMem m) :=
  ⟨fun _ => rfl, ⟨rfl, rfl, rfl⟩, ⟨rfl, rfl, rfl⟩⟩

/-- Settles O14: a store to backing memory makes one new memory, in which each width reads back what was stored, and leaves
every byte outside its own word, halfword or byte. -/
theorem backingWritesChangeOnlyTheAddressedBytes : Obligations.BackingWritesChangeOnlyTheAddressedBytes := by
  intro s a v ha
  refine ⟨⟨_, memWrite_backing ha .word v s, ?_, ?_, setMem_rest s _⟩,
    ⟨_, memWrite_backing ha .half v s, ?_, ?_, setMem_rest s _⟩,
    ⟨_, memWrite_backing ha .byte v s, ?_, ?_, setMem_rest s _⟩⟩
  · exact s.mem.wordAt_storeWord_self a.toNat v
  · exact fun b hb => s.mem.read_storeWord_of_ne hb v
  · rw [memRead_backing ha]
    simp only [backingRead, State.setMem_mem, backingWrite, Memory.loadHalf_storeHalf_self]
    rw [setWidth_extractLsb'_eq_ofNat, Nat.pow_zero, Nat.div_one]
  · exact fun b hb => s.mem.read_storeHalf_of_ne hb v
  · exact (s.mem.read_storeByte a.toNat v a.toNat).trans (if_pos rfl)
  · exact fun b hb => s.mem.read_storeByte_of_ne hb v

/-! ### The order of resolution (R72) -/

/-- No device word is backing memory (R74). -/
theorem not_inBacking_of_isDeviceWord {a : Word} (h : IsDeviceWord a) : ¬InBacking a := fun ha => by
  have hdevice := (deviceAt_isSome_iff a).2 h
  rw [deviceAt_of_lt ha] at hdevice
  cases hdevice

theorem deviceAt_of_not_isDeviceWord {a : Word} (h : ¬IsDeviceWord a) : deviceAt a = none :=
  Option.not_isSome_iff_eq_none.1 (mt (deviceAt_isSome_iff a).1 h)

theorem memRead_memFault {a : Word} (hdevice : ¬IsDeviceWord a) (hbacking : ¬InBacking a) (n : Width) (s : State) :
    memRead a n s = .error (.memFault a) := by
  rw [memRead, deviceAt_of_not_isDeviceWord hdevice]
  exact if_neg hbacking

theorem memWrite_memFault {a : Word} (hdevice : ¬IsDeviceWord a) (hbacking : ¬InBacking a) (n : Width) (v : Word)
    (s : State) : memWrite a n v s = .error (.memFault a) := by
  rw [memWrite, deviceAt_of_not_isDeviceWord hdevice]
  exact if_neg hbacking

/-- No load changes memory: it reads it, or calls a device (R72). -/
theorem memRead_sameMem {a : Word} {n : Width} {v : Word} {s t : State} (h : memRead a n s = .ok (v, t)) : SameMem s t := by
  rcases memRead_cases h with ⟨-, -, rfl⟩ | ⟨-, -, -, rfl⟩ | ⟨r, -, -, hcall⟩
  · exact fun _ => rfl
  · exact fun _ => rfl
  · cases hcall
    exact fun _ => rfl

/-- A store outside backing memory reaches a device, and no memory (R72). -/
theorem memWrite_sameMem {a : Word} {n : Width} {v : Word} {s t : State} (ha : ¬InBacking a)
    (h : memWrite a n v s = .ok t) : SameMem s t := by
  rcases memWrite_cases h with ⟨hbacking, -⟩ | ⟨-, -, rfl⟩ | ⟨r, -, -, rfl⟩ | ⟨-, -, rfl⟩
  · exact absurd hbacking ha
  all_goals exact fun _ => rfl

/-- Settles O15: what answers at a device word is a device, which has no memory; elsewhere backing memory answers, or
nothing. -/
theorem accessResolution : Obligations.AccessResolution := by
  intro s a v n
  refine ⟨fun hdevice => ⟨fun _ _ => memRead_sameMem, fun _ => memWrite_sameMem (not_inBacking_of_isDeviceWord hdevice)⟩,
    fun _ ha => ⟨⟨_, memRead_backing ha n s⟩, _, memWrite_backing ha n v s, fun b hb => ?_⟩,
    fun hdevice ha => ⟨memRead_memFault hdevice ha n s, memWrite_memFault hdevice ha n v s⟩⟩
  exact backingWrite_read_of_ne s.mem (hb a List.mem_cons_self) v n

/-! ### The device words (R80) -/

section
variable (s : State) (v : Word)

theorem memRead_addrWdt : memRead Param.addrWdt .word s = .ok (s.wdt, s) := rfl

theorem memWrite_addrWdt : memWrite Param.addrWdt .word v s = .ok (s.setWdt v) := rfl

theorem memRead_addrFpu (r : FpuReg) : memRead (Param.addrFpu r) .word s = .ok (fpuRead r s) := by
  cases r <;> rfl

theorem memWrite_addrFpu (r : FpuReg) : memWrite (Param.addrFpu r) .word v s = .ok (fpuWrite r v s) := by
  cases r <;> rfl

theorem memWrite_addrTerm :
    memWrite Param.addrTerm .byte v s = .ok (s.emit (.termByte (BitVec.ofNat 8 v.toNat))) := rfl

end

/-- The addresses of the devices that take a word, and no other width, at the exact address: the watchdog and the FPU's four
words (R74, R80). -/
abbrev wordDevices : List Word := [0x80808080#32, 0x80808880#32, 0x80808884#32, 0x80808888#32, 0x8080888c#32]

theorem addrWdt_mem_wordDevices : Param.addrWdt ∈ wordDevices := by decide

theorem addrFpu_mem_wordDevices (r : FpuReg) : Param.addrFpu r ∈ wordDevices := by cases r <;> decide

/-- A device refuses a load in one way: with a DeviceFault (R80). -/
theorem deviceRead_ok_or_fault (d : Device) (a : Word) (n : Width) (s : State) :
    (∃ p, deviceRead d a n s = .ok p) ∨ deviceRead d a n s = .error (.deviceFault a n.bytes) := by
  cases d with
  | wdt | fpu r =>
    unfold deviceRead
    dsimp only
    split
    · exact .inl ⟨_, rfl⟩
    · exact .inr rfl
  | term => exact .inr rfl

/-- A device refuses a store in one way: with a DeviceFault (R80). -/
theorem deviceWrite_ok_or_fault (d : Device) (a : Word) (n : Width) (v : Word) (s : State) :
    (∃ t, deviceWrite d a n v s = .ok t) ∨ deviceWrite d a n v s = .error (.deviceFault a n.bytes) := by
  cases d
  all_goals
    unfold deviceWrite
    dsimp only
    split
    · exact .inl ⟨_, rfl⟩
    · exact .inr rfl

/-- Every load from a device word but a word load at its exact address is a DeviceFault: no case of an answered load is left. -/
theorem memRead_deviceFault {a : Word} {n : Width} (hdevice : IsDeviceWord a) (hform : ¬(n = .word ∧ a ∈ wordDevices))
    (s : State) : memRead a n s = .error (.deviceFault a n.bytes) := by
  obtain ⟨d, hd⟩ := Option.isSome_iff_exists.1 ((deviceAt_isSome_iff a).2 hdevice)
  have hread : memRead a n s = deviceRead d a n s := by rw [memRead, hd]
  obtain ⟨⟨v, t⟩, hok⟩ | hfault := deviceRead_ok_or_fault d a n s
  · rcases memRead_cases (hread.trans hok) with ⟨ha, -⟩ | ⟨hn, rfl, -⟩ | ⟨r, hn, rfl, -⟩
    · exact absurd ha (not_inBacking_of_isDeviceWord hdevice)
    · exact absurd ⟨hn, addrWdt_mem_wordDevices⟩ hform
    · exact absurd ⟨hn, addrFpu_mem_wordDevices r⟩ hform
  · exact hread.trans hfault

/-- Every store to a device word is a DeviceFault but a word store at its exact address and the terminal's byte store. -/
theorem memWrite_deviceFault {a : Word} {n : Width} (hdevice : IsDeviceWord a) (hform : ¬(n = .word ∧ a ∈ wordDevices))
    (hterm : ¬(n = .byte ∧ a = 0x80808890#32)) (v : Word) (s : State) :
    memWrite a n v s = .error (.deviceFault a n.bytes) := by
  obtain ⟨d, hd⟩ := Option.isSome_iff_exists.1 ((deviceAt_isSome_iff a).2 hdevice)
  have hwrite : memWrite a n v s = deviceWrite d a n v s := by rw [memWrite, hd]
  obtain ⟨t, hok⟩ | hfault := deviceWrite_ok_or_fault d a n v s
  · rcases memWrite_cases (hwrite.trans hok) with ⟨ha, -⟩ | ⟨hn, rfl, -⟩ | ⟨r, hn, rfl, -⟩ | ⟨hn, ha, -⟩
    · exact absurd ha (not_inBacking_of_isDeviceWord hdevice)
    · exact absurd ⟨hn, addrWdt_mem_wordDevices⟩ hform
    · exact absurd ⟨hn, addrFpu_mem_wordDevices r⟩ hform
    · exact absurd ⟨hn, ha⟩ hterm
  · exact hwrite.trans hfault

/-- The four FPU words by address, spelled out (R74). -/
theorem addrFpu_of_mem : ∀ p ∈ [(0x80808880#32, FpuReg.x), (0x80808884#32, FpuReg.y), (0x80808888#32, FpuReg.z),
    (0x8080888c#32, FpuReg.ctrl)], p.1 = Param.addrFpu p.2 := by decide

/-- A call of the FPU port leaves every other field as it is. -/
theorem setFpu_rest (s : State) (p : FpuPort) : SameRegs s (s.setFpu p) ∧ SameMem s (s.setFpu p) ∧
    SameControl s (s.setFpu p) ∧ (s.setFpu p).wdt = s.wdt ∧ (s.setFpu p).events = s.events :=
  ⟨fun _ => rfl, fun _ => rfl, ⟨rfl, rfl, rfl⟩, rfl, rfl⟩

/-- Settles O16: the legal forms by the equation of each device, the others by `memRead_deviceFault` and
`memWrite_deviceFault`. -/
theorem deviceWordsTakeOnlyTheirLegalForms : Obligations.DeviceWordsTakeOnlyTheirLegalForms := by
  intro s v
  refine ⟨memRead_addrWdt s,
    ⟨_, memWrite_addrWdt s v, rfl, fun _ => rfl, fun _ => rfl, ⟨rfl, rfl, rfl⟩, rfl, rfl⟩, fun p hp => ?_,
    ⟨_, memWrite_addrTerm s v, rfl, fun _ => rfl, fun _ => rfl, ⟨rfl, rfl, rfl⟩, rfl, rfl⟩,
    fun a n hdevice => ⟨fun hform => memRead_deviceFault hdevice hform s,
      fun hform hterm => memWrite_deviceFault hdevice hform hterm v s⟩⟩
  rw [addrFpu_of_mem p hp]
  exact ⟨⟨_, memRead_addrFpu s p.2, rfl, setFpu_rest s _⟩, ⟨_, memWrite_addrFpu s v p.2, rfl, setFpu_rest s _⟩⟩

/-! ### Where loads and stores fault (45_load_store.md R240, R241) -/

section
variable {n : Width} {z x : RegIdx} {imm : BitVec 16} {s : State} {f : Fault}

theorem finish_loadInto_fault (h : memRead (effectiveAddress s x imm) n s = .error f) :
    finish (loadInto n z x imm s) = .fault f := by
  rw [loadInto, h]
  rfl

theorem finish_storeFrom_fault (h : memWrite (effectiveAddress s x imm) n (s.reg z) s = .error f) :
    finish (storeFrom n z x imm s) = .fault f := congrArg finish h

end

/-- Settles O29: a load or store faults where its one access does. -/
theorem loadsAndStoresFaultWhereNoAccessExists : Obligations.LoadsAndStoresFaultWhereNoAccessExists := by
  intro s z x imm ea
  refine ⟨fun ha hdevice op hop => ?_, fun hdevice => ?_⟩
  · have hload : ∀ n, finish (loadInto n z x imm s) = .fault (.memFault ea) := fun n =>
      finish_loadInto_fault (memRead_memFault hdevice ha n s)
    have hstore : ∀ n, finish (storeFrom n z x imm s) = .fault (.memFault ea) := fun n =>
      finish_storeFrom_fault (memWrite_memFault hdevice ha n (s.reg z) s)
    simp only [List.mem_cons, List.not_mem_nil, or_false] at hop
    rcases hop with rfl | rfl | rfl | rfl | rfl | rfl
    exacts [hload .byte, hload .half, hload .word, hstore .byte, hstore .half, hstore .word]
  · have hload : ∀ n, ¬(n = .word ∧ ea ∈ wordDevices) →
        finish (loadInto n z x imm s) = .fault (.deviceFault ea n.bytes) := fun n hform =>
      finish_loadInto_fault (memRead_deviceFault hdevice hform s)
    have hstore : ∀ n, ¬(n = .word ∧ ea ∈ wordDevices) → ¬(n = .byte ∧ ea = 0x80808890#32) →
        finish (storeFrom n z x imm s) = .fault (.deviceFault ea n.bytes) := fun n hform hterm =>
      finish_storeFrom_fault (memWrite_deviceFault hdevice hform hterm (s.reg z) s)
    exact ⟨hload .byte nofun, hload .half nofun, hstore .half nofun nofun,
      fun hterm => hstore .byte nofun fun e => hterm e.2,
      fun hword => ⟨hload .word fun e => hword e.2, hstore .word (fun e => hword e.2) nofun⟩⟩

/-! ### The stack (R84, R85) -/

theorem Memory.loadWord_storeWord_self (m : Memory) (a : Nat) (v : Word) : (m.storeWord a v).loadWord a = v := by
  rw [Memory.loadWord_eq_wordAt, Memory.wordAt_storeWord_self]

/-- A register write leaves all but the registers as it is. -/
theorem writeReg_rest (s : State) (r : RegIdx) (v : Word) :
    SameMem s (s.writeReg r v) ∧ SameControl s (s.writeReg r v) ∧ SameDevices s (s.writeReg r v) := by
  simp [SameMem, SameControl, SameDevices]

section
variable {v : Word} {s t : State}

theorem push_mem (h : push v s = .ok t) : t.mem = s.mem.storeWord (s.reg SP).toNat v := by
  obtain ⟨-, rfl⟩ := push_eq_ok.1 h
  exact State.writeReg_mem ..

/-- Beside SP, a push changes the word at the old SP alone (R84). -/
theorem push_rest (h : push v s = .ok t) : SameMemOutside [s.reg SP] s t ∧ SameControl s t ∧ SameDevices s t := by
  refine ⟨fun b hb => ?_, ?_⟩
  · rw [push_mem h, Memory.read_storeWord_of_ne _ (hb _ List.mem_cons_self)]
  · obtain ⟨-, rfl⟩ := push_eq_ok.1 h
    exact (writeReg_rest (s.setMem _) SP _).2

/-- What a push stored, the pop after it loads, and SP is back where it was (R85). -/
theorem pop_of_push (h : push v s = .ok t) : pop t = .ok (v, t.writeReg SP (s.reg SP)) := by
  obtain ⟨ha, -⟩ := push_eq_ok.1 h
  have hsp : t.reg SP + 4#32 = s.reg SP := by rw [push_reg h, if_pos rfl, BitVec.sub_add_cancel]
  rw [pop_eq_ok, hsp, push_mem h]
  exact ⟨ha, (Memory.loadWord_storeWord_self ..).symm, rfl⟩

/-- SP is all that a push changes in the registers, so writing it back restores them. -/
theorem sameRegs_push_writeReg_sp (h : push v s = .ok t) : SameRegs s (t.writeReg SP (s.reg SP)) := fun r => by
  by_cases hr : r = SP
  · rw [hr, State.reg_writeReg_self _ (by decide)]
  · rw [State.reg_writeReg_of_ne _ hr, push_reg h, if_neg hr]

end

/-- Settles O31, by the equations of `push` and `pop` onto backing memory and off it, and the round trip `pop_of_push`. -/
theorem pushAndPopAreWordAccessesAtSp : Obligations.PushAndPopAreWordAccessesAtSp := by
  refine ⟨fun s v => ⟨fun ha => ⟨_, memWrite_backing ha .word v s, push_backing ha⟩, push_fault⟩,
    fun s => ⟨fun ha => ⟨_, _, ?_, pop_backing ha, State.reg_writeReg_self s (by decide) _⟩, pop_fault⟩,
    fun s v ha => ?_⟩
  · rw [memRead_backing ha, State.writeReg_mem]
    rfl
  · have hpush := push_backing (v := v) ha
    obtain ⟨hmem, hcontrol, hdevices⟩ := push_rest hpush
    refine ⟨_, _, hpush, (push_reg hpush SP).trans (if_pos rfl), ?_, hmem, hcontrol, hdevices,
      fun r hr => (push_reg hpush r).trans (if_neg hr), pop_of_push hpush, sameRegs_push_writeReg_sp hpush, writeReg_rest ..⟩
    rw [push_mem hpush, Memory.wordAt_storeWord_self]

end Sys2Proof.Machine
end

section
/-! PROOFS. The encoding family, 30_encoding.md: encoding and then decoding (rules R110, R126), the words that are an instruction
(rule R120), the bits a decoding reads (rule R121), and the places of the fields (rules R111 to R114). -/

namespace Sys2Proof.Laws

/-! ### Encoding and then decoding -/

/-- The word of a well-formed instruction decodes to it, by the lemma of its constructor. -/
theorem decode_encode {i : Instr} (h : i.wellFormed = true) : decode (encode i) = .ok i := by
  cases i with
  | mov => exact DecodeEncode.mov _ _ h
  | movs => exact DecodeEncode.movs _ _ h
  | add => exact DecodeEncode.add _ _ _ h
  | sub => exact DecodeEncode.sub _ _ _ h
  | addi => exact DecodeEncode.addi _ _ _ h
  | subi => exact DecodeEncode.subi _ _ _ h
  | muli => exact DecodeEncode.muli _ _ _ h
  | divi => exact DecodeEncode.divi _ _ _ h
  | modi => exact DecodeEncode.modi _ _ _ h
  | mul => exact DecodeEncode.mul _ _ _ _ h
  | muls => exact DecodeEncode.muls _ _ _ _ h
  | sll => exact DecodeEncode.sll _ _ _ _ h
  | sla => exact DecodeEncode.sla _ _ _ _ h
  | srl => exact DecodeEncode.srl _ _ _ _ h
  | sra => exact DecodeEncode.sra _ _ _ _ h
  | div => exact DecodeEncode.div _ _ _ _ h
  | divs => exact DecodeEncode.divs _ _ _ _ h
  | cmp => exact DecodeEncode.cmp _ _ h
  | cmpi => exact DecodeEncode.cmpi _ _ h
  | and => exact DecodeEncode.and _ _ _ h
  | or => exact DecodeEncode.or _ _ _ h
  | not => exact DecodeEncode.not _ _ h
  | xor => exact DecodeEncode.xor _ _ _ h
  | l8 => exact DecodeEncode.l8 _ _ _ h
  | l16 => exact DecodeEncode.l16 _ _ _ h
  | l32 => exact DecodeEncode.l32 _ _ _ h
  | s8 => exact DecodeEncode.s8 _ _ _ h
  | s16 => exact DecodeEncode.s16 _ _ _ h
  | s32 => exact DecodeEncode.s32 _ _ _ h
  | push => exact DecodeEncode.push _ h
  | pop => exact DecodeEncode.pop _ h
  | bae => exact DecodeEncode.bae _ h
  | bat => exact DecodeEncode.bat _ h
  | bbe => exact DecodeEncode.bbe _ h
  | bbt => exact DecodeEncode.bbt _ h
  | beq => exact DecodeEncode.beq _ h
  | bge => exact DecodeEncode.bge _ h
  | bgt => exact DecodeEncode.bgt _ h
  | biv => exact DecodeEncode.biv _ h
  | ble => exact DecodeEncode.ble _ h
  | blt => exact DecodeEncode.blt _ h
  | bne => exact DecodeEncode.bne _ h
  | bni => exact DecodeEncode.bni _ h
  | bnz => exact DecodeEncode.bnz _ h
  | bun => exact DecodeEncode.bun _ h
  | bzd => exact DecodeEncode.bzd _ h
  | callF => exact DecodeEncode.callF _ _ h
  | callS => exact DecodeEncode.callS _ h
  | ret => exact DecodeEncode.ret h
  | reti => exact DecodeEncode.reti h
  | cbr => exact DecodeEncode.cbr _ _ h
  | sbr => exact DecodeEncode.sbr _ _ h
  | int => exact DecodeEncode.int _ h

/-- Settles O6: decoding the bytes of a word decodes the word, and the word of a well-formed instruction decodes to it. -/
theorem decodingTheEncodedBytesGivesTheInstruction : Obligations.DecodingTheEncodedBytesGivesTheInstruction := by
  intro i rest h
  rw [encodeBytes, decodeBytes_wordBytes, decode_encode h]
  rfl

/-! ### Which words are instructions -/

/-- The opcode map leaves out exactly the unassigned opcodes (R120). -/
theorem opcodeAt_eq_none_iff : ∀ op : BitVec 6, opcodeAt op = none ↔ op ∈ Machine.unassignedOpcodes := by decide

/-- Whatever an opcode selects, every word is one of its instructions (R120). -/
theorem decodeAs_ok (o : Opcode) (w : Word) : ∃ i, decodeAs o w = .ok i := by
  cases o with
  | shiftMulDiv => exact decodeFamily04_ok w
  | bitSetClear => exact decodeFamily21_ok w
  | _ => exact ⟨_, rfl⟩

theorem decode_unassigned {w : Word} (h : fieldOp w ∈ Machine.unassignedOpcodes) :
    decode w = .error (.unknownOpcode (fieldOp w)) := by
  rw [decode, decodeOp, (opcodeAt_eq_none_iff _).2 h]

theorem decode_assigned {w : Word} (h : fieldOp w ∉ Machine.unassignedOpcodes) : ∃ i, decode w = .ok i := by
  obtain ⟨o, ho⟩ := Option.ne_none_iff_exists'.1 (mt (opcodeAt_eq_none_iff _).1 h)
  rw [decode, decodeOp, ho]
  exact decodeAs_ok o w

/-- Settles O3: what is decoded is well-formed, and so is decoded from its own word too. -/
theorem everyWordIsAnInstructionOrInvalid : Obligations.EveryWordIsAnInstructionOrInvalid := by
  refine fun w => ⟨decode_unassigned, fun h => ?_⟩
  obtain ⟨i, hi⟩ := decode_assigned h
  have hwf : i.wellFormed = true := Machine.decode_wellFormed hi
  exact ⟨i, hi, hwf, decode_encode hwf⟩

/-! ### The bits a decoding reads -/

/-- Words that agree under a mask agree in every field that the mask covers. -/
theorem extractLsb'_eq_of_mask {w w' m : Word} (h : w &&& m = w' &&& m) {k n : Nat}
    (hm : m.extractLsb' k n = BitVec.allOnes n) : w.extractLsb' k n = w'.extractLsb' k n := by
  have hfield := congrArg (BitVec.extractLsb' k n) h
  rwa [BitVec.extractLsb'_and, BitVec.extractLsb'_and, hm, BitVec.and_allOnes, BitVec.and_allOnes] at hfield

/-- An opcode that selects an entry of the map is that entry's number (R117). -/
theorem eq_opcodeOf_of_opcodeAt {op : BitVec 6} {o : Opcode} (h : opcodeAt op = some o) : op = opcodeOf o := by
  have hall : ∀ op : BitVec 6, ∀ o ∈ opcodeAt op, op = opcodeOf o := by decide
  exact hall op o h

/-- Every field that an instruction reads is under the mask of its opcode (R121). -/
theorem decodeAs_eq_of_mask (o : Opcode) {w w' : Word}
    (h : w &&& Machine.readMask (opcodeOf o) = w' &&& Machine.readMask (opcodeOf o)) : decodeAs o w = decodeAs o w' := by
  cases o with
  | ret | reti => rfl
  | shiftMulDiv =>
    simp (disch := decide) only [decodeAs, decodeFamily04, fieldOp, fieldSub_eq, fieldZ_eq, fieldX_eq, fieldY_eq, fieldI_eq,
      extractLsb'_eq_of_mask h]
  | bitSetClear =>
    simp (disch := decide) only [decodeAs, decodeFamily21, fieldOp, fieldB_eq, fieldZ_eq, fieldX_eq, extractLsb'_eq_of_mask h]
  | push | pop =>
    simp (disch := decide) only [decodeAs, fieldV_eq, fieldW_eq, fieldX_eq, fieldY_eq, fieldZ_eq, extractLsb'_eq_of_mask h]
  | _ =>
    simp (disch := decide) only [decodeAs, fieldZ_eq, fieldX_eq, fieldY_eq, fieldImm21_eq, fieldZF_eq, fieldXF_eq,
      fieldImm16_eq, fieldImm26_eq, extractLsb'_eq_of_mask h]

/-- Settles O4: the opcodes are the same, and so is what the selected entry reads. -/
theorem ignoredBitsAreIgnored : Obligations.IgnoredBitsAreIgnored := by
  intro w w' hop h
  rw [decode, decode, ← hop, decodeOp, decodeOp]
  cases ho : opcodeAt (fieldOp w) with
  | none => rfl
  | some o =>
    rw [eq_opcodeOf_of_opcodeAt ho] at h
    exact decodeAs_eq_of_mask o h

/-! ### The places of the fields -/

/-- The field of `n` bits at `k` in arithmetic. -/
theorem toNat_extractLsb'_div (w : Word) (k n : Nat) : (w.extractLsb' k n).toNat = w.toNat / 2 ^ k % 2 ^ n := by
  rw [BitVec.extractLsb'_toNat, Nat.shiftRight_eq_div_pow]

/-- The field of the `n` lowest bits in arithmetic. -/
theorem toNat_extractLsb'_zero (w : Word) (n : Nat) : (w.extractLsb' 0 n).toNat = w.toNat % 2 ^ n := by
  rw [toNat_extractLsb'_div, Nat.pow_zero, Nat.div_one]

/-- Settles O1: each field is an `extractLsb'` of the word, and above OP there is nothing to cut off. -/
theorem fieldsStandWhereTheFormatsSay : Obligations.FieldsStandWhereTheFormatsSay := by
  intro w
  have hop : (fieldOp w).toNat = w.toNat / 2 ^ 26 :=
    (toNat_extractLsb'_div w 26 6).trans (Nat.mod_eq_of_lt (by have := w.isLt; omega))
  rw [fieldSub_eq, fieldV_eq, fieldW_eq, fieldI_eq, fieldB_eq]
  exact ⟨hop, toNat_extractLsb'_div w 21 5, toNat_extractLsb'_div w 21 5, toNat_extractLsb'_div w 16 5,
    toNat_extractLsb'_div w 16 5, toNat_extractLsb'_div w 11 5, toNat_extractLsb'_div w 8 3, toNat_extractLsb'_div w 6 5,
    toNat_extractLsb'_zero w 5, toNat_extractLsb'_zero w 5, toNat_extractLsb'_zero w 1, toNat_extractLsb'_zero w 21,
    toNat_extractLsb'_zero w 16, toNat_extractLsb'_zero w 26⟩

/-- A field at bit 0 is not shifted (R126). -/
theorem place_at_zero {n : Nat} (v : BitVec n) : place v 0 = v.setWidth 32 := BitVec.shiftLeft_zero _

theorem packU_formula (op : BitVec 6) (z x y : RegIdx) (l : BitVec 11) : packU op z x y l =
    op.setWidth 32 <<< 26 ||| z.setWidth 32 <<< 21 ||| x.setWidth 32 <<< 16 ||| y.setWidth 32 <<< 11 ||| l.setWidth 32 := by
  rw [← place_at_zero l]
  rfl

theorem packF_formula (op : BitVec 6) (z x : RegIdx) (imm : BitVec 16) : packF op z x imm =
    op.setWidth 32 <<< 26 ||| z.setWidth 32 <<< 21 ||| x.setWidth 32 <<< 16 ||| imm.setWidth 32 := by
  rw [← place_at_zero imm]
  rfl

theorem packS_formula (op : BitVec 6) (imm : BitVec 26) : packS op imm = op.setWidth 32 <<< 26 ||| imm.setWidth 32 := by
  rw [← place_at_zero imm]
  rfl

/-- Settles O2: the three formulas, and each example decoded. -/
theorem encodingFormulasAndExamples : Obligations.EncodingFormulasAndExamples :=
  ⟨packU_formula, packF_formula, packS_formula, by decide⟩

end Sys2Proof.Laws
end

section
/-! PROOFS. The fetch cycle, 40_fetch_dispatch.md: the fetch (rule R141), a step as its phases in order (rules R140, R149), the
phases of a quiet cycle (rules R146 to R148), and the event stream (rule R156). -/

namespace Sys2Proof.Machine

/-! ### The fetch (R141; 20_memory.md R83) -/

/-- A fetch from backing memory, in the word at PC >> 2. -/
theorem fetch_backing {s : State} (h : InBacking (s.reg PC)) :
    fetch s = .ok (wordAt s.mem ((s.reg PC).toNat / 4), (s.writeReg IR (wordAt s.mem ((s.reg PC).toNat / 4))).emit
      (.exec (s.reg PC) (wordAt s.mem ((s.reg PC).toNat / 4)))) := by
  rw [← Memory.loadWord_eq_wordAt]
  exact fetch_eq_ok.2 ⟨h, rfl, rfl⟩

/-- Outside backing memory a device word and an address of nothing are alike. -/
theorem fetch_fault {s : State} (h : ¬InBacking (s.reg PC)) : fetch s = .error (.fetchFault (s.reg PC)) := by
  unfold fetch
  dsimp only
  split
  · rfl
  · exact if_neg h

/-- IR is not slot 0, so a write to it is read back. -/
theorem reg_writeReg_IR (s : State) (v : Word) (r : RegIdx) : (s.writeReg IR v).reg r = if r = IR then v else s.reg r := by
  by_cases hr : r = IR
  · rw [hr, State.reg_writeReg_self s (by decide), if_pos rfl]
  · rw [State.reg_writeReg_of_ne s hr, if_neg hr]

/-- Settles O51, by `fetch_backing` and `fetch_fault`. -/
theorem fetchReadsTheWordAtPc : Obligations.FetchReadsTheWordAtPc := by
  refine fun s => ⟨fun h => ?_, fetch_fault⟩
  obtain ⟨hmem, hcontrol, hwdt, hfpu, hevents⟩ := writeReg_rest s IR (wordAt s.mem ((s.reg PC).toNat / 4))
  exact ⟨_, fetch_backing h, reg_writeReg_IR s _, congrArg _ hevents, hmem, hcontrol, hwdt, hfpu⟩

/-! ### A step as its phases (R140) -/

section
variable {s s1 u d e : State} {w : Word} {i : Instr} {x : Fault}

theorem step_running (hfault : s.fault = none) (hrun : s.halted = false) : step s = cycle s := by
  rw [step, hfault, hrun]
  rfl

theorem step_fetch_fault (hfault : s.fault = none) (hrun : s.halted = false) (hfetch : fetch s = .error x) :
    step s = .fault x := by
  rw [step_running hfault hrun, cycle, hfetch]

/-- A running step on a word that decodes is the instruction and then the end of the cycle. -/
theorem step_decoded (hfault : s.fault = none) (hrun : s.halted = false) (hfetch : fetch s = .ok (w, s1))
    (hdecode : decode w = .ok i) : step s = endCycle (exec i s1) := by
  rw [step_running hfault hrun, cycle, hfetch]
  dsimp only
  rw [execute, hdecode]

theorem endCycle_halted (h : u.halted = true) : endCycle (.next u) = .next u := if_pos h

theorem endCycle_running (h : u.halted = false) : endCycle (.next u) = finish (afterExecute u) :=
  if_neg (Bool.eq_false_iff.1 h)

theorem afterExecute_drain_fault (hdrain : drain u = .error x) : afterExecute u = .error x := by
  rw [afterExecute, hdrain]
  rfl

/-- Past a drain that answers, the two ticks and the advance are left. -/
theorem afterExecute_drained (hdrain : drain u = .ok d) :
    afterExecute u = wdtTick d >>= fun e => (fpuTick e).map advance := by
  rw [afterExecute, hdrain]
  rfl

theorem afterExecute_wdtTick_fault (hdrain : drain u = .ok d) (hwdt : wdtTick d = .error x) :
    afterExecute u = .error x := by
  rw [afterExecute_drained hdrain, hwdt]
  rfl

/-- Past the drain and the watchdog tick, the FPU tick decides. -/
theorem afterExecute_fpuTick (hdrain : drain u = .ok d) (hwdt : wdtTick d = .ok e) :
    afterExecute u = (fpuTick e).map advance := by
  rw [afterExecute_drained hdrain, hwdt]
  rfl

end

/-- Settles O52: a running step is `endCycle` of the instruction, and each phase decides the rest of `afterExecute`. -/
theorem stepRunsTheDecodedInstruction : Obligations.StepRunsTheDecodedInstruction := by
  refine ⟨fun s x => step_fetch_fault, fun s s1 w i hfault hrun hfetch hdecode => ?_⟩
  rw [step_decoded hfault hrun hfetch hdecode]
  refine ⟨fun u hexec hhalt => ?_, fun u d e hexec hurun hdrain hwdt => ?_, fun u x hexec hurun hdrain => ?_,
    fun u d x hexec hurun hdrain hwdt => ?_, fun x hexec => ?_⟩ <;> rw [hexec]
  · exact endCycle_halted hhalt
  · rw [endCycle_running hurun, afterExecute_fpuTick hdrain hwdt]
    cases fpuTick e <;> rfl
  · rw [endCycle_running hurun, afterExecute_drain_fault hdrain]
    rfl
  · rw [endCycle_running hurun, afterExecute_wdtTick_fault hdrain hwdt]
    rfl
  · rfl

/-! ### The halt (R149) -/

theorem decode_int_zero : decode 0xfc000000#32 = .ok (.int 0#26) := rfl

/-- Settles O54: the step is the fetch and then `int 0`, which halts, and `endCycle` adds nothing to a halted state. -/
theorem intZeroEndsTheCycleAtOnce : Obligations.IntZeroEndsTheCycleAtOnce := by
  intro s hfault hrun hpc hword
  have hfetch := fetch_backing hpc
  rw [hword] at hfetch
  have hstep := step_decoded hfault hrun hfetch decode_int_zero
  rw [exec_int_zero, endCycle_halted rfl] at hstep
  obtain ⟨hmem, ⟨hpending, -, hmark⟩, hwdt, hfpu, hevents⟩ := writeReg_rest s IR 0xfc000000#32
  exact ⟨_, hstep, rfl, hmark.trans hfault, reg_writeReg_IR s _, hmem, hpending, hwdt, hfpu,
    congrArg (fun l => Event.endRun :: Event.exec (s.reg PC) 0xfc000000#32 :: l) hevents⟩

/-! ### The phases of a quiet cycle (R146 to R148) -/

section
variable {s : State}

/-- Nothing drains while IE is clear or no entry is pending (60_exceptions.md R345). -/
theorem drain_idle (h : s.flag .ie = false ∨ s.pending = []) : drain s = .ok s := by
  unfold drain
  split
  · rfl
  next e rest hp =>
    have hie : s.flag .ie = false := h.resolve_right fun hnil => by
      rw [hp] at hnil
      cases hnil
    rw [hie]
    rfl

/-- A word below 2^31 has EN clear (10_state.md R45). -/
theorem wdtTick_disabled (h : s.wdt.toNat < 2 ^ 31) : wdtTick s = .ok s := by
  have hen : wdtEnabled s.wdt = false := Nat.testBit_lt_two_pow h
  rw [wdtTick, hen]
  rfl

theorem fpuTick_silent (h : (Param.fpuModel.tick s.fpu).1 = none) :
    fpuTick s = .ok (s.setFpu (Param.fpuModel.tick s.fpu).2) := by
  rw [fpuTick_eq, h, serveFpu_none]

end

/-- Settles O53: the drain and the watchdog tick change nothing, the FPU tick the FPU alone, and the advance the PC alone. -/
theorem quietStepAdvancesThePcByFour : Obligations.QuietStepAdvancesThePcByFour := by
  intro s s1 u w i hfault hrun hfetch hdecode hexec hurun hdrain hwdt hfpu
  have hafter : afterExecute u = .ok (advance (u.setFpu (Param.fpuModel.tick u.fpu).2)) := by
    rw [afterExecute_fpuTick (drain_idle hdrain) (wdtTick_disabled hwdt), fpuTick_silent hfpu]
    rfl
  have hstep : step s = .next (advance (u.setFpu (Param.fpuModel.tick u.fpu).2)) := by
    rw [step_decoded hfault hrun hfetch hdecode, hexec, endCycle_running hurun, hafter]
    rfl
  obtain ⟨hmem, hcontrol, hdog, hport, hevents⟩ :=
    writeReg_rest (u.setFpu (Param.fpuModel.tick u.fpu).2) PC (u.reg PC + 4#32)
  exact ⟨_, hstep, State.reg_writeReg_self _ (by decide) _, fun r hr => State.reg_writeReg_of_ne _ hr _, hmem, hcontrol, hdog,
    hport, hevents⟩

/-! ### The event stream only grows (R156) -/

section
variable {s t : State}

theorem Update.events_suffix {ds : List RegIdx} (h : Update ds s t) : s.events <:+ t.events := by
  cases h with
  | reg v _ => rw [State.writeReg_events]
  | flag b _ => rw [State.setFlag_events]
  | mem _ | wdt _ | fpu _ => exact List.suffix_refl _
  | event _ _ => exact List.suffix_cons ..

theorem Updates.events_suffix {ds : List RegIdx} (h : Updates ds s t) : s.events <:+ t.events := by
  induction h with
  | refl => exact List.suffix_refl _
  | tail _ hlast ih => exact ih.trans hlast.events_suffix

theorem exec_events_suffix {i : Instr} (h : exec i s = .next t) : s.events <:+ t.events := by
  by_cases hi : i = .int 0#26
  · rw [hi, exec_int_zero] at h
    cases h
    exact List.suffix_cons ..
  · exact (exec_updates hi h).events_suffix

theorem execute_events_suffix {w : Word} (h : execute w s = .next t) : s.events <:+ t.events := by
  obtain ⟨i, -, hexec⟩ | ⟨_, -, htrap⟩ := execute_cases h
  · exact exec_events_suffix hexec
  · exact (invalidTrap_updates (ds := []) htrap).events_suffix

theorem hwEnter_events_suffix {p : Prio} {cause ipcval : Word} (h : hwEnter p cause ipcval s = .ok t) :
    s.events <:+ t.events := (hwEnter_updates (ds := []) h).events_suffix

theorem schedule_events_suffix {p : Nat} {cause saved : Word} (h : schedule p cause saved s = .ok t) :
    s.events <:+ t.events := by
  obtain ⟨q, -, ⟨-, henter⟩ | ⟨-, rfl⟩⟩ := schedule_cases h
  · exact hwEnter_events_suffix henter
  · exact List.suffix_refl _

theorem drain_events_suffix (h : drain s = .ok t) : s.events <:+ t.events := by
  obtain ⟨rfl, -⟩ | ⟨e, rest, -, -, henter⟩ := drain_cases h
  · exact List.suffix_refl _
  · exact hwEnter_events_suffix (s := s.setPending rest) henter

theorem wdtTick_events_suffix (h : wdtTick s = .ok t) : s.events <:+ t.events := by
  obtain ⟨-, rfl⟩ | ⟨-, -, rfl⟩ | ⟨-, -, u, hu, rfl⟩ := wdtTick_cases h
  · exact List.suffix_refl _
  · exact List.suffix_refl _
  · have hrequest : s.events <:+ u.events := schedule_events_suffix hu
    exact hrequest

theorem fpuTick_events_suffix (h : fpuTick s = .ok t) : s.events <:+ t.events := by
  obtain rfl | ⟨q, hq⟩ := fpuTick_cases h
  · exact List.suffix_refl _
  · exact schedule_events_suffix (s := s.setFpu s.fpu.ticked) hq

theorem afterExecute_events_suffix (h : afterExecute s = .ok t) : s.events <:+ t.events := by
  obtain ⟨s1, s2, s3, hdrain, hwdt, hfpu, rfl⟩ := afterExecute_eq_ok.1 h
  rw [advance, State.writeReg_events]
  exact ((drain_events_suffix hdrain).trans (wdtTick_events_suffix hwdt)).trans (fpuTick_events_suffix hfpu)

/-- The fetch puts `Exec` of the word at PC >> 2 on the stream. -/
theorem fetch_events {w : Word} (h : fetch s = .ok (w, t)) :
    t.events = .exec (s.reg PC) (wordAt s.mem ((s.reg PC).toNat / 4)) :: s.events := by
  obtain ⟨-, rfl, rfl⟩ := fetch_eq_ok.1 h
  rw [State.emit_events, State.writeReg_events, Memory.loadWord_eq_wordAt]

end

/-- Settles O60: the fetch emits `Exec` first, and neither the execution nor phases 5 to 8 take an event back. -/
theorem everyCycleEmitsExecFirst : Obligations.EveryCycleEmitsExecFirst := by
  intro s t hstep hrun
  obtain ⟨-, ⟨hhalted, -⟩ | ⟨-, w, s1, u, hfetch, hexec, hend⟩⟩ := step_cases hstep
  · exact absurd (hhalted.symm.trans hrun) (by decide)
  · have hexecuted : s1.events <:+ u.events := execute_events_suffix hexec
    have hended : u.events <:+ t.events := by
      obtain ⟨-, rfl⟩ | ⟨-, hafter⟩ := hend
      · exact List.suffix_refl _
      · exact afterExecute_events_suffix hafter
    obtain ⟨later, hlater⟩ := hexecuted.trans hended
    exact ⟨later, by rw [← hlater, fetch_events hfetch]⟩

end Sys2Proof.Machine
end

section
/-! PROOFS. The arithmetic family, 41_arithmetic.md: the moves (rules R160, R161), the sums and differences with their flags
(rules R162 to R165, R169), and OV as the exact integer result's (rule R169; 95_test_vectors.md L1.2). -/

namespace Sys2Proof.Machine

/-! ### The immediates as integers (30_encoding.md R115) -/

theorem zext21_eq_ofNat (imm : BitVec 21) : zext21 imm = BitVec.ofNat 32 imm.toNat := (BitVec.ofNat_toNat 32 imm).symm

theorem sext21_eq_ofInt (imm : BitVec 21) : sext21 imm = BitVec.ofInt 32 imm.toInt := rfl

theorem sext16_eq_ofInt (imm : BitVec 16) : sext16 imm = BitVec.ofInt 32 imm.toInt := rfl

theorem toInt_sext16 (imm : BitVec 16) : (sext16 imm).toInt = imm.toInt := BitVec.toInt_signExtend_of_le (by decide)

/-! ### Writing one register -/

theorem lastWrite_concat (ws : List (RegIdx × Word)) (z : RegIdx) (v : Word) (r : RegIdx) (old : Word) :
    lastWrite (ws ++ [(z, v)]) r old = if r = z ∧ r ≠ 0#5 then v else lastWrite ws r old := by
  simp [lastWrite, eq_comm (a := z)]

section
variable {s t : State} {ws : List (RegIdx × Word)}

/-- One more register written, before any flag, comes last among the register writes (R14, R31). -/
theorem Wrote.writeReg (h : Wrote s t ws []) (z : RegIdx) (v : Word) : Wrote s (t.writeReg z v) (ws ++ [(z, v)]) [] := by
  obtain ⟨hregs, -, hbits, hmem, hcontrol, hdevices⟩ := h
  refine ⟨fun r hr => ?_, by simp, fun j hj hfree => ?_, by simpa [SameMem] using hmem,
    by simpa [SameControl] using hcontrol, by simpa [SameDevices] using hdevices⟩
  · rw [State.reg_writeReg, lastWrite_concat, hregs r hr]
  · rw [State.reg_writeReg, lastWrite_concat]
    split
    · rfl
    · exact hbits j hj hfree

/-! ### The four flags of a sum or difference (R169) -/

/-- The carry out of bit 31 says that the unsigned sum needs a 33rd bit. -/
theorem addCarry_eq_decide (a b : Word) : addCarry a b = decide (2 ^ 32 ≤ a.toNat + b.toNat) := by
  have hsum : (a.setWidth 64 + b.setWidth 64).toNat = a.toNat + b.toNat := by
    simp only [BitVec.toNat_add, BitVec.toNat_setWidth]
    omega
  rw [addCarry, ← BitVec.testBit_toNat, hsum, Nat.testBit_eq_decide_div_mod_eq, decide_eq_decide]
  omega

/-- The borrow out of bit 31 says that the subtrahend is the larger unsigned number. -/
theorem subBorrow_eq_decide (a b : Word) : subBorrow a b = decide (a.toNat < b.toNat) := by
  have hdiff : (a.setWidth 64 - b.setWidth 64).toNat = (2 ^ 64 - b.toNat + a.toNat) % 2 ^ 64 := by
    simp only [BitVec.toNat_sub, BitVec.toNat_setWidth]
    omega
  rw [subBorrow, ← BitVec.testBit_toNat, hdiff, Nat.testBit_eq_decide_div_mod_eq, decide_eq_decide]
  omega

theorem sumFlags_eq (a b : Word) : sumFlags a b =
    [(.zn, a + b == 0#32), (.sn, (a + b).msb), (.cy, addCarry a b), (.ov, addOverflow a b)] := by
  simp [sumFlags, addCarry_eq_decide, addOverflow, BitVec.msb_eq_getLsbD_last, beq_eq_decide, bne]

theorem differenceFlags_eq (a b : Word) : differenceFlags a b =
    [(.zn, a - b == 0#32), (.sn, (a - b).msb), (.cy, subBorrow a b), (.ov, subOverflow a b)] := by
  simp [differenceFlags, subBorrow_eq_decide, subOverflow, BitVec.msb_eq_getLsbD_last, beq_eq_decide, bne]

theorem Wrote.addFlags (h : Wrote s t ws []) (a b : Word) : Wrote s (addFlags a b t) ws (sumFlags a b) := by
  rw [sumFlags_eq]
  exact (((h.setFlag (by simp) _).setFlag (by simp) _).setFlag (by simp) _).setFlag (by simp) _

theorem Wrote.subFlags (h : Wrote s t ws []) (a b : Word) : Wrote s (subFlags a b t) ws (differenceFlags a b) := by
  rw [differenceFlags_eq]
  exact (((h.setFlag (by simp) _).setFlag (by simp) _).setFlag (by simp) _).setFlag (by simp) _

end

/-! ### The instructions' next states -/

section
variable (s : State) (z : RegIdx)

theorem writeReg_wrote (v : Word) : Wrote s (s.writeReg z v) [(z, v)] [] := (Wrote.refl s).writeReg z v

theorem addInto_wrote (a b : Word) : ∃ t, addInto z a b s = .next t ∧ Wrote s t [(z, a + b)] (sumFlags a b) :=
  ⟨_, rfl, (writeReg_wrote s z (a + b)).addFlags a b⟩

theorem subInto_wrote (a b : Word) : ∃ t, subInto z a b s = .next t ∧ Wrote s t [(z, a - b)] (differenceFlags a b) :=
  ⟨_, rfl, (writeReg_wrote s z (a - b)).subFlags a b⟩

end

/-- Settles O18: each instruction is `addInto` or `subInto` of its operands, whose register write and flag writes are followed
one after another. -/
theorem addAndSubtractWriteResultAndFlags : Obligations.AddAndSubtractWriteResultAndFlags := by
  refine ⟨fun _ h => Laws.decode_of_opcode (o := .add) h, fun _ h => Laws.decode_of_opcode (o := .sub) h,
    fun _ h => Laws.decode_of_opcode (o := .addi) h, fun _ h => Laws.decode_of_opcode (o := .subi) h,
    fun s z x y imm => ?_⟩
  rw [← sext16_eq_ofInt]
  exact ⟨addInto_wrote s z (s.reg x) (s.reg y), subInto_wrote s z (s.reg x) (s.reg y),
    addInto_wrote s z (s.reg x) (sext16 imm), subInto_wrote s z (s.reg x) (sext16 imm)⟩

/-- Settles O17: a move is one register write, of the immediate extended to 32 bits. -/
theorem movAndMovsWriteTheImmediate : Obligations.MovAndMovsWriteTheImmediate := by
  refine ⟨fun _ h => Laws.decode_of_opcode (o := .mov) h, fun _ h => Laws.decode_of_opcode (o := .movs) h,
    fun s z imm => ⟨⟨_, exec_mov s z imm, ?_⟩, ⟨_, exec_movs s z imm, ?_⟩⟩⟩
  · rw [← zext21_eq_ofNat]
    exact writeReg_wrote s z (zext21 imm)
  · rw [← sext21_eq_ofInt]
    exact writeReg_wrote s z (sext21 imm)

/-! ### OV as the exact integer result's (R169; 95_test_vectors.md L1.2) -/

/-- Operands of one sign and a sum with the other: the library's signed overflow of the addition. -/
theorem addOverflow_eq_decide (a b : Word) : addOverflow a b = decide (OutOfRange (a.toInt + b.toInt)) := by
  have hlib : addOverflow a b = a.saddOverflow b := (BitVec.saddOverflow_eq a b).symm
  rw [hlib, BitVec.saddOverflow, Bool.or_comm, ← Bool.decide_or]

/-- Operands of two signs and a difference with the subtrahend's: the library's signed overflow of the subtraction. -/
theorem subOverflow_eq_decide (a b : Word) : subOverflow a b = decide (OutOfRange (a.toInt - b.toInt)) := by
  have hlib : subOverflow a b = a.ssubOverflow b := by
    rw [BitVec.ssubOverflow_eq, subOverflow]
    cases a.msb <;> cases b.msb <;> simp
  rw [hlib, BitVec.ssubOverflow, Bool.or_comm, ← Bool.decide_or]

section
variable {s t : State} {z : RegIdx} {a b : Word}

theorem flag_ov_addFlags : (addFlags a b s).flag .ov = decide (OutOfRange (a.toInt + b.toInt)) := by
  rw [addFlags, State.flag_setFlag, if_pos rfl, addOverflow_eq_decide]

theorem flag_ov_subFlags : (subFlags a b s).flag .ov = decide (OutOfRange (a.toInt - b.toInt)) := by
  rw [subFlags, State.flag_setFlag, if_pos rfl, subOverflow_eq_decide]

theorem addInto_flag_ov (h : addInto z a b s = .next t) : t.flag .ov = decide (OutOfRange (a.toInt + b.toInt)) := by
  cases h
  exact flag_ov_addFlags

theorem subInto_flag_ov (h : subInto z a b s = .next t) : t.flag .ov = decide (OutOfRange (a.toInt - b.toInt)) := by
  cases h
  exact flag_ov_subFlags

end

/-- Settles O19: OV is written last, and the sign rule of R169 holds exactly when the exact result does not fit. -/
theorem overflowMeansTheExactResultDoesNotFit : Obligations.OverflowMeansTheExactResultDoesNotFit := by
  intro s t z x y imm
  rw [← toInt_sext16 imm]
  refine ⟨addInto_flag_ov, addInto_flag_ov, subInto_flag_ov, subInto_flag_ov, fun h => ?_, fun h => ?_⟩
  · cases h
    exact flag_ov_subFlags
  · cases h
    exact flag_ov_subFlags

end Sys2Proof.Machine
end

section
/-! PROOFS. TAKING AN EXCEPTION, 60_exceptions.md: the entry protocol onto backing memory (rules R322, R323). -/

namespace Sys2Proof.Machine

/-! ### One change after another -/

theorem SameMemOutside.trans {l l' : List Word} {s t u : State} (h : SameMemOutside l s t) (h' : SameMemOutside l' t u) :
    SameMemOutside (l ++ l') s u := fun b hb => by
  rw [h' b fun a ha => hb a (List.mem_append_right l ha), h b fun a ha => hb a (List.mem_append_left l' ha)]

theorem SameControl.trans {s t u : State} : SameControl s t → SameControl t u → SameControl s u
  | ⟨hpending, hhalted, hfault⟩, ⟨hpending', hhalted', hfault'⟩ =>
    ⟨hpending'.trans hpending, hhalted'.trans hhalted, hfault'.trans hfault⟩

theorem SameDevices.trans {s t u : State} : SameDevices s t → SameDevices t u → SameDevices s u
  | ⟨hwdt, hfpu, hevents⟩, ⟨hwdt', hfpu', hevents'⟩ => ⟨hwdt'.trans hwdt, hfpu'.trans hfpu, hevents'.trans hevents⟩

/-! ### The words that pushes leave on the stack (20_memory.md R84) -/

section
variable {v : Word} {s t : State}

/-- A push onto backing memory succeeds and lowers SP by 4 (R84). -/
theorem exists_push {a : Word} (hsp : s.reg SP = a) (ha : InBacking a) (v : Word) :
    ∃ t, push v s = .ok t ∧ t.reg SP = a - 4#32 := by
  subst hsp
  exact ⟨_, push_backing ha, (push_reg (push_backing ha) SP).trans (if_pos rfl)⟩

theorem wordAt_push_self (h : push v s = .ok t) : wordAt t.mem ((s.reg SP).toNat / 4) = v := by
  rw [push_mem h, Memory.wordAt_storeWord_self]

theorem wordAt_congr {m m' : Memory} {i : Nat} (h : ∀ b, b / 4 = i → m'.read b = m.read b) : wordAt m' i = wordAt m i := by
  rw [wordAt, wordAt, h _ (by omega), h _ (by omega), h _ (by omega), h _ (by omega)]

/-- Every word but the one at the old SP is as before a push (R84). -/
theorem wordAt_push_of_ne (h : push v s = .ok t) {i : Nat} (hi : i ≠ (s.reg SP).toNat / 4) :
    wordAt t.mem i = wordAt s.mem i :=
  wordAt_congr fun b hb => (push_rest h).1 b (by simpa [hb] using hi)

end

/-- The words at SP, SP - 4 and SP - 8 follow one another downwards where none of the three addresses wraps. -/
theorem stackWords_distinct {a : Word} (h0 : InBacking a) (h8 : InBacking (a - 8#32)) :
    2 ≤ a.toNat / 4 ∧ (a - 4#32).toNat / 4 = a.toNat / 4 - 1 ∧ (a - 8#32).toNat / 4 = a.toNat / 4 - 2 := by
  rw [InBacking, memBytes_eq] at h0 h8
  bv_omega

/-- With room on the stack, three pushes land on three different words of backing memory and store nothing else. -/
theorem push_three (h : StackRoom s) (a b c : Word) : ∃ s1 s2 s3, push a s = .ok s1 ∧ push b s1 = .ok s2 ∧
    push c s2 = .ok s3 ∧ s3.reg SP = s.reg SP - 12#32 ∧ wordAt s3.mem ((s.reg SP).toNat / 4) = a ∧
    wordAt s3.mem ((s.reg SP - 4#32).toNat / 4) = b ∧ wordAt s3.mem ((s.reg SP - 8#32).toNat / 4) = c ∧
    SameMemOutside [s.reg SP, s.reg SP - 4#32, s.reg SP - 8#32] s s3 ∧ SameControl s s3 ∧ SameDevices s s3 := by
  obtain ⟨hb0, hb4, hb8⟩ := h
  obtain ⟨s1, h1, hsp1⟩ := exists_push rfl hb0 a
  obtain ⟨s2, h2, hsp⟩ := exists_push hsp1 hb4 b
  have hsp2 : s2.reg SP = s.reg SP - 8#32 := hsp.trans (BitVec.sub_sub ..)
  obtain ⟨s3, h3, hsp⟩ := exists_push hsp2 hb8 c
  have hsp3 : s3.reg SP = s.reg SP - 12#32 := hsp.trans (BitVec.sub_sub ..)
  obtain ⟨hmem1, hcontrol1, hdevices1⟩ := push_rest h1
  obtain ⟨hmem2, hcontrol2, hdevices2⟩ := push_rest h2
  obtain ⟨hmem3, hcontrol3, hdevices3⟩ := push_rest h3
  obtain ⟨hroom, hword4, hword8⟩ := stackWords_distinct hb0 hb8
  refine ⟨s1, s2, s3, h1, h2, h3, hsp3, ?_, ?_, ?_, ?_, hcontrol1.trans (hcontrol2.trans hcontrol3),
    hdevices1.trans (hdevices2.trans hdevices3)⟩
  · rw [wordAt_push_of_ne h3 (by rw [hsp2]; omega), wordAt_push_of_ne h2 (by rw [hsp1]; omega), wordAt_push_self h1]
  · rw [wordAt_push_of_ne h3 (by rw [hsp2]; omega), ← hsp1, wordAt_push_self h2]
  · rw [← hsp2, wordAt_push_self h3]
  · rw [hsp1] at hmem2
    rw [hsp2] at hmem3
    exact hmem1.trans (hmem2.trans hmem3)

/-! ### The entry -/

section
variable {s : State} (cause vector ipcval : Word)

/-- What the writes after the three pushes change: CR, IPC and the PC alone. -/
theorem enter_writes (u : State) : let t := ((u.writeReg CR cause).writeReg IPC ipcval).jump vector
    t.reg CR = cause ∧ t.reg IPC = ipcval ∧ t.reg PC = vector - 4#32 ∧ t.reg SP = u.reg SP ∧
    t.mem = u.mem ∧ SameControl u t ∧ SameDevices u t := by
  refine ⟨?_, ?_, ?_, ?_, by simp, by simp [SameControl], by simp [SameDevices]⟩
  · rw [State.reg_jump, if_neg (by decide), State.reg_writeReg_of_ne _ (by decide), State.reg_writeReg_self _ (by decide)]
  · rw [State.reg_jump, if_neg (by decide), State.reg_writeReg_self _ (by decide)]
  · rw [State.reg_jump, if_pos rfl]
  · rw [State.reg_jump, if_neg (by decide), State.reg_writeReg_of_ne _ (by decide), State.reg_writeReg_of_ne _ (by decide)]

/-- With room on the stack, an entry is the three pushes and then the writes of CR, IPC and the PC. -/
theorem enter_entered (h : StackRoom s) : ∃ t, enter cause vector ipcval s = .ok t ∧ Entered s t cause vector ipcval ∧
    t.fpu = s.fpu ∧ t.events = s.events := by
  obtain ⟨s1, s2, s3, h1, h2, h3, hsp, hw0, hw4, hw8, hmem, hcontrol, hwdt, hfpu, hevents⟩ :=
    push_three h (returnAddress s) (s.reg CR) (s.reg IPC)
  obtain ⟨hcr', hipc', hpc', hsp', hmem', hcontrol', hwdt', hfpu', hevents'⟩ := enter_writes cause vector ipcval s3
  have henter : enter cause vector ipcval s = .ok _ := enter_eq_ok.2 ⟨s1, s2, s3, h1, h2, h3, rfl⟩
  have hframe : SameRegsOutside [CR, IPC, PC, SP] s _ := (enter_frame henter).mono (by decide)
  refine ⟨_, henter, ⟨hframe, hcr', hipc', hpc', hsp'.trans hsp, ?_, ?_, ?_, ?_, hwdt'.trans hwdt,
    hcontrol.trans hcontrol'⟩, hfpu'.trans hfpu, hevents'.trans hevents⟩
  · rw [hmem', hw0]
    rfl
  · rw [hmem', hw4]
  · rw [hmem', hw8]
  · rw [SameMemOutside, hmem']
    exact hmem

end

end Sys2Proof.Machine
end

section
/-! PROOFS. The shift, multiply and divide family, 42_shift_mul_div.md, with the immediate forms of 41_arithmetic.md: the
widening products (rules R190, R191, R166), the shifts of the pair (rules R194 to R198), the divisions (rules R200, R201, R167,
R168), and the zero divisor (rule R199; 60_exceptions.md R325). -/

namespace Sys2Proof.Machine

/-! ### The decoder's family of opcode 0x04 (30_encoding.md R118) -/

/-- The instruction that a member of the family stands for, with its four fields. -/
def shiftMulDivInstr (z x y i : RegIdx) : ShiftMulDivOp → Instr
  | .mul => .mul z x y i
  | .sll => .sll z x y i
  | .muls => .muls z x y i
  | .sla => .sla z x y i
  | .div => .div z x y i
  | .srl => .srl z x y i
  | .divs => .divs z x y i
  | .sra => .sra z x y i

theorem decode_of_subop {w : Word} {o : ShiftMulDivOp} (hop : fieldOp w = opcodeOf .shiftMulDiv)
    (hsub : fieldSub w = subOf o) : decode w = .ok (shiftMulDivInstr (fieldZ w) (fieldX w) (fieldY w) (fieldI w) o) := by
  refine (Laws.decode_of_opcode hop).trans ?_
  change decodeFamily04 w = _
  rw [decodeFamily04, hsub, Laws.selected_subOf]
  cases o <;> rfl

/-! ### The words of a 64-bit result, as integers -/

section
variable (r : BitVec 64)

theorem loWord_eq_ofNat : loWord r = BitVec.ofNat 32 r.toNat := by
  apply BitVec.eq_of_toNat_eq
  simp [loWord]

theorem hiWord_eq_ofNat : hiWord r = BitVec.ofNat 32 (r.toNat / 2 ^ 32) := by
  apply BitVec.eq_of_toNat_eq
  simp [hiWord, Nat.shiftRight_eq_div_pow]

theorem loWord_eq_ofInt : loWord r = BitVec.ofInt 32 r.toInt := by
  apply BitVec.eq_of_toInt_eq
  rw [loWord, BitVec.toInt_extractLsb', BitVec.toInt_ofInt, BitVec.toInt_eq_toNat_bmod, Int.bmod_bmod_of_dvd (by decide)]
  rfl

theorem hiWord_eq_ofInt : hiWord r = BitVec.ofInt 32 (r.toInt / 2 ^ 32) := by
  apply BitVec.eq_of_toNat_eq
  rw [hiWord_eq_ofNat, BitVec.toNat_ofNat, BitVec.toNat_ofInt, BitVec.toInt_eq_toNat_cond]
  split <;> omega

/-- A signed result fits in 32 bits exactly when its low word, sign-extended, is the result (R193, R166). -/
theorem signedOverflow_eq_decide : signedOverflow r = decide (OutOfRange r.toInt) := by
  have hword : r = (loWord r).signExtend 64 ↔ r.toInt = r.toInt.bmod (2 ^ 32) := by
    rw [← BitVec.toInt_inj, BitVec.toInt_signExtend_of_le (by decide), loWord_eq_ofInt, BitVec.toInt_ofInt]
  rw [signedOverflow, bne, beq_eq_decide, decide_eq_decide.2 hword, ← decide_not, decide_eq_decide, Int.bmod_def]
  omega

/-- The high word says whether an unsigned result needs more than 32 bits (R193). -/
theorem hiWord_bne_zero : (hiWord r != 0#32) = decide (2 ^ 32 ≤ r.toNat) := by
  have hlt := r.isLt
  rw [hiWord_eq_ofNat, bne, beq_eq_decide, ← decide_not, decide_eq_decide, ← BitVec.toNat_inj, BitVec.toNat_ofNat,
    BitVec.toNat_ofNat]
  omega

theorem beq_zero_eq_decide_toNat : (r == 0#64) = decide (r.toNat = 0) := by
  rw [beq_eq_decide, decide_eq_decide]
  exact BitVec.toNat_inj.symm

theorem beq_zero_eq_decide_toInt : (r == 0#64) = decide (r.toInt = 0) := by
  rw [beq_eq_decide, decide_eq_decide]
  exact BitVec.toInt_inj.symm

end

/-! ### The writes of a 64-bit result and of its flags (R192, R193) -/

section
variable {s t : State} {ws : List (RegIdx × Word)}

theorem writePair_wrote (s : State) (a b : RegIdx) (v w : Word) : Wrote s (writePair a b v w s) [(a, v), (b, w)] [] :=
  (writeReg_wrote s a v).writeReg b w

theorem writePair_wrote_ofNat (s : State) (a b : RegIdx) (r : BitVec 64) :
    Wrote s (writePair a b (loWord r) (hiWord r) s)
      [(a, BitVec.ofNat 32 r.toNat), (b, BitVec.ofNat 32 (r.toNat / 2 ^ 32))] [] := by
  rw [← loWord_eq_ofNat, ← hiWord_eq_ofNat]
  exact writePair_wrote ..

theorem writePair_wrote_ofInt (s : State) (a b : RegIdx) (r : BitVec 64) :
    Wrote s (writePair a b (loWord r) (hiWord r) s)
      [(a, BitVec.ofInt 32 r.toInt), (b, BitVec.ofInt 32 (r.toInt / 2 ^ 32))] [] := by
  rw [← loWord_eq_ofInt, ← hiWord_eq_ofInt]
  exact writePair_wrote ..

theorem Wrote.wideUnsignedFlags (h : Wrote s t ws []) (r : BitVec 64) :
    Wrote s (wideUnsignedFlags r t) ws [(.zn, decide (r.toNat = 0)), (.cy, decide (2 ^ 32 ≤ r.toNat))] := by
  rw [← beq_zero_eq_decide_toNat, ← hiWord_bne_zero]
  exact (h.setFlag (by simp) _).setFlag (by simp) _

theorem Wrote.wideSignedFlags (h : Wrote s t ws []) (r : BitVec 64) :
    Wrote s (wideSignedFlags r t) ws [(.zn, decide (r.toInt = 0)), (.ov, decide (OutOfRange r.toInt))] := by
  rw [← beq_zero_eq_decide_toInt, ← signedOverflow_eq_decide]
  exact (h.setFlag (by simp) _).setFlag (by simp) _

theorem Wrote.mulImmFlags (h : Wrote s t ws []) (r : BitVec 64) :
    Wrote s (mulImmFlags r t) ws [(.zn, decide (loWord r = 0#32)), (.ov, decide (OutOfRange r.toInt))] := by
  rw [← beq_eq_decide, ← signedOverflow_eq_decide]
  exact (h.setFlag (by simp) _).setFlag (by simp) _

end

/-! ### The products (R190, R191, R166) -/

/-- The product of two words fits in 64 bits. -/
theorem toNat_unsignedProduct (a b : Word) : (unsignedProduct a b).toNat = a.toNat * b.toNat := by
  have hlt : a.toNat * b.toNat < 2 ^ 64 := BitVec.toNat_mul_toNat_lt
  rw [unsignedProduct, BitVec.toNat_mul, BitVec.toNat_setWidth_of_le (by decide), BitVec.toNat_setWidth_of_le (by decide),
    Nat.mod_eq_of_lt hlt]

/-- The signed product of two words fits in 64 bits. -/
theorem toInt_signedProduct (a b : Word) : (signedProduct a b).toInt = a.toInt * b.toInt := by
  have hle : a.toInt * b.toInt ≤ 2 ^ 62 := BitVec.toInt_mul_toInt_le
  have hge : -2 ^ 62 ≤ a.toInt * b.toInt := BitVec.le_toInt_mul_toInt
  rw [signedProduct, BitVec.toInt_mul, BitVec.toInt_signExtend_of_le (by decide), BitVec.toInt_signExtend_of_le (by decide),
    Int.bmod_eq_of_le (by omega) (by omega)]

/-- Settles O23: the 64-bit products are exact, and their words and flags are those of the integers they stand for. -/
theorem multiplyWritesTheProduct : Obligations.MultiplyWritesTheProduct := by
  refine ⟨fun _ => decode_of_subop (o := .mul), fun _ => decode_of_subop (o := .muls),
    fun _ h => Laws.decode_of_opcode (o := .muli) h, fun s z x y i imm => ?_⟩
  rw [← toNat_unsignedProduct, ← toInt_signedProduct, ← toInt_sext16 imm, ← toInt_signedProduct]
  refine ⟨⟨_, rfl, (writePair_wrote_ofNat ..).wideUnsignedFlags _⟩, ⟨_, rfl, (writePair_wrote_ofInt ..).wideSignedFlags _⟩,
    ⟨_, rfl, ?_⟩⟩
  rw [← loWord_eq_ofInt]
  exact (writeReg_wrote ..).mulImmFlags _

/-! ### The shifts of the pair (R194 to R198) -/

theorem toNat_shiftPair (s : State) (z y : RegIdx) :
    (shiftPair s z y).toNat = 2 ^ 32 * (s.reg z).toNat + (s.reg y).toNat := by
  rw [shiftPair, BitVec.toNat_append, ← Nat.shiftLeft_add_eq_or_of_lt (s.reg y).isLt, Nat.shiftLeft_eq, Nat.mul_comm]

/-- Settles O24: each shift of the pair, as a natural number or an integer, is a product with or a quotient by `2 ^ (I + 1)`. -/
theorem shiftsMoveThePair : Obligations.ShiftsMoveThePair := by
  refine ⟨fun _ => decode_of_subop (o := .sll), fun _ => decode_of_subop (o := .sla), fun _ => decode_of_subop (o := .srl),
    fun _ => decode_of_subop (o := .sra), fun s z x y i => ?_⟩
  intro v n left leftSigned right rightSigned
  have hpair : (shiftPair s z y).toNat = v := toNat_shiftPair s z y
  have hleft : (shiftPair s z y <<< shiftCount i).toNat = left := by
    rw [BitVec.toNat_shiftLeft, hpair, Nat.shiftLeft_eq]
    rfl
  have hleftSigned : (shiftPair s z y <<< shiftCount i).toInt = leftSigned := by
    simp only [leftSigned, ← hleft, BitVec.ofNat_toNat, BitVec.setWidth_eq]
  have hright : (shiftPair s z y >>> shiftCount i).toNat = right := by
    rw [BitVec.toNat_ushiftRight, hpair, Nat.shiftRight_eq_div_pow]
    rfl
  have hrightSigned : ((shiftPair s z y).sshiftRight (shiftCount i)).toInt = rightSigned := by
    simp only [rightSigned, ← hpair, BitVec.ofNat_toNat, BitVec.setWidth_eq]
    rw [BitVec.toInt_sshiftRight, Int.shiftRight_eq_div_pow]
    norm_cast
  rw [← hleft, ← hright, ← hrightSigned]
  refine ⟨⟨_, rfl, (writePair_wrote_ofNat ..).wideUnsignedFlags _⟩, ⟨_, rfl, ?_⟩,
    ⟨_, rfl, (writePair_wrote_ofNat ..).wideUnsignedFlags _⟩, ⟨_, rfl, (writePair_wrote_ofInt ..).wideSignedFlags _⟩⟩
  rw [← beq_zero_eq_decide_toNat, beq_zero_eq_decide_toInt, ← hleftSigned]
  exact (writePair_wrote_ofNat ..).wideSignedFlags _

/-! ### The divisions by a nonzero divisor (R200, R201, R167, R168) -/

theorem toNat_unsignedQuotient (a b : Word) : (unsignedQuotient a b).toNat = a.toNat / b.toNat :=
  Nat.mod_eq_of_lt (Nat.lt_of_le_of_lt (Nat.div_le_self ..) a.isLt)

theorem toNat_unsignedRemainder (a b : Word) : (unsignedRemainder a b).toNat = a.toNat % b.toNat :=
  Nat.mod_eq_of_lt (Nat.lt_of_le_of_lt (Nat.mod_le ..) a.isLt)

/-- The quotient 0x80000000 of 0x80000000 by -1 is the exact quotient wrapped (R169). -/
theorem signedQuotient_eq_ofInt (a b : Word) : signedQuotient a b = BitVec.ofInt 32 (a.toInt.tdiv b.toInt) := by
  rw [signedQuotient]
  split
  · next h =>
    obtain ⟨rfl, rfl⟩ := h
    decide
  · rfl

theorem signedRemainder_eq_ofInt (a b : Word) : signedRemainder a b = BitVec.ofInt 32 (a.toInt.tmod b.toInt) := by
  rw [signedRemainder]
  split
  · next h =>
    obtain ⟨rfl, rfl⟩ := h
    decide
  · rw [Int.tmod_def]

/-- An integer between -2^31 and 2^31 is 0 where its low word is. -/
theorem ofInt_eq_zero_iff {v : Int} (h : v.natAbs ≤ 2 ^ 31) : BitVec.ofInt 32 v = 0#32 ↔ v = 0 := by
  rw [← BitVec.toInt_inj, BitVec.toInt_ofInt, BitVec.toInt_zero, Int.bmod_def]
  omega

theorem natAbs_toInt_le (a : Word) : a.toInt.natAbs ≤ 2 ^ 31 := by
  have hle := a.le_toInt
  have hlt := a.toInt_lt
  omega

theorem signedQuotient_eq_zero_iff (a b : Word) : signedQuotient a b = 0#32 ↔ a.toInt.tdiv b.toInt = 0 := by
  have habs : (a.toInt.tdiv b.toInt).natAbs ≤ 2 ^ 31 := by
    rw [Int.natAbs_tdiv]
    exact (Nat.div_le_self ..).trans (natAbs_toInt_le a)
  rw [signedQuotient_eq_ofInt, ofInt_eq_zero_iff habs]

theorem signedRemainder_eq_zero_iff (a b : Word) : signedRemainder a b = 0#32 ↔ a.toInt.tmod b.toInt = 0 := by
  have habs : (a.toInt.tmod b.toInt).natAbs ≤ 2 ^ 31 := by
    rw [Int.natAbs_tmod]
    exact (Nat.mod_le ..).trans (natAbs_toInt_le a)
  rw [signedRemainder_eq_ofInt, ofInt_eq_zero_iff habs]

section
variable {s t : State} {ws : List (RegIdx × Word)} (a b : Word)

theorem Wrote.unsignedDivFlags (h : Wrote s t ws []) :
    Wrote s (unsignedDivFlags (unsignedQuotient a b) (unsignedRemainder a b) t) ws
      [(.zn, decide (a.toNat / b.toNat = 0)), (.zd, false), (.cy, decide (a.toNat % b.toNat ≠ 0))] := by
  have hzn : (unsignedQuotient a b == 0#32) = decide (a.toNat / b.toNat = 0) := by
    rw [beq_eq_decide, decide_eq_decide, ← BitVec.toNat_inj, toNat_unsignedQuotient]
    rfl
  have hcy : (unsignedRemainder a b != 0#32) = decide (a.toNat % b.toNat ≠ 0) := by
    rw [bne, beq_eq_decide, ← decide_not, decide_eq_decide, ← BitVec.toNat_inj, toNat_unsignedRemainder]
    rfl
  rw [← hzn, ← hcy]
  exact ((h.setFlag (by simp) _).setFlag (by simp) _).setFlag (by simp) _

theorem Wrote.signedDivFlags (h : Wrote s t ws []) {r : Word} {v : Int} (hzero : r = 0#32 ↔ v = 0) :
    Wrote s (signedDivFlags a b r t) ws
      [(.zn, decide (v = 0)), (.zd, false), (.ov, decide (a = 0x80000000#32 ∧ b = 0xffffffff#32))] := by
  rw [← decide_eq_decide.2 hzero, Bool.decide_and, ← beq_eq_decide, ← beq_eq_decide, ← beq_eq_decide]
  exact ((h.setFlag (by simp) _).setFlag (by simp) _).setFlag (by simp) _

end

theorem sext16_inj {imm imm' : BitVec 16} : sext16 imm = sext16 imm' ↔ imm = imm' := by
  rw [← BitVec.toInt_inj, toInt_sext16, toInt_sext16, BitVec.toInt_inj]

theorem sext16_eq_zero_iff {imm : BitVec 16} : sext16 imm = 0#32 ↔ imm = 0#16 := sext16_inj (imm' := 0#16)

theorem sext16_eq_ffffffff_iff {imm : BitVec 16} : sext16 imm = 0xffffffff#32 ↔ imm = 0xffff#16 :=
  sext16_inj (imm' := 0xffff#16)

/-- Settles O25: quotient and remainder are those of the integers the operands stand for, 0x80000000 by -1 wrapped, and an
immediate divisor is 0 or -1 exactly where its extension is. -/
theorem divisionByNonzeroWritesQuotientAndRemainder : Obligations.DivisionByNonzeroWritesQuotientAndRemainder := by
  refine ⟨fun _ => decode_of_subop (o := .div), fun _ => decode_of_subop (o := .divs),
    fun _ h => Laws.decode_of_opcode (o := .divi) h, fun _ h => Laws.decode_of_opcode (o := .modi) h,
    fun s z x y i imm => ?_⟩
  rw [← toInt_sext16 imm]
  simp only [← sext16_eq_ffffffff_iff, ne_eq, ← sext16_eq_zero_iff, ← signedQuotient_eq_ofInt, ← signedRemainder_eq_ofInt]
  exact ⟨fun hb => ⟨_, if_neg hb, (writePair_wrote ..).unsignedDivFlags _ _⟩,
    fun hb => ⟨_, if_neg hb, (writePair_wrote ..).signedDivFlags _ _ (signedQuotient_eq_zero_iff ..)⟩,
    fun hb => ⟨_, if_neg hb, (writeReg_wrote ..).signedDivFlags _ _ (signedQuotient_eq_zero_iff ..)⟩,
    fun hb => ⟨_, if_neg hb, (writeReg_wrote ..).signedDivFlags _ _ (signedRemainder_eq_zero_iff ..)⟩⟩

/-! ### The zero divisor (R199; 60_exceptions.md R325) -/

/-- Every division by zero is the one shared operation. -/
theorem exec_division_by_zero {s : State} {z x y i : RegIdx} {imm : BitVec 16} {op : Instr} (hy : s.reg y = 0#32)
    (himm : sext16 imm = 0#32) (hop : op ∈ [.div z x y i, .divs z x y i, .divi z x imm, .modi z x imm]) :
    exec op s = finish (divideByZero s) := by
  simp only [List.mem_cons, List.not_mem_nil, or_false] at hop
  rcases hop with rfl | rfl | rfl | rfl
  · exact if_pos hy
  · exact if_pos hy
  · exact if_pos himm
  · exact if_pos himm

theorem divideByZero_ie_clear {s : State} (h : s.flag .ie = false) : divideByZero s = .ok (s.setFlag .zd true) := by
  have hie : (s.setFlag .zd true).flag .ie = false := (State.flag_setFlag ..).trans h
  exact if_neg (Bool.eq_false_iff.1 hie)

theorem divideByZero_ie_set {s : State} (h : s.flag .ie = true) : divideByZero s =
    enter 0#32 0x8#32 (s.reg PC) ((s.setFlag .zd true).emit (.softwareInterrupt 0#32)) := by
  have hie : (s.setFlag .zd true).flag .ie = true := (State.flag_setFlag ..).trans h
  have hpc : (s.setFlag .zd true).reg PC = s.reg PC := (State.reg_setFlag ..).trans (if_neg (by decide))
  rw [← hpc]
  exact if_pos hie

theorem stackRoom_setFlag {s : State} (h : StackRoom s) (f : Flag) (b : Bool) : StackRoom (s.setFlag f b) := by
  rw [StackRoom, State.reg_setFlag, if_neg (by decide)]
  exact h

/-- Settles O26: the four divisions by zero are `divideByZero`, which with IE set is an entry from the state that has ZD set and
the event emitted. -/
theorem divisionByZeroSetsZdAndTrapsOnlyWithIe : Obligations.DivisionByZeroSetsZdAndTrapsOnlyWithIe := by
  intro s z x y i op hy hop
  rw [exec_division_by_zero hy (sext16_eq_zero_iff.2 rfl) hop]
  refine ⟨fun hie => ⟨_, by rw [divideByZero_ie_clear hie, finish], (Wrote.refl s).setFlag (by simp) true⟩,
    fun hie => by rw [divideByZero_ie_set hie], fun hie hroom => ?_⟩
  obtain ⟨t, henter, hentered, hfpu, hevents⟩ := enter_entered (s := (s.setFlag .zd true).emit (.softwareInterrupt 0#32))
    0#32 0x8#32 (s.reg PC) (stackRoom_setFlag hroom .zd true)
  refine ⟨t, finish_eq_next.2 ((divideByZero_ie_set hie).trans henter), hentered, ?_, ?_⟩
  · simpa using hfpu
  · simpa using hevents

end Sys2Proof.Machine
end

section
/-! PROOFS. The comparison family, 43_compare.md: the flags of a subtraction with no register written (rules R220, R221). -/

namespace Sys2Proof.Machine

/-- `subFlags` alone writes the four flags of the difference and no register. -/
theorem subFlags_wrote (s : State) (a b : Word) : Wrote s (subFlags a b s) [] (differenceFlags a b) :=
  (Wrote.refl s).subFlags a b

/-- Settles O20: a comparison is `subFlags` of its operands, with no register write before it. -/
theorem compareWritesOnlyTheSubtractionFlags : Obligations.CompareWritesOnlyTheSubtractionFlags := by
  refine ⟨fun _ h => Laws.decode_of_opcode (o := .cmp) h, fun _ h => Laws.decode_of_opcode (o := .cmpi) h,
    fun s x y imm => ⟨⟨_, exec_cmp s x y, subFlags_wrote s (s.reg x) (s.reg y)⟩, ⟨_, exec_cmpi s x imm, ?_⟩⟩⟩
  rw [← sext16_eq_ofInt]
  exact subFlags_wrote s (s.reg x) (sext16 imm)

end Sys2Proof.Machine
end

section
/-! PROOFS. The logic family, 44_logic.md: a bitwise result and its two flags (rules R230 to R234). -/

namespace Sys2Proof.Machine

/-- The model's sign of a result is its bit 31 (R234). -/
theorem logicResultFlags_eq (r : Word) : logicResultFlags r = [(.zn, r == 0#32), (.sn, r.msb)] := by
  simp [logicResultFlags, BitVec.msb_eq_getLsbD_last, beq_eq_decide]

theorem Wrote.logicFlags {s t : State} {ws : List (RegIdx × Word)} (h : Wrote s t ws []) (r : Word) :
    Wrote s (logicFlags r t) ws (logicResultFlags r) := by
  rw [logicResultFlags_eq]
  exact (h.setFlag (by simp) _).setFlag (by simp) _

theorem logicInto_wrote (s : State) (z : RegIdx) (r : Word) :
    ∃ t, logicInto z r s = .next t ∧ Wrote s t [(z, r)] (logicResultFlags r) :=
  ⟨_, rfl, (writeReg_wrote s z r).logicFlags r⟩

/-- Settles O21: each instruction is `logicInto` of its bitwise result, one register write and then ZN and SN of what was
written. -/
theorem logicWritesResultZnAndSn : Obligations.LogicWritesResultZnAndSn := by
  refine ⟨fun _ h => Laws.decode_of_opcode (o := .and) h, fun _ h => Laws.decode_of_opcode (o := .or) h,
    fun _ h => Laws.decode_of_opcode (o := .not) h, fun _ h => Laws.decode_of_opcode (o := .xor) h, fun s z x y => ?_⟩
  rw [exec_and, exec_or, exec_not, exec_xor]
  exact ⟨logicInto_wrote s z (s.reg x &&& s.reg y), logicInto_wrote s z (s.reg x ||| s.reg y),
    logicInto_wrote s z (~~~s.reg x), logicInto_wrote s z (s.reg x ^^^ s.reg y)⟩

end Sys2Proof.Machine
end

section
/-! PROOFS. The load and store family, 45_load_store.md: loads from backing memory and stores to it (rules R240 to R247), and
the frame of memory over every instruction. -/

namespace Sys2Proof.Machine

/-! ### Loads and stores onto backing memory (R240 to R246) -/

section
variable {n : Width} {z x : RegIdx} {imm : BitVec 16} {s : State}

/-- A load from backing memory is one register write of what the memory answers (R241 to R243). -/
theorem finish_loadInto_backing (h : InBacking (effectiveAddress s x imm)) :
    finish (loadInto n z x imm s) = .next (s.writeReg z (backingRead s.mem (effectiveAddress s x imm) n)) := by
  rw [loadInto, memRead_backing h]
  rfl

/-- A store to backing memory is one new memory (R244 to R246). -/
theorem finish_storeFrom_backing (h : InBacking (effectiveAddress s x imm)) : finish (storeFrom n z x imm s) =
    .next (s.setMem (backingWrite s.mem (effectiveAddress s x imm) (s.reg z) n)) :=
  congrArg finish (memWrite_backing h n (s.reg z) s)

end

/-- Settles O27: each load writes the memory's answer to its destination, and nothing else is written. -/
theorem loadsFromBackingMemory : Obligations.LoadsFromBackingMemory := by
  refine ⟨fun _ h => Laws.decode_of_opcode (o := .l8) h, fun _ h => Laws.decode_of_opcode (o := .l16) h,
    fun _ h => Laws.decode_of_opcode (o := .l32) h, ?_⟩
  intro s z x imm ea w hea
  have hload : ∀ (n : Width) (v : Word), backingRead s.mem ea n = v →
      ∃ t, finish (loadInto n z x imm s) = .next t ∧ Wrote s t [(z, v)] [] := fun n v hv =>
    ⟨_, finish_loadInto_backing hea, hv ▸ writeReg_wrote s z _⟩
  have hword : backingRead s.mem ea .word = BitVec.ofNat 32 w := by
    rw [backingRead_word, BitVec.ofNat_toNat, BitVec.setWidth_eq]
  exact ⟨hload .byte _ (backingRead_byte s.mem ea), hload .half _ (backingRead_half s.mem ea), hload .word _ hword⟩

/-- A field of a word that a store writes, in arithmetic on the word. -/
theorem extractLsb'_eq_ofNat_div (w : Word) (k n : Nat) : w.extractLsb' k n = BitVec.ofNat n (w.toNat / 2 ^ k) :=
  congrArg (BitVec.ofNat n) (Nat.shiftRight_eq_div_pow ..)

/-- The byte a byte store leaves at its address: the low byte of the source (R77, R244). -/
theorem Memory.read_storeByte_self (m : Memory) (a : Nat) (v : Word) :
    (m.storeByte a v).read a = BitVec.ofNat 8 v.toNat := (m.read_storeByte a v a).trans (if_pos rfl)

/-- The two bytes a halfword store leaves, the more significant one at the lower address (R73, R245). -/
theorem Memory.read_storeHalf_bytes (m : Memory) (a : Nat) (v : Word) :
    (m.storeHalf a v).read (2 * (a / 2)) = BitVec.ofNat 8 (v.toNat / 2 ^ 8) ∧
    (m.storeHalf a v).read (2 * (a / 2) + 1) = BitVec.ofNat 8 v.toNat := by
  have hhigh : halfBase (2 * (a / 2)) = halfBase a ∧ 8 * (1 - 2 * (a / 2) % 2) = 8 := by unfold halfBase; omega
  have hlow : halfBase (2 * (a / 2) + 1) = halfBase a ∧ 8 * (1 - (2 * (a / 2) + 1) % 2) = 0 := by unfold halfBase; omega
  constructor
  · rw [Memory.read_storeHalf, if_pos hhigh.1, hhigh.2, extractLsb'_eq_ofNat_div]
  · rw [Memory.read_storeHalf, if_pos hlow.1, hlow.2]
    rfl

/-- Settles O28: each store makes one new memory, which holds the source's low bytes and differs nowhere else. -/
theorem storesToBackingMemory : Obligations.StoresToBackingMemory := by
  refine ⟨fun _ h => Laws.decode_of_opcode (o := .s8) h, fun _ h => Laws.decode_of_opcode (o := .s16) h,
    fun _ h => Laws.decode_of_opcode (o := .s32) h, ?_⟩
  intro s z x imm ea v hea
  have hbytes := s.mem.read_storeHalf_bytes ea.toNat (s.reg z)
  refine ⟨⟨_, finish_storeFrom_backing hea, s.mem.read_storeByte_self ea.toNat _, fun b hb => ?_, setMem_rest s _⟩,
    ⟨_, finish_storeFrom_backing hea, hbytes.1, hbytes.2, fun b hb => ?_, setMem_rest s _⟩,
    ⟨_, finish_storeFrom_backing hea, s.mem.wordAt_storeWord_self ea.toNat _, fun b hb => ?_, setMem_rest s _⟩⟩
  · exact s.mem.read_storeByte_of_ne hb _
  · exact s.mem.read_storeHalf_of_ne hb _
  · exact s.mem.read_storeWord_of_ne hb _

/-! ### What no instruction touches: the pending list and the fault mark -/

section
variable {s t : State}

theorem Update.sameControl {ds : List RegIdx} (h : Update ds s t) : SameControl s t := by
  cases h with
  | reg v _ => exact (writeReg_rest ..).2.1
  | flag b _ => exact (writeReg_rest ..).2.1
  | mem _ | wdt _ | fpu _ | event _ _ => exact ⟨rfl, rfl, rfl⟩

theorem Updates.sameControl {ds : List RegIdx} (h : Updates ds s t) : SameControl s t := by
  induction h with
  | refl => exact ⟨rfl, rfl, rfl⟩
  | tail _ hlast ih => exact ih.trans hlast.sameControl

/-- `int 0` halts, and touches neither the pending list nor the fault mark; every other instruction keeps the run state too. -/
theorem exec_pending_fault {i : Instr} (h : exec i s = .next t) : t.pending = s.pending ∧ t.fault = s.fault := by
  by_cases hi : i = .int 0#26
  · rw [hi, exec_int_zero] at h
    cases h
    exact ⟨rfl, rfl⟩
  · obtain ⟨hpending, -, hfault⟩ := (exec_updates hi h).sameControl
    exact ⟨hpending, hfault⟩

end

/-! ### What an instruction that cannot store leaves: memory, the watchdog and the event stream -/

/-- Memory, the watchdog and the event stream are as before. Of the FPU port it says nothing: a load from an FPU word calls
it (20_memory.md R95). -/
def SameStorage (s t : State) : Prop := t.mem = s.mem ∧ t.wdt = s.wdt ∧ t.events = s.events

section
variable {s t u : State}

theorem SameStorage.refl (s : State) : SameStorage s s := ⟨rfl, rfl, rfl⟩

theorem SameStorage.trans : SameStorage s t → SameStorage t u → SameStorage s u
  | ⟨hmem, hwdt, hevents⟩, ⟨hmem', hwdt', hevents'⟩ => ⟨hmem'.trans hmem, hwdt'.trans hwdt, hevents'.trans hevents⟩

theorem writeReg_sameStorage (s : State) (r : RegIdx) (v : Word) : SameStorage s (s.writeReg r v) := by simp [SameStorage]

theorem jump_sameStorage (s : State) (a : Word) : SameStorage s (s.jump a) := writeReg_sameStorage s PC _

theorem memRead_sameStorage {a : Word} {n : Width} {v : Word} (h : memRead a n s = .ok (v, t)) : SameStorage s t := by
  rcases memRead_cases h with ⟨-, -, rfl⟩ | ⟨-, -, -, rfl⟩ | ⟨r, -, -, hcall⟩
  · exact .refl _
  · exact .refl _
  · cases hcall
    exact ⟨rfl, rfl, rfl⟩

theorem loadInto_sameStorage {n : Width} {z x : RegIdx} {imm : BitVec 16} (h : loadInto n z x imm s = .ok t) :
    SameStorage s t := by
  obtain ⟨⟨v, u⟩, hread, h⟩ := bind_eq_ok.1 h
  cases h
  exact (memRead_sameStorage hread).trans (writeReg_sameStorage u z v)

theorem pop_sameStorage {v : Word} (h : pop s = .ok (v, t)) : SameStorage s t := by
  obtain ⟨-, -, rfl⟩ := pop_eq_ok.1 h
  exact writeReg_sameStorage s SP _

theorem popInto_sameStorage {r : RegIdx} (h : popInto r s = .ok t) : SameStorage s t := by
  obtain ⟨⟨v, u⟩, hpop, h⟩ := bind_eq_ok.1 h
  cases h
  exact (pop_sameStorage hpop).trans (writeReg_sameStorage u r v)

theorem popList_sameStorage {regs : List RegIdx} (h : popList regs s = .ok t) : SameStorage s t := by
  induction regs generalizing s with
  | nil =>
    cases h
    exact .refl _
  | cons r rs ih =>
    obtain ⟨u, hpop, hrest⟩ := bind_eq_ok.1 h
    exact (popInto_sameStorage hpop).trans (ih hrest)

theorem returnFromCall_sameStorage (h : returnFromCall s = .ok t) : SameStorage s t := by
  obtain ⟨⟨a, u⟩, hpop, h⟩ := bind_eq_ok.1 h
  cases h
  exact (pop_sameStorage hpop).trans (jump_sameStorage u a)

theorem returnFromInterrupt_sameStorage (h : returnFromInterrupt s = .ok t) : SameStorage s t := by
  obtain ⟨s1, hipc, h⟩ := bind_eq_ok.1 h
  obtain ⟨s2, hcr, h⟩ := bind_eq_ok.1 h
  obtain ⟨⟨a, s3⟩, hpop, h⟩ := bind_eq_ok.1 h
  cases h
  exact ((popInto_sameStorage hipc).trans (popInto_sameStorage hcr)).trans
    ((pop_sameStorage hpop).trans (jump_sameStorage s3 a))

theorem branchIf_sameStorage {cond : Bool} {imm : BitVec 26} (h : branchIf cond imm s = .next t) : SameStorage s t := by
  unfold branchIf at h
  split at h
  · cases h
    exact jump_sameStorage s _
  · cases h
    exact .refl _

/-- The instructions that cannot store write registers and flags, load, or pop. -/
theorem exec_sameStorage {i : Instr} (hstore : canStore i = false) (h : exec i s = .next t) : SameStorage s t := by
  cases i with
  | s8 _ _ _ | s16 _ _ _ | s32 _ _ _ | push _ | callF _ _ | callS _ | int _ | divi _ _ _ | modi _ _ _ | div _ _ _ _
  | divs _ _ _ _ => cases hstore
  | mov z _ | movs z _ | cbr z _ | sbr z _ =>
    cases h
    exact writeReg_sameStorage s z _
  | add _ _ _ | addi _ _ _ | sub _ _ _ | subi _ _ _ | muli _ _ _ | and _ _ _ | or _ _ _ | not _ _ | xor _ _ _ | cmp _ _
  | cmpi _ _ =>
    cases h
    simp [SameStorage]
  | mul _ _ _ _ | muls _ _ _ _ | sll _ _ _ _ | sla _ _ _ _ | srl _ _ _ _ | sra _ _ _ _ =>
    cases h
    simp [SameStorage, shiftResult, writePair]
  | l8 _ _ _ | l16 _ _ _ | l32 _ _ _ => exact loadInto_sameStorage (finish_eq_next.1 h)
  | pop _ => exact popList_sameStorage (finish_eq_next.1 h)
  | bae _ | bat _ | bbe _ | bbt _ | beq _ | bge _ | bgt _ | biv _ | ble _ | blt _ | bne _ | bni _ | bnz _ | bzd _ =>
    exact branchIf_sameStorage h
  | bun _ => exact branchIf_sameStorage (cond := s.takes .bun) h
  | ret => exact returnFromCall_sameStorage (finish_eq_next.1 h)
  | reti => exact returnFromInterrupt_sameStorage (finish_eq_next.1 h)

/-- Only `int 0` halts, and it is among the instructions that can store. -/
theorem exec_halted {i : Instr} (hstore : canStore i = false) (h : exec i s = .next t) : t.halted = s.halted := by
  have hi : i ≠ .int 0#26 := by
    rintro rfl
    cases hstore
  exact (exec_updates hi h).sameControl.2.1

end

/-- Settles O58, by `exec_sameStorage` and `exec_halted` for the instructions that cannot store and `exec_pending_fault` for
all. -/
theorem instructionsThatCannotStoreLeaveMemory : Obligations.InstructionsThatCannotStoreLeaveMemory := by
  refine fun i s t h => ⟨fun hstore => ?_, exec_pending_fault h⟩
  obtain ⟨hmem, hwdt, hevents⟩ := exec_sameStorage hstore h
  exact ⟨fun a => congrArg (·.read a) hmem, hwdt, hevents, exec_halted hstore h⟩

end Sys2Proof.Machine
end

section
/-! PROOFS. The stack family, 46_stack.md: the list that push and pop decode (rule R260), the words a push stores downward
(rule R261), the words a pop loads upward (rule R262), and the round trip of the two (95_test_vectors.md L1.3). -/

namespace Sys2Proof.Machine

/-! ### The list (R260) -/

/-- The element at which `takeWhile` stops, where there is one, does not satisfy `p`. -/
theorem not_getElem_length_takeWhile {α : Type} {p : α → Bool} {l : List α} (h : (l.takeWhile p).length < l.length) :
    ¬p l[(l.takeWhile p).length] := by
  have hlength : (l.takeWhile p).length = l.findIdx fun a => !p a := by
    rw [List.takeWhile_eq_take_findIdx_not, List.length_take, Nat.min_eq_left List.findIdx_le_length]
  simp only [hlength] at h ⊢
  simpa using List.findIdx_getElem (w := h)

/-- Settles O5: what `takeWhile` takes starts the list, every member of it passes the test and the element after it fails. -/
theorem activeListIsTheLongestNonzeroPrefix : Obligations.ActiveListIsTheLongestNonzeroPrefix := by
  intro w named
  refine ⟨activeList _ _ _ _ _, List.takeWhile_prefix _, fun h => ?_, fun h => ?_,
    fun h => Laws.decode_of_opcode (o := .push) h, fun h => Laws.decode_of_opcode (o := .pop) h⟩
  · exact absurd (List.mem_takeWhile_imp h) (by decide)
  · exact of_not_not fun hne => not_getElem_length_takeWhile h (bne_iff_ne.2 hne)

/-- What is well-formed about the list of a push or pop: at most five registers, slot 0 not among them. -/
theorem wellFormed_push {regs : List RegIdx} (h : (Instr.push regs).wellFormed = true) : regs.length ≤ 5 ∧ 0#5 ∉ regs := by
  simp only [Instr.wellFormed, listFits, listHasNoZero, Bool.and_eq_true, decide_eq_true_eq, List.all_eq_true,
    bne_iff_ne] at h
  obtain ⟨hlength, hzero⟩ := h
  exact ⟨hlength, fun hmem => hzero _ hmem rfl⟩

/-! ### The words of the stack -/

/-- The address of the push number `k` from `s`, counted from 0 (20_memory.md R84). -/
def pushSlot (s : State) (k : Nat) : Word := s.reg SP - BitVec.ofNat 32 (4 * k)

/-- The address of the pop number `k` from `s`, counted from 0 (20_memory.md R85). -/
def popSlot (s : State) (k : Nat) : Word := s.reg SP + BitVec.ofNat 32 (4 * (k + 1))

section
variable {s t : State}

@[simp] theorem pushSlot_zero : pushSlot s 0 = s.reg SP := BitVec.sub_zero _

theorem pushSlot_succ (hsp : t.reg SP = s.reg SP - 4#32) (k : Nat) : pushSlot s (k + 1) = pushSlot t k := by
  rw [pushSlot, pushSlot, hsp]
  bv_omega

theorem popSlot_succ (hsp : t.reg SP = s.reg SP + 4#32) (k : Nat) : popSlot s (k + 1) = popSlot t k := by
  rw [popSlot, popSlot, hsp]
  bv_omega

/-- The word at SP is none of the words below it. -/
theorem word_sp_ne_word_pushSlot {k : Nat} (h0 : 0 < k) (hk : k < 2 ^ 30) :
    (s.reg SP).toNat / 4 ≠ (pushSlot s k).toNat / 4 := by
  rw [pushSlot]
  bv_omega

/-- After `n` pushes the pops visit the same words, the last pushed first. -/
theorem popSlot_after_push {n : Nat} (hsp : t.reg SP = pushSlot s n) {k : Nat} (hk : k < n) :
    popSlot t k = pushSlot s (n - 1 - k) := by
  obtain ⟨m, rfl⟩ : ∃ m, n = m + 1 + k := ⟨n - 1 - k, by omega⟩
  have hm : m + 1 + k - 1 - k = m := by omega
  rw [popSlot, hsp, pushSlot, pushSlot, hm]
  bv_omega

end

/-! ### Pushing a list (R261) -/

section
variable {s t : State} {r : RegIdx} {regs : List RegIdx}

theorem pushList_cons_eq_ok : pushList (r :: regs) s = .ok t ↔ ∃ u, push (s.reg r) s = .ok u ∧ pushList regs u = .ok t :=
  bind_eq_ok

theorem exec_push_cons (h : push (s.reg r) s = .ok t) : exec (.push (r :: regs)) s = exec (.push regs) t := by
  rw [exec_push, execPush, pushList, h]
  rfl

theorem exec_push_cons_fault (h : ¬InBacking (s.reg SP)) :
    exec (.push (r :: regs)) s = .fault (stackFault (s.reg SP)) := by
  rw [exec_push, execPush, pushList, push_fault h]
  rfl

theorem push_sp {v : Word} (h : push v s = .ok t) : t.reg SP = s.reg SP - 4#32 := (push_reg h SP).trans (if_pos rfl)

theorem exists_pushList (hroom : ∀ k, k < regs.length → InBacking (pushSlot s k)) : ∃ t, pushList regs s = .ok t := by
  induction regs generalizing s with
  | nil => exact ⟨s, rfl⟩
  | cons r rs ih =>
    have h0 : InBacking (s.reg SP) := by simpa using hroom 0 (Nat.succ_pos _)
    obtain ⟨u, hpush, hsp⟩ := exists_push rfl h0 (s.reg r)
    obtain ⟨t, hrest⟩ := ih fun k hk => pushSlot_succ hsp k ▸ hroom (k + 1) (Nat.succ_lt_succ hk)
    exact ⟨t, pushList_cons_eq_ok.2 ⟨u, hpush, hrest⟩⟩

theorem pushList_sp (h : pushList regs s = .ok t) : t.reg SP = pushSlot s regs.length := by
  induction regs generalizing s with
  | nil =>
    cases h
    exact pushSlot_zero.symm
  | cons r rs ih =>
    obtain ⟨u, hpush, hrest⟩ := pushList_cons_eq_ok.1 h
    rw [ih hrest, List.length_cons, pushSlot_succ (push_sp hpush)]

theorem pushList_reg (h : pushList regs s = .ok t) (q : RegIdx) :
    t.reg q = if q = SP then pushSlot s regs.length else s.reg q := by
  split
  next hq => rw [hq, pushList_sp h]
  next hq => exact pushList_frame h q (by simpa using hq)

/-- Beside SP, a push of a list changes its own words alone. -/
theorem pushList_rest (h : pushList regs s = .ok t) :
    SameMemOutside ((List.range regs.length).map (pushSlot s)) s t ∧ SameControl s t ∧ SameDevices s t := by
  induction regs generalizing s with
  | nil =>
    cases h
    exact ⟨fun _ _ => rfl, ⟨rfl, rfl, rfl⟩, ⟨rfl, rfl, rfl⟩⟩
  | cons r rs ih =>
    obtain ⟨u, hpush, hrest⟩ := pushList_cons_eq_ok.1 h
    obtain ⟨hmem, hcontrol, hdevices⟩ := push_rest hpush
    obtain ⟨hmem', hcontrol', hdevices'⟩ := ih hrest
    have hslots : (List.range (r :: rs).length).map (pushSlot s) = [s.reg SP] ++ (List.range rs.length).map (pushSlot u) := by
      simp [List.range_succ_eq_map, Function.comp_def, pushSlot_succ (push_sp hpush)]
    rw [hslots]
    exact ⟨hmem.trans hmem', hcontrol.trans hcontrol', hdevices.trans hdevices'⟩

/-- The later pushes of a list leave the word above them, where the push before them stored. -/
theorem wordAt_pushList_above {u : State} (hsp : u.reg SP = s.reg SP - 4#32) (hlength : regs.length < 2 ^ 30 - 1)
    (h : pushList regs u = .ok t) : wordAt t.mem ((s.reg SP).toNat / 4) = wordAt u.mem ((s.reg SP).toNat / 4) := by
  refine wordAt_congr fun b hb => (pushList_rest h).1 b fun a ha => ?_
  obtain ⟨k, hk, rfl⟩ := List.mem_map.1 ha
  have hk := List.mem_range.1 hk
  rw [hb, ← pushSlot_succ hsp]
  exact word_sp_ne_word_pushSlot (Nat.succ_pos k) (by omega)

/-- Each register of the list is stored as it reads at its own push: SP lowered by the pushes before, any other as before. -/
theorem wordAt_pushList (hlength : regs.length < 2 ^ 30) (h : pushList regs s = .ok t) (k : Nat) (hk : k < regs.length) :
    wordAt t.mem ((pushSlot s k).toNat / 4) = if regs[k] = SP then pushSlot s k else s.reg regs[k] := by
  induction regs generalizing s k with
  | nil => exact absurd hk (Nat.not_lt_zero k)
  | cons r rs ih =>
    obtain ⟨u, hpush, hrest⟩ := pushList_cons_eq_ok.1 h
    have hsp := push_sp hpush
    rw [List.length_cons] at hlength hk
    cases k with
    | zero =>
      rw [pushSlot_zero, wordAt_pushList_above hsp (by omega) hrest, wordAt_push_self hpush, List.getElem_cons_zero]
      split
      next hr => rw [hr]
      next => rfl
    | succ k =>
      rw [pushSlot_succ hsp, ih (by omega) hrest k (by omega), List.getElem_cons_succ, push_reg hpush]
      split
      next => rfl
      next => rfl

end

/-- Settles O32, by the equations of one push and the inductions over the list: what it stores, SP, and what it leaves. -/
theorem pushStoresTheListDownward : Obligations.PushStoresTheListDownward := by
  refine ⟨fun s => rfl, fun s r regs => ⟨fun ha => ?_, exec_push_cons_fault⟩, fun s regs hwf hroom => ?_⟩
  · have hpush := push_backing (v := s.reg r) ha
    exact ⟨_, exec_push_cons hpush, wordAt_push_self hpush, push_reg hpush, push_rest hpush⟩
  · obtain ⟨t, ht⟩ := exists_pushList hroom
    have hlength : regs.length < 2 ^ 30 := (wellFormed_push hwf).1.trans_lt (by decide)
    exact ⟨t, finish_eq_next.2 ht, pushList_reg ht, wordAt_pushList hlength ht, pushList_rest ht⟩

/-! ### Popping a list (R262) -/

section
variable {s t : State} {r : RegIdx} {l : List RegIdx}

/-- `s` after a pop into register `r` from backing memory. -/
def popped (r : RegIdx) (s : State) : State :=
  (s.writeReg SP (s.reg SP + 4#32)).writeReg r (wordAt s.mem ((s.reg SP + 4#32).toNat / 4))

theorem popped_wrote (r : RegIdx) (s : State) :
    Wrote s (popped r s) [(SP, s.reg SP + 4#32), (r, wordAt s.mem ((s.reg SP + 4#32).toNat / 4))] [] :=
  (writeReg_wrote s SP _).writeReg r _

theorem popped_sp (hr : r ≠ SP) : (popped r s).reg SP = s.reg SP + 4#32 := by
  rw [popped, State.reg_writeReg_of_ne _ hr.symm, State.reg_writeReg_self _ (by decide)]

theorem popped_self (hr : r ≠ 0#5) : (popped r s).reg r = wordAt s.mem ((popSlot s 0).toNat / 4) :=
  State.reg_writeReg_self _ hr _

theorem popped_mem : (popped r s).mem = s.mem := by simp [popped]

theorem popList_cons_backing (h : InBacking (s.reg SP + 4#32)) : popList (r :: l) s = popList l (popped r s) := by
  rw [popList, popInto, pop_backing h, Memory.loadWord_eq_wordAt]
  rfl

theorem popList_cons_fault (h : ¬InBacking (s.reg SP + 4#32)) :
    popList (r :: l) s = .error (stackFault (s.reg SP + 4#32)) := by
  rw [popList, popInto, pop_fault h]
  rfl

theorem exec_pop_concat_backing {regs : List RegIdx} (h : InBacking (s.reg SP + 4#32)) :
    exec (.pop (regs ++ [r])) s = exec (.pop regs) (popped r s) := by
  rw [exec_pop, exec_pop, execPop, execPop, List.reverse_concat, popList_cons_backing h]

theorem exec_pop_concat_fault {regs : List RegIdx} (h : ¬InBacking (s.reg SP + 4#32)) :
    exec (.pop (regs ++ [r])) s = .fault (stackFault (s.reg SP + 4#32)) := by
  rw [exec_pop, execPop, List.reverse_concat, popList_cons_fault h]
  rfl

/-- A list without SP, popped from backing memory: every register ends with `f` of it if the word of each of its pops is `f`
of it, so that a register listed twice is loaded twice with the same. -/
theorem popList_loads {f : RegIdx → Word} (hsp : SP ∉ l) (hzero : 0#5 ∉ l)
    (hroom : ∀ k, k < l.length → InBacking (popSlot s k))
    (hf : ∀ k, (hk : k < l.length) → wordAt s.mem ((popSlot s k).toNat / 4) = f l[k]) :
    ∃ t, popList l s = .ok t ∧ t.reg SP = s.reg SP + BitVec.ofNat 32 (4 * l.length) ∧ (∀ r ∈ l, t.reg r = f r) ∧
      SameMem s t ∧ SameControl s t ∧ SameDevices s t := by
  induction l generalizing s with
  | nil => exact ⟨s, rfl, (BitVec.add_zero _).symm, by simp, fun _ => rfl, ⟨rfl, rfl, rfl⟩, ⟨rfl, rfl, rfl⟩⟩
  | cons r rs ih =>
    obtain ⟨hrsp, hsp⟩ := List.ne_and_not_mem_of_not_mem_cons hsp
    obtain ⟨hr0, hzero⟩ := List.ne_and_not_mem_of_not_mem_cons hzero
    have hsp1 := popped_sp (s := s) hrsp.symm
    have hslot := popSlot_succ hsp1
    obtain ⟨t, hpop, hspt, hregs, hmem, hcontrol, hdevices⟩ := ih hsp hzero
      (fun k hk => hslot k ▸ hroom (k + 1) (Nat.succ_lt_succ hk))
      (fun k hk => by rw [popped_mem, ← hslot]; exact hf (k + 1) (Nat.succ_lt_succ hk))
    obtain ⟨-, -, -, hmem1, hcontrol1, hdevices1⟩ := popped_wrote r s
    refine ⟨t, (popList_cons_backing (hroom 0 (Nat.succ_pos _))).trans hpop, ?_, fun q hq => ?_,
      fun a => (hmem a).trans (hmem1 a), hcontrol1.trans hcontrol, hdevices1.trans hdevices⟩
    · rw [hspt, hsp1, List.length_cons]
      bv_omega
    · by_cases hrs : q ∈ rs
      · exact hregs q hrs
      · obtain rfl : q = r := (List.mem_cons.1 hq).resolve_right hrs
        rw [popList_frame hpop q (by simp [hrs, hrsp.symm]), popped_self hr0.symm]
        exact hf 0 (Nat.succ_pos _)

end

/-- Settles O33, by the equations of one pop and `popList_loads` for the word of each register of a list without repetition. -/
theorem popLoadsTheListLastToFirst : Obligations.PopLoadsTheListLastToFirst := by
  refine ⟨fun s => rfl, fun s regs r => ⟨fun ha => ⟨_, exec_pop_concat_backing ha, popped_wrote r s⟩, exec_pop_concat_fault⟩,
    fun s regs hwf hsp hdistinct hroom => ?_⟩
  have hzero : 0#5 ∉ regs := (wellFormed_push hwf).2
  obtain ⟨t, hpop, hspt, hloaded, hrest⟩ := popList_loads (s := s) (l := regs.reverse)
    (f := fun r => wordAt s.mem ((popSlot s (regs.length - 1 - regs.idxOf r)).toNat / 4))
    (by simpa using hsp) (by simpa using hzero) (fun k hk => hroom k (by simpa using hk))
    (fun k hk => by
      rw [List.length_reverse] at hk
      rw [List.getElem_reverse, hdistinct.idxOf_getElem, Nat.sub_sub_self (Nat.le_sub_one_of_lt hk)])
  refine ⟨t, finish_eq_next.2 hpop, by simpa using hspt, fun r hr hrsp => ?_, fun k hk => ?_, hrest⟩
  · exact popList_frame hpop r (by simp [hr, hrsp])
  · have hslot : regs.length - 1 - k + 1 = regs.length - k := by omega
    rw [hloaded _ (by simp), hdistinct.idxOf_getElem, popSlot, hslot]

/-- Settles O34: the pops visit the pushed words, last to first, and each holds what its register read before the pushes. -/
theorem pushThenPopRestoresTheList : Obligations.PushThenPopRestoresTheList := by
  intro s t u regs hwf hsp hroom hpush husp hwords
  obtain ⟨hlength, hzero⟩ := wellFormed_push hwf
  have ht := finish_eq_next.1 hpush
  have husp : u.reg SP = pushSlot s regs.length := husp.trans (pushList_sp ht)
  obtain ⟨v, hpop, hvsp, hregs, -⟩ := popList_loads (s := u) (l := regs.reverse) (f := s.reg)
    (by simpa using hsp) (by simpa using hzero)
    (fun k hk => by
      rw [List.length_reverse] at hk
      rw [popSlot_after_push husp hk]
      exact hroom _ (by omega))
    (fun k hk => by
      have hk' : k < regs.length := by simpa using hk
      have hne : regs[regs.length - 1 - k] ≠ SP := fun e => hsp (e ▸ List.getElem_mem _)
      rw [popSlot_after_push husp hk', List.getElem_reverse]
      exact (hwords _ (by omega)).trans ((wordAt_pushList (by omega) ht _ (by omega)).trans (if_neg hne)))
  refine ⟨v, finish_eq_next.2 hpop, ?_, fun r hr => hregs r (List.mem_reverse.2 hr)⟩
  rw [hvsp, husp, pushSlot, List.length_reverse, BitVec.sub_add_cancel]

end Sys2Proof.Machine
end

section
/-! PROOFS. The control-transfer family, 47_control_transfer.md: the branches (rules R270 to R285), the calls (R286, R287) and
the returns (R288, R289). -/

namespace Sys2Proof.Machine

/-! ### Displacements (30_encoding.md R115) -/

/-- Two places to the left is four times the integer. -/
theorem ofInt_shiftLeft_two (v : Int) : BitVec.ofInt 32 v <<< 2 = BitVec.ofInt 32 (4 * v) := by
  rw [BitVec.shiftLeft_eq_mul_twoPow, mul_comm 4 v, BitVec.ofInt_mul]
  rfl

theorem disp26_eq_wordDisplacement (imm : BitVec 26) : disp26 imm = wordDisplacement imm := ofInt_shiftLeft_two imm.toInt

/-! ### The branches as one instruction over the condition table (R270) -/

def branchOps : List BranchOp :=
  [.bae, .bat, .bbe, .bbt, .beq, .bge, .bgt, .biv, .ble, .blt, .bne, .bni, .bnz, .bun, .bzd]

/-- The instruction of each branch. -/
def branchInstr : BranchOp → BitVec 26 → Instr
  | .bae => .bae
  | .bat => .bat
  | .bbe => .bbe
  | .bbt => .bbt
  | .beq => .beq
  | .bge => .bge
  | .bgt => .bgt
  | .biv => .biv
  | .ble => .ble
  | .blt => .blt
  | .bne => .bne
  | .bni => .bni
  | .bnz => .bnz
  | .bun => .bun
  | .bzd => .bzd

/-- The opcode of each branch. -/
def branchOpcode : BranchOp → Opcode
  | .bae => .bae
  | .bat => .bat
  | .bbe => .bbe
  | .bbt => .bbt
  | .beq => .beq
  | .bge => .bge
  | .bgt => .bgt
  | .biv => .biv
  | .ble => .ble
  | .blt => .blt
  | .bne => .bne
  | .bni => .bni
  | .bnz => .bnz
  | .bun => .bun
  | .bzd => .bzd

/-- The row of `branchTable` that the configuration record gives a branch. -/
def branchRow (b : BranchOp) : (BitVec 26 → Instr) × BitVec 6 × (Word → Bool) :=
  (branchInstr b, opcodeOf (branchOpcode b), fun sr => Param.branchTaken b fun f => sr.getLsbD (Param.srPos f))

/-- The table of R270, spelled out over bits of SR by number, is the record's. -/
theorem branchTable_eq : branchTable = branchOps.map branchRow := rfl

theorem decode_branch {w : Word} {b : BranchOp} (h : fieldOp w = opcodeOf (branchOpcode b)) :
    decode w = .ok (branchInstr b (fieldImm26 w)) := by
  rw [Laws.decode_of_opcode h]
  cases b <;> rfl

theorem exec_branch (b : BranchOp) (imm : BitVec 26) (s : State) :
    exec (branchInstr b imm) s = branchIf (s.takes b) imm s := by cases b <;> rfl

/-- A branch's next state: the compensated target is the PC plus the displacement (R270). -/
theorem branchIf_wrote (cond : Bool) (imm : BitVec 26) (s : State) : ∃ t, branchIf cond imm s = .next t ∧
    Wrote s t (if cond then [(PC, s.reg PC + wordDisplacement imm)] else []) [] := by
  cases cond with
  | false => exact ⟨s, rfl, .refl s⟩
  | true =>
    have htarget : relativeTarget s imm - 4#32 = s.reg PC + wordDisplacement imm := by
      rw [relativeTarget, disp26_eq_wordDisplacement]
      bv_omega
    refine ⟨_, rfl, ?_⟩
    rw [State.jump, htarget]
    exact writeReg_wrote s PC _

/-- Settles O35: each row is the record's, and its instruction is `branchIf` of the row's condition. -/
theorem branchesTestSrAndMoveThePc : Obligations.BranchesTestSrAndMoveThePc := by
  intro row hrow
  obtain ⟨b, -, rfl⟩ := List.mem_map.1 (branchTable_eq ▸ hrow)
  refine ⟨fun w => decode_branch, fun s imm => ?_⟩
  rw [branchRow, exec_branch]
  exact branchIf_wrote (s.takes b) imm s

/-! ### The branches after a comparison (R270, last column; 43_compare.md R220) -/

section
variable (s : State) (a b : Word)

theorem flag_zn_subFlags : (subFlags a b s).flag .zn = decide (a = b) := by
  have hzero : (a - b == 0#32) = decide (a = b) := by
    rw [beq_eq_decide, decide_eq_decide]
    bv_omega
  simp [subFlags, hzero]

theorem flag_cy_subFlags : (subFlags a b s).flag .cy = decide (a.toNat < b.toNat) := by
  simp [subFlags, subBorrow_eq_decide]

/-- The sign of a difference is wrong exactly when the difference overflows, so SN and OV differ where it is negative. -/
theorem flag_sn_bne_flag_ov_subFlags :
    ((subFlags a b s).flag .sn != (subFlags a b s).flag .ov) = decide (a.toInt < b.toInt) := by
  have hsn : (subFlags a b s).flag .sn = decide ((a - b).toInt < 0) := by
    simp [subFlags, BitVec.msb_eq_toInt]
  have hsub : (a - b).toInt = (a.toInt - b.toInt).bmod 4294967296 := BitVec.toInt_sub ..
  have ha := BitVec.toInt_lt (x := a)
  have ha' := BitVec.le_toInt a
  have hb := BitVec.toInt_lt (x := b)
  have hb' := BitVec.le_toInt b
  rw [Int.bmod_def] at hsub
  rw [hsn, flag_ov_subFlags, Bool.eq_iff_iff]
  simp only [bne_iff_ne, ne_eq, decide_eq_decide, decide_eq_true_eq, OutOfRange]
  split at hsub <;> omega

end

/-- The comparison each comparing branch means after `cmp a, b`, by its condition on the flags of the difference. -/
theorem takes_subFlags : ∀ row ∈ comparingBranches, ∃ op, row.1 = branchInstr op ∧
    ∀ (s : State) (a b : Word), (subFlags a b s).takes op = row.2 a b := by
  simp only [comparingBranches, List.forall_mem_cons, List.not_mem_nil, false_implies, implies_true, and_true]
  refine ⟨⟨.bae, rfl, ?_⟩, ⟨.bat, rfl, ?_⟩, ⟨.bbe, rfl, ?_⟩, ⟨.bbt, rfl, ?_⟩, ⟨.beq, rfl, ?_⟩, ⟨.bne, rfl, ?_⟩,
    ⟨.bge, rfl, ?_⟩, ⟨.bgt, rfl, ?_⟩, ⟨.ble, rfl, ?_⟩, ⟨.blt, rfl, ?_⟩⟩
  all_goals
    intro s a b
    have hnat : a = b ↔ a.toNat = b.toNat := BitVec.toNat_inj.symm
    have hint : a = b ↔ a.toInt = b.toInt := BitVec.toInt_inj.symm
    have hsigned := flag_sn_bne_flag_ov_subFlags s a b
    dsimp only [State.takes, Param.branchTaken, Param.config]
    grind [flag_zn_subFlags, flag_cy_subFlags]

/-- Settles O36: the comparison leaves the flags of the difference, and `branchIf` moves the PC where they say that the
comparison holds. -/
theorem branchesAfterCompareDecideTheOrder : Obligations.BranchesAfterCompareDecideTheOrder := by
  intro row hrow s t x y imm hcmp
  obtain ⟨op, hinstr, htakes⟩ := takes_subFlags row hrow
  obtain rfl : subFlags (s.reg x) (s.reg y) s = t := Host.Outcome.next.inj hcmp
  obtain ⟨u, hbranch, hregs, -⟩ := branchIf_wrote (row.2 (s.reg x) (s.reg y)) imm (subFlags (s.reg x) (s.reg y) s)
  refine ⟨u, ?_, ?_⟩
  · rw [hinstr, exec_branch, htakes, hbranch]
  · rw [hregs PC (by decide)]
    split <;> rfl

/-! ### The calls (R286, R287) -/

section
variable {s u : State} (target : Word)

/-- A call from a successful push transfers from the state after it. -/
theorem callTo_of_push (h : push (returnAddress s) s = .ok u) : callTo target s = .ok (u.jump target) := by
  rw [callTo, h]
  rfl

theorem callTo_fault (h : ¬InBacking (s.reg SP)) : callTo target s = .error (stackFault (s.reg SP)) := by
  rw [callTo, push_fault h]
  rfl

/-- A call onto backing memory changes the PC, SP and the word at SP. -/
theorem exists_callTo (h : InBacking (s.reg SP)) : ∃ t, callTo target s = .ok t ∧ t.reg PC = target - 4#32 ∧
    t.reg SP = s.reg SP - 4#32 ∧ (∀ r, r ≠ PC → r ≠ SP → t.reg r = s.reg r) ∧
    wordAt t.mem ((s.reg SP).toNat / 4) = s.reg PC + 4#32 ∧ SameMemOutside [s.reg SP] s t ∧ SameControl s t ∧
    SameDevices s t := by
  obtain ⟨u, hpush, hsp⟩ := exists_push rfl h (returnAddress s)
  have hcall := callTo_of_push target hpush
  obtain ⟨hmem, hcontrol, hdevices⟩ := push_rest hpush
  obtain ⟨-, hcontrol', hdevices'⟩ := writeReg_rest u PC (target - 4#32)
  refine ⟨_, hcall, ?_, ?_, fun r hpc hrsp => callTo_frame hcall r (by simp [hpc, hrsp]), ?_, ?_,
    hcontrol.trans hcontrol', hdevices.trans hdevices'⟩
  · rw [State.reg_jump, if_pos rfl]
  · rw [State.reg_jump, if_neg (by decide), hsp]
  · rw [State.jump_mem]
    exact wordAt_push_self hpush
  · rw [SameMemOutside, State.jump_mem]
    exact hmem

end

/-- Settles O37: each call is `callTo` of its target, which is computed from the state before the push. -/
theorem callsPushTheReturnAddress : Obligations.CallsPushTheReturnAddress := by
  refine ⟨fun _ h => Laws.decode_of_opcode (o := .callF) h, fun _ h => Laws.decode_of_opcode (o := .callS) h,
    fun s x imm imm26 p hp => ?_⟩
  have hcall : exec p.1 s = finish (callTo p.2 s) := by
    simp only [List.mem_cons, List.not_mem_nil, or_false] at hp
    rcases hp with rfl | rfl
    · rw [← ofInt_shiftLeft_two]
      rfl
    · rw [← disp26_eq_wordDisplacement]
      rfl
  rw [hcall]
  refine ⟨fun u hpush => ?_, fun ha => ?_, fun ha => ?_⟩
  · rw [callTo_of_push p.2 hpush]
    rfl
  · rw [callTo_fault p.2 ha]
    rfl
  · obtain ⟨t, hok, ht⟩ := exists_callTo p.2 ha
    exact ⟨t, finish_eq_next.2 hok, ht⟩

/-! ### The returns (R288, R289) -/

section
variable {s : State} {r : RegIdx}

theorem popInto_backing (h : InBacking (s.reg SP + 4#32)) (r : RegIdx) : popInto r s = .ok (popped r s) := by
  rw [popInto, pop_backing h, Memory.loadWord_eq_wordAt]
  rfl

theorem popInto_fault (h : ¬InBacking (s.reg SP + 4#32)) (r : RegIdx) :
    popInto r s = .error (stackFault (s.reg SP + 4#32)) := by
  rw [popInto, pop_fault h]
  rfl

/-- `s` after a pop of the PC, compensated, from backing memory. -/
def poppedPc (s : State) : State :=
  (s.writeReg SP (s.reg SP + 4#32)).jump (wordAt s.mem ((s.reg SP + 4#32).toNat / 4))

theorem returnFromCall_backing (h : InBacking (s.reg SP + 4#32)) : returnFromCall s = .ok (poppedPc s) := by
  rw [returnFromCall, pop_backing h, Memory.loadWord_eq_wordAt]
  rfl

theorem returnFromCall_fault (h : ¬InBacking (s.reg SP + 4#32)) :
    returnFromCall s = .error (stackFault (s.reg SP + 4#32)) := by
  rw [returnFromCall, pop_fault h]
  rfl

/-- `reti` is two pops into registers and then what `ret` does (R288, R289). -/
theorem returnFromInterrupt_eq (s : State) :
    returnFromInterrupt s = popInto IPC s >>= fun s1 => popInto CR s1 >>= returnFromCall := rfl

/-- SP rises by 4 a pop, into a register other than SP (R262). -/
theorem sp_after_pops (s : State) : (popped IPC s).reg SP + 4#32 = s.reg SP + 8#32 ∧
    (popped CR (popped IPC s)).reg SP + 4#32 = s.reg SP + 12#32 := by
  have hsp1 : (popped IPC s).reg SP = s.reg SP + 4#32 := popped_sp (by decide)
  have hsp2 : (popped CR (popped IPC s)).reg SP = (popped IPC s).reg SP + 4#32 := popped_sp (by decide)
  rw [hsp2, hsp1]
  exact ⟨BitVec.add_assoc .., by bv_omega⟩

theorem returnFromInterrupt_ipc (h : InBacking (s.reg SP + 4#32)) :
    returnFromInterrupt s = popInto CR (popped IPC s) >>= returnFromCall := by
  rw [returnFromInterrupt_eq, popInto_backing h]
  rfl

theorem Wrote.popped {s t : State} {ws : List (RegIdx × Word)} (h : Wrote s t ws []) (r : RegIdx) : Wrote s (popped r t)
    (ws ++ [(SP, t.reg SP + 4#32)] ++ [(r, wordAt t.mem ((t.reg SP + 4#32).toNat / 4))]) [] :=
  (h.writeReg SP _).writeReg r _

theorem Wrote.congr {s t : State} {ws ws' : List (RegIdx × Word)} {fs : List (Flag × Bool)} (h : Wrote s t ws fs)
    (hws : ∀ r old, lastWrite ws r old = lastWrite ws' r old) : Wrote s t ws' fs := by
  unfold Wrote at *
  simpa only [hws] using h

/-- `reti` from backing memory, its six register writes in order: the later writes of SP hide the earlier (R289). -/
theorem returnFromInterrupt_backing (h4 : InBacking (s.reg SP + 4#32)) (h8 : InBacking (s.reg SP + 8#32))
    (h12 : InBacking (s.reg SP + 12#32)) : ∃ t, returnFromInterrupt s = .ok t ∧
    Wrote s t [(SP, s.reg SP + 12#32), (IPC, wordAt s.mem ((s.reg SP + 4#32).toNat / 4)),
      (CR, wordAt s.mem ((s.reg SP + 8#32).toNat / 4)), (PC, wordAt s.mem ((s.reg SP + 12#32).toNat / 4) - 4#32)] [] := by
  obtain ⟨hsp1, hsp2⟩ := sp_after_pops s
  have hmem1 : (popped IPC s).mem = s.mem := popped_mem
  have hmem2 : (popped CR (popped IPC s)).mem = s.mem := popped_mem.trans popped_mem
  have hreturn : returnFromInterrupt s = .ok (poppedPc (popped CR (popped IPC s))) := by
    rw [returnFromInterrupt_ipc h4, popInto_backing (by rwa [hsp1])]
    exact returnFromCall_backing (by rwa [hsp2])
  refine ⟨_, hreturn, ?_⟩
  have hwrites := ((popped_wrote IPC s).popped CR).writeReg SP (s.reg SP + 12#32)
    |>.writeReg PC (wordAt s.mem ((s.reg SP + 12#32).toNat / 4) - 4#32)
  rw [hsp1, hmem1] at hwrites
  rw [poppedPc, hsp2, hmem2]
  refine hwrites.congr fun r old => ?_
  by_cases hr : r = SP
  · subst hr
    rfl
  · simp [lastWrite, Ne.symm hr]

end

/-- Settles O38: `ret` is a pop of the PC and `reti` two pops before it, each with its own word or its own fault. -/
theorem returnsPopThePc : Obligations.ReturnsPopThePc := by
  refine ⟨fun _ h => Laws.decode_of_opcode (o := .ret) h, fun _ h => Laws.decode_of_opcode (o := .reti) h,
    fun s => ⟨fun h4 => ⟨poppedPc s, ?_, ?_⟩, fun h4 => ?_⟩,
    fun s => ⟨fun h4 h8 h12 => ?_, fun h4 => ?_, fun h4 h8 => ?_, fun h4 h8 h12 => ?_⟩⟩
  · exact finish_eq_next.2 (returnFromCall_backing h4)
  · exact (writeReg_wrote s SP _).writeReg PC _
  · rw [exec_ret, execRet, returnFromCall_fault h4]
    rfl
  all_goals rw [exec_reti, execReti]
  · obtain ⟨t, hreturn, ht⟩ := returnFromInterrupt_backing h4 h8 h12
    exact ⟨t, finish_eq_next.2 hreturn, ht⟩
  · rw [returnFromInterrupt_eq, popInto_fault h4]
    rfl
  · obtain ⟨hsp1, -⟩ := sp_after_pops s
    rw [returnFromInterrupt_ipc h4, popInto_fault (by rwa [hsp1]), hsp1]
    rfl
  · obtain ⟨hsp1, hsp2⟩ := sp_after_pops s
    rw [returnFromInterrupt_ipc h4, popInto_backing (by rwa [hsp1])]
    refine (congrArg finish (returnFromCall_fault (by rwa [hsp2]))).trans ?_
    rw [hsp2]
    rfl

end Sys2Proof.Machine
end

section
/-! PROOFS. The bit family, 48_bit_set_clear.md: one bit of one register cleared or set (rules R300 to R302). -/

namespace Sys2Proof.Machine

/-- Bit 0 of a word is L.B, the discriminant of opcode 0x21 (30_encoding.md R119). -/
theorem fieldB_eq_ofBool (w : Word) : fieldB w = BitVec.ofBool (w.getLsbD 0) := by
  rw [Laws.fieldB_eq]
  apply BitVec.eq_of_getLsbD_eq
  intro j hj
  obtain rfl : j = 0 := by omega
  simp

theorem decode_bitSetClear {w : Word} (hop : fieldOp w = 0x21#6) : decode w =
    .ok (if w.getLsbD 0 then .sbr (fieldZ w) (fieldX w) else .cbr (fieldZ w) (fieldX w)) := by
  refine (Laws.decode_of_opcode (o := .bitSetClear) hop).trans ?_
  change decodeFamily21 w = _
  rw [decodeFamily21, fieldB_eq_ofBool]
  cases w.getLsbD 0 <;> rfl

/-- Settles O22: the word written is the old one with bit X put to 0 or to 1. -/
theorem cbrAndSbrChangeOneBit : Obligations.CbrAndSbrChangeOneBit := by
  refine ⟨fun w hop hbit => by rw [decode_bitSetClear hop, hbit]; rfl,
    fun w hop hbit => by rw [decode_bitSetClear hop, hbit]; rfl, fun s z x => ?_⟩
  refine ⟨_, _, putBit (s.reg z) x.toNat false, putBit (s.reg z) x.toNat true, exec_cbr s z x, exec_sbr s z x,
    writeReg_wrote s z _, writeReg_wrote s z _, fun j hj => ?_⟩
  rw [getLsbD_putBit, getLsbD_putBit]
  simp [hj]

end Sys2Proof.Machine
end

section
/-! PROOFS. Traps, 60_exceptions.md section 2 and 49_software_trap.md: the entry protocol and its faults (rules R322, R323), the
return that undoes it (R327), the invalid-instruction trap (R324) and the software trap (R326, R310). -/

namespace Sys2Proof.Machine

/-! ### The entry protocol -/

/-- A computation whose first part answers goes on with the answer. -/
theorem ok_bind {α β : Type} (a : α) (f : α → Except Fault β) : (Except.ok a >>= f) = f a := rfl

section
variable {s : State} (cause vector ipcval : Word)

theorem enter_return_fault (h : ¬InBacking (s.reg SP)) : enter cause vector ipcval s = .error (stackFault (s.reg SP)) := by
  rw [enter, push_fault h]
  rfl

/-- Past the push of the return address, the push of CR decides. -/
theorem enter_cr_fault (h0 : InBacking (s.reg SP)) (h4 : ¬InBacking (s.reg SP - 4#32)) :
    enter cause vector ipcval s = .error (stackFault (s.reg SP - 4#32)) := by
  obtain ⟨s1, h1, hsp1⟩ := exists_push rfl h0 (returnAddress s)
  rw [← hsp1] at h4 ⊢
  rw [enter, h1, ok_bind, push_fault h4]
  rfl

/-- Past the pushes of the return address and of CR, the push of IPC decides. -/
theorem enter_ipc_fault (h0 : InBacking (s.reg SP)) (h4 : InBacking (s.reg SP - 4#32)) (h8 : ¬InBacking (s.reg SP - 8#32)) :
    enter cause vector ipcval s = .error (stackFault (s.reg SP - 8#32)) := by
  obtain ⟨s1, h1, hsp1⟩ := exists_push rfl h0 (returnAddress s)
  obtain ⟨s2, h2, hsp⟩ := exists_push hsp1 h4 (s1.reg CR)
  have hsp2 : s2.reg SP = s.reg SP - 8#32 := hsp.trans (BitVec.sub_sub ..)
  rw [← hsp2] at h8 ⊢
  rw [enter, h1, ok_bind, h2, ok_bind, push_fault h8]
  rfl

/-- An entry that fails does so at the stack (R322). -/
theorem enter_error {f : Fault} (h : enter cause vector ipcval s = .error f) : ∃ a, f = stackFault a := by
  have hfault {a : Word} (ha : enter cause vector ipcval s = .error (stackFault a)) : ∃ a, f = stackFault a :=
    ⟨a, Except.error.inj (h.symm.trans ha)⟩
  by_cases h0 : InBacking (s.reg SP)
  · by_cases h4 : InBacking (s.reg SP - 4#32)
    · by_cases h8 : InBacking (s.reg SP - 8#32)
      · obtain ⟨t, hok, -⟩ := enter_entered cause vector ipcval ⟨h0, h4, h8⟩
        cases h.symm.trans hok
      · exact hfault (enter_ipc_fault cause vector ipcval h0 h4 h8)
    · exact hfault (enter_cr_fault cause vector ipcval h0 h4)
  · exact hfault (enter_return_fault cause vector ipcval h0)

/-- The event that announces an entry is all that is seen of it besides. -/
theorem enter_emit_entered (h : StackRoom s) (e : Event) : ∃ t, enter cause vector ipcval (s.emit e) = .ok t ∧
    Entered s t cause vector ipcval ∧ t.fpu = s.fpu ∧ t.events = e :: s.events :=
  enter_entered (s := s.emit e) cause vector ipcval h

end

/-- Settles O39, by the entry with room on the stack and the three places where it can fault. -/
theorem entryProtocol : Obligations.EntryProtocol := by
  intro s cause vector ipcval
  exact ⟨enter_entered cause vector ipcval, enter_return_fault cause vector ipcval, enter_cr_fault cause vector ipcval,
    enter_ipc_fault cause vector ipcval, fun s1 s2 s3 h1 h2 h3 => enter_eq_ok.2 ⟨s1, s2, s3, h1, h2, h3, rfl⟩⟩

/-! ### The return (R327) -/

/-- Settles O40: the three words that `reti` pops are those of the entry, in the opposite order. -/
theorem retiUndoesTheEntry : Obligations.RetiUndoesTheEntry := by
  intro s t u cause vector ipcval hroom henter hsp hwords
  obtain ⟨t', henter', ⟨-, -, -, -, hsp', hw0, hw4, hw8, -, -, -⟩, -⟩ := enter_entered cause vector ipcval hroom
  obtain rfl : t' = t := Except.ok.inj (henter'.symm.trans henter)
  simp only [List.forall_mem_cons, hw0, hw4, hw8] at hwords
  obtain ⟨hu0, hu4, hu8, -⟩ := hwords
  have hslot4 : u.reg SP + 4#32 = s.reg SP - 8#32 := by rw [hsp, hsp']; bv_omega
  have hslot8 : u.reg SP + 8#32 = s.reg SP - 4#32 := by rw [hsp, hsp']; bv_omega
  have hslot12 : u.reg SP + 12#32 = s.reg SP := by rw [hsp, hsp']; bv_omega
  obtain ⟨hb0, hb4, hb8⟩ := hroom
  rw [← hslot12] at hb0
  rw [← hslot8] at hb4
  rw [← hslot4] at hb8
  obtain ⟨v, hreturn, hwrote⟩ := returnFromInterrupt_backing hb8 hb4 hb0
  obtain ⟨hregs, -⟩ := hwrote
  rw [hslot4, hslot8, hslot12, hu0, hu4, hu8] at hregs
  refine ⟨v, finish_eq_next.2 hreturn, hregs CR (by decide), hregs IPC (by decide), hregs SP (by decide), ?_,
    returnFromInterrupt_frame hreturn SR (by decide)⟩
  have hpc : v.reg PC = s.reg PC + 4#32 - 4#32 := hregs PC (by decide)
  rw [advance, State.reg_writeReg_self _ (by decide), hpc, BitVec.sub_add_cancel]

/-! ### The invalid-instruction trap (R324; 40_fetch_dispatch.md R145) -/

theorem execute_unassigned {s : State} {w : Word} (h : fieldOp w ∈ unassignedOpcodes) : execute w s =
    finish (enter (BitVec.ofNat 32 (fieldOp w).toNat) 0x4#32 (s.reg PC)
      ((s.setFlag .iv true).emit (.invalid (s.reg PC) w))) := by
  have hpc : (s.setFlag .iv true).reg PC = s.reg PC := (State.reg_setFlag ..).trans (if_neg (by decide))
  rw [execute, Laws.decode_unassigned h, ← hpc, BitVec.ofNat_toNat]
  rfl

/-- Settles O42: no unassigned opcode decodes, and the trap is an entry from the state that has IV set. -/
theorem invalidWordsTrap : Obligations.InvalidWordsTrap := by
  refine ⟨fun s s1 w hfault hrun hfetch hop => ?_, fun s w hop => ⟨execute_unassigned hop, fun hroom => ?_⟩⟩
  · rw [step_running hfault hrun, cycle, hfetch]
  · obtain ⟨t, henter, hentered, hfpu, hevents⟩ := enter_emit_entered (BitVec.ofNat 32 (fieldOp w).toNat) 0x4#32
      (s.reg PC) (stackRoom_setFlag hroom .iv true) (.invalid (s.reg PC) w)
    exact ⟨t, (execute_unassigned hop).trans (finish_eq_next.2 henter), hentered, by simpa using hfpu,
      by simpa using hevents⟩

/-! ### The software trap (R326; 49_software_trap.md R310) -/

/-- `int` with a nonzero operand is an entry, whatever IE is. -/
theorem exec_int_nonzero {imm : BitVec 26} (h : imm ≠ 0#26) (s : State) : exec (.int imm) s =
    finish (enter (BitVec.ofNat 32 imm.toNat) 0xc#32 (s.reg PC)
      (s.emit (.softwareInterrupt (BitVec.ofNat 32 imm.toNat)))) := by
  have hne : zext26 imm ≠ 0#32 := by
    unfold zext26
    bv_omega
  rw [exec_int, execInt, if_neg hne, BitVec.ofNat_toNat]
  rfl

/-- Settles O41: `int 0` halts and emits `End`, and every other operand is the cause of an entry. -/
theorem intHaltsOrTraps : Obligations.IntHaltsOrTraps := by
  refine ⟨fun _ h => Laws.decode_of_opcode (o := .int) h,
    fun s => ⟨_, exec_int_zero s, rfl, rfl, fun _ => rfl, fun _ => rfl, rfl, rfl, rfl, rfl⟩,
    fun s imm himm => ⟨exec_int_nonzero himm s, fun hroom => ?_⟩⟩
  obtain ⟨t, henter, ht⟩ := enter_emit_entered (BitVec.ofNat 32 imm.toNat) 0xc#32 (s.reg PC) hroom
    (.softwareInterrupt (BitVec.ofNat 32 imm.toNat))
  exact ⟨t, (exec_int_nonzero himm s).trans (finish_eq_next.2 henter), ht⟩

end Sys2Proof.Machine
end

section
/-! PROOFS. The interrupt controller, 60_exceptions.md section 3: requests queued and requests entered (rules R340 to R347), the
drain (R345), and the FPU tick (R364). -/

namespace Sys2Proof.Machine

/-! ### Requests by class (R340, R341) -/

theorem prioOfNumber_prioNumber (q : Prio) : Param.prioOfNumber (Param.prioNumber q) = some q := by cases q <;> rfl

theorem exists_prioNumber_iff {p : Nat} : (∃ q, p = Param.prioNumber q) ↔ p ∈ [1, 2, 3, 4] := by
  constructor
  · rintro ⟨q, rfl⟩
    cases q <;> decide
  · simp only [List.mem_cons, List.not_mem_nil, or_false]
    rintro (rfl | rfl | rfl | rfl)
    · exact ⟨.class1, rfl⟩
    · exact ⟨.class2, rfl⟩
    · exact ⟨.class3, rfl⟩
    · exact ⟨.class4, rfl⟩

section
variable {s : State} (q : Prio) (cause saved : Word)

theorem schedule_ie_clear (h : s.flag .ie = false) : schedule (Param.prioNumber q) cause saved s =
    .ok (s.setPending (insertPending ⟨q, cause, saved⟩ (evictPending q cause s.pending))) := by
  rw [schedule, prioOfNumber_prioNumber]
  exact if_neg (Bool.eq_false_iff.1 h)

theorem schedule_ie_set (h : s.flag .ie = true) : schedule (Param.prioNumber q) cause saved s = hwEnter q cause saved s := by
  rw [schedule, prioOfNumber_prioNumber]
  exact if_pos h

end

theorem schedule_of_not_mem {p : Nat} (h : p ∉ [1, 2, 3, 4]) (cause saved : Word) (s : State) :
    schedule p cause saved s = .error (.priorityFault p) := by
  have hnone : Param.prioOfNumber p = none := by
    match p, h with
    | 0, _ | _ + 5, _ => rfl
    | 1, h | 2, h | 3, h | 4, h => exact absurd (by decide) h
  rw [schedule, hnone]

theorem stackFault_ne_priorityFault (a : Word) (p : Nat) : stackFault a ≠ .priorityFault p := by
  unfold stackFault
  split <;> nofun

/-- Settles O46: a class has an entry or an insertion, and an entry faults at the stack alone. -/
theorem prioritiesOutsideTheClassesFault : Obligations.PrioritiesOutsideTheClassesFault := by
  refine fun s p cause saved => ⟨fun h => schedule_of_not_mem h cause saved s, fun h => ?_⟩
  obtain ⟨q, rfl⟩ := exists_prioNumber_iff.2 h
  refine ⟨fun n hfault => ?_, fun hie => ⟨_, schedule_ie_clear q cause saved hie⟩⟩
  cases hie : s.flag .ie with
  | false => cases hfault.symm.trans (schedule_ie_clear q cause saved hie)
  | true =>
    obtain ⟨a, ha⟩ := enter_error _ _ _ ((schedule_ie_set q cause saved hie).symm.trans hfault)
    exact stackFault_ne_priorityFault a n ha.symm

/-! ### Requests queued while IE is clear (R340, R343) -/

theorem evictPending_eq_filter (p : Prio) (cause : Word) (l : List PendingEntry) :
    evictPending p cause l = l.filter fun e => decide (¬(e.prio = p ∧ e.cause = cause)) := by
  simp [evictPending]

/-- In a sorted list the place of R340 is behind every entry with a number not above the new one's. -/
theorem insertPending_eq_append {l : List PendingEntry} (h : PendingSorted l) (e : PendingEntry) : insertPending e l =
    l.filter (fun f => decide (Param.prioNumber f.prio ≤ Param.prioNumber e.prio)) ++
      e :: l.filter (fun f => decide (Param.prioNumber e.prio < Param.prioNumber f.prio)) := by
  induction l with
  | nil => rfl
  | cons d ds ih =>
    obtain ⟨hd, hds⟩ := List.pairwise_cons.1 h
    rw [insertPending_cons]
    by_cases hde : Param.prioNumber d.prio ≤ Param.prioNumber e.prio
    · rw [if_pos (by simp [hde]), ih hds]
      simp [hde]
    · have habove : ∀ f ∈ d :: ds, Param.prioNumber e.prio < Param.prioNumber f.prio := fun f hf => by
        rcases List.mem_cons.1 hf with rfl | hf
        · exact Nat.lt_of_not_le hde
        · exact (Nat.lt_of_not_le hde).trans_le (hd f hf)
      rw [if_neg (by simpa using habove), List.filter_eq_nil_iff.2 (by simpa using habove),
        List.filter_eq_self.2 (by simpa using habove)]
      rfl

/-- Settles O43: the list after the request is the insertion into what the eviction leaves, which is sorted and without the
pair. -/
theorem requestsAreQueuedInOrderWhileIeIsClear : Obligations.RequestsAreQueuedInOrderWhileIeIsClear := by
  intro s p cause saved hie hsorted hdistinct
  have hothers : PendingSorted (evictPending p cause s.pending) := hsorted.filter _
  refine ⟨_, schedule_ie_clear p cause saved hie, ?_, insertPending_sorted hothers _,
    insertPending_distinct (hdistinct.filter _) fun _ => not_same_of_mem_evictPending,
    fun _ => rfl, fun _ => rfl, rfl, rfl, rfl, rfl, rfl⟩
  rw [← evictPending_eq_filter]
  exact insertPending_eq_append hothers ⟨p, cause, saved⟩

theorem filter_insertPending_of_neg {P : PendingEntry → Bool} {e : PendingEntry} (h : P e = false) (l : List PendingEntry) :
    (insertPending e l).filter P = l.filter P := by
  induction l with
  | nil => simp [insertPending_nil, h]
  | cons d ds ih =>
    rw [insertPending_cons]
    split
    · rw [List.filter_cons, List.filter_cons, ih]
    · rw [List.filter_cons, if_neg (Bool.eq_false_iff.1 h)]

/-- An eviction undoes the insertion of its own pair, and a second eviction has nothing to do. -/
theorem evictPending_insertPending_evictPending (p : Prio) (cause saved : Word) (l : List PendingEntry) :
    evictPending p cause (insertPending ⟨p, cause, saved⟩ (evictPending p cause l)) = evictPending p cause l := by
  rw [evictPending, filter_insertPending_of_neg (by simp), evictPending, List.filter_filter]
  simp only [Bool.and_self]

/-- The entries of a pair after its request: the new one alone. -/
theorem filter_insertPending_evictPending (p : Prio) (cause saved : Word) (l : List PendingEntry) :
    (insertPending ⟨p, cause, saved⟩ (evictPending p cause l)).filter (fun e => decide (e.prio = p ∧ e.cause = cause)) =
      [⟨p, cause, saved⟩] := by
  have hperm := (insertPending_perm ⟨p, cause, saved⟩ (evictPending p cause l)).filter
    fun e => decide (e.prio = p ∧ e.cause = cause)
  have hnone : (evictPending p cause l).filter (fun e => decide (e.prio = p ∧ e.cause = cause)) = [] :=
    List.filter_eq_nil_iff.2 fun f hf hpair =>
      not_same_of_mem_evictPending hf ((of_decide_eq_true hpair).imp Eq.symm Eq.symm)
  rw [List.filter_cons, if_pos (by simp), hnone] at hperm
  exact List.perm_singleton.1 hperm

/-- Settles O44: the second request evicts the first one's entry and so inserts into what the first inserted into. -/
theorem duplicateRequestsCollapse : Obligations.DuplicateRequestsCollapse := by
  intro s t u p cause s1 s2 hie ht hu
  obtain rfl := Except.ok.inj ((schedule_ie_clear p cause s1 hie).symm.trans ht)
  have hie' :=
    (State.setPending_flag s (insertPending ⟨p, cause, s1⟩ (evictPending p cause s.pending)) .ie).trans hie
  obtain rfl := Except.ok.inj ((schedule_ie_clear p cause s2 hie').symm.trans hu)
  refine ⟨filter_insertPending_evictPending p cause s2 _, fun hsaved _ => ?_⟩
  simp only [State.setPending_pending]
  rw [evictPending_insertPending_evictPending, hsaved]

/-! ### Requests entered at once while IE is set (R340, R342, R347) -/

/-- The FPU at the entry of a class: class 2 has set its status (R347). -/
def fpuAtEntry (q : Prio) (s : State) : FpuPort := if q = .class2 then Param.fpuModel.setStatus s.fpu else s.fpu

theorem hwEnter_eq (q : Prio) (cause ipcval : Word) (s : State) : hwEnter q cause ipcval s =
    enter cause (Param.hwVector q) ipcval ((s.setFpu (fpuAtEntry q s)).emit (.hardwareInterrupt q cause)) := by
  cases q <;> rfl

theorem hwEnter_entered {s : State} (h : StackRoom s) (q : Prio) (cause ipcval : Word) :
    ∃ t, hwEnter q cause ipcval s = .ok t ∧ Entered s t cause (Param.hwVector q) ipcval ∧
      t.events = .hardwareInterrupt q cause :: s.events ∧ t.fpu = fpuAtEntry q s := by
  obtain ⟨t, henter, hentered, hfpu, hevents⟩ := enter_emit_entered (s := s.setFpu (fpuAtEntry q s)) cause (Param.hwVector q)
    ipcval h (.hardwareInterrupt q cause)
  exact ⟨t, (hwEnter_eq q cause ipcval s).trans henter, hentered, hevents, hfpu⟩

/-- Settles O45: each row is a class with its number and its vector, and the request is that class's entry. -/
theorem requestsEnterAtOnceWhileIeIsSet : Obligations.RequestsEnterAtOnceWhileIeIsSet := by
  intro s cause saved hie row hrow
  have hclass : row.1 = Param.prioNumber row.2.1 ∧ row.2.2 = Param.hwVector row.2.1 ∧
      (row.1 = 2 ↔ row.2.1 = .class2) := by
    revert row
    decide
  obtain ⟨hnumber, hvector, htwo⟩ := hclass
  simp only [htwo]
  rw [hnumber, hvector, schedule_ie_set _ _ _ hie]
  exact ⟨hwEnter_eq row.2.1 cause saved s, fun hroom => hwEnter_entered hroom row.2.1 cause saved⟩

/-! ### The drain (R345) -/

theorem drain_head {s : State} {e : PendingEntry} {rest : List PendingEntry} (hie : s.flag .ie = true)
    (hp : s.pending = e :: rest) : drain s = hwEnter e.prio e.cause e.savedPC (s.setPending rest) := by
  rw [drain, hp]
  exact if_pos hie

/-- Settles O47: the drain is the entry of the head's class, from the state with the rest of the list. -/
theorem drainEntersTheHead : Obligations.DrainEntersTheHead := by
  refine ⟨fun s => drain_idle, fun s e rest hie hp => ?_⟩
  rw [drain_head hie hp]
  exact ⟨hwEnter_eq e.prio e.cause e.savedPC (s.setPending rest),
    fun hroom => hwEnter_entered (s := s.setPending rest) hroom e.prio e.cause e.savedPC⟩

/-! ### The FPU tick (R364) -/

/-- Settles O50: the tick schedules the answer, is the last of phases 5 to 7, and no phase follows a halt. -/
theorem fpuTickSchedulesTheAnswer : Obligations.FpuTickSchedulesTheAnswer := by
  refine ⟨fun s => ?_, fun u d e => afterExecute_fpuTick, fun u => endCycle_halted⟩
  rw [fpuTick_eq]
  cases (Param.fpuModel.tick s.fpu).1 <;> rfl

end Sys2Proof.Machine
end

section
/-! PROOFS. The watchdog, 60_exceptions.md section 4: its tick disabled, counting and at zero (rule R359), and the countdown
(R360). -/

namespace Sys2Proof.Machine

/-! ### EN and COUNT as integers (10_state.md R45) -/

theorem wdtEnabled_eq_decide (v : Word) : wdtEnabled v = decide (2 ^ 31 ≤ v.toNat) := by
  rw [wdtEnabled, ← BitVec.msb_eq_getLsbD_last, BitVec.msb_eq_decide]

theorem toNat_wdtCount (v : Word) : (wdtCount v).toNat = v.toNat % 2 ^ 31 := Laws.toNat_extractLsb'_zero v 31

/-- EN over a count is 2^31 more than the count. -/
theorem toNat_enabled_append (c : BitVec 31) : (1#1 ++ c).toNat = 2 ^ 31 + c.toNat := by
  rw [BitVec.toNat_append, ← Nat.shiftLeft_add_eq_or_of_lt c.isLt]
  rfl

/-- Counting down an armed word that is not at zero is subtracting 1 from it. -/
theorem counted_eq_sub_one {v : Word} (h : 2 ^ 31 < v.toNat) : (1#1 ++ (wdtCount v - 1#31) : Word) = v - 1#32 := by
  apply BitVec.eq_of_toNat_eq
  have hlt := v.isLt
  have hcount := toNat_wdtCount v
  have hsub : (wdtCount v - 1#31).toNat = (wdtCount v).toNat - 1 := by bv_omega
  rw [toNat_enabled_append, hsub, hcount]
  bv_omega

/-! ### The tick (R359) -/

section
variable {s : State}

theorem wdtTick_counting (h : 2 ^ 31 < s.wdt.toNat) : wdtTick s = .ok (s.setWdt (s.wdt - 1#32)) := by
  have hcount : wdtCount s.wdt ≠ 0#31 := fun e => by
    have hzero : s.wdt.toNat % 2 ^ 31 = 0 := by rw [← toNat_wdtCount, e, BitVec.toNat_zero]
    omega
  rw [wdtTick, wdtEnabled_eq_decide, decide_eq_true h.le, if_pos rfl, if_neg hcount, counted_eq_sub_one h]

/-- At zero the request comes first, and then the disable (R359). -/
theorem wdtTick_zero (h : s.wdt = 0x80000000#32) : wdtTick s =
    (schedule 1 0xe1ac04da#32 (s.reg PC) s).map fun u => u.setWdt (u.wdt &&& 0x7fffffff#32) := by
  rw [wdtTick, h]
  rfl

theorem Entered.setWdt {t : State} {cause vector ipcval v : Word} (h : Entered s t cause vector ipcval) :
    Entered (s.setWdt v) (t.setWdt v) cause vector ipcval := by
  obtain ⟨hregs, hcr, hipc, hpc, hsp, hw0, hw4, hw8, hmem, -, hcontrol⟩ := h
  exact ⟨hregs, hcr, hipc, hpc, hsp, hw0, hw4, hw8, hmem, rfl, hcontrol⟩

end

/-- Settles O48: the three cases of the word's value, the last of them with IE clear an insertion and with IE set an entry. -/
theorem watchdogTick : Obligations.WatchdogTick := by
  intro s
  refine ⟨wdtTick_disabled,
    fun h => ⟨_, wdtTick_counting h, rfl, fun _ => rfl, fun _ => rfl, ⟨rfl, rfl, rfl⟩, rfl, rfl⟩,
    fun h => ?_, fun h hie => ?_, fun h hie hroom => ?_⟩
  all_goals have hwdt : s.wdt = 0x80000000#32 := BitVec.eq_of_toNat_eq h
  · exact ⟨fun u hu => by rw [wdtTick_zero hwdt, hu]; rfl, fun f hf => by rw [wdtTick_zero hwdt, hf]; rfl⟩
  · have hschedule := schedule_ie_clear .class1 0xe1ac04da#32 (s.reg PC) hie
    refine ⟨_, _, (wdtTick_zero hwdt).trans (congrArg _ hschedule), hschedule, rfl, ?_,
      (insertPending_perm _ _).symm.subset List.mem_cons_self, fun _ => rfl, fun _ => rfl, rfl, rfl, rfl, rfl⟩
    change s.wdt &&& 0x7fffffff#32 = 0#32
    rw [hwdt]
    rfl
  · obtain ⟨u, henter, hentered, hevents, hfpu⟩ := hwEnter_entered hroom .class1 0xe1ac04da#32 (s.reg PC)
    have hschedule := (schedule_ie_set .class1 0xe1ac04da#32 (s.reg PC) hie).trans henter
    have huwdt : u.wdt &&& 0x7fffffff#32 = 0#32 := by
      obtain ⟨-, -, -, -, -, -, -, -, -, hu, -⟩ := hentered
      rw [hu, hwdt]
      rfl
    refine ⟨_, (wdtTick_zero hwdt).trans (congrArg _ hschedule), ?_, hfpu, hevents⟩
    change Entered _ (u.setWdt (u.wdt &&& 0x7fffffff#32)) _ _ _
    rw [huwdt]
    exact hentered.setWdt

/-- Settles O49, by induction on the ticks: before the last the word is still above 2^31, and so it counts. -/
theorem watchdogCountsDownOneATick : Obligations.WatchdogCountsDownOneATick := by
  intro k s harmed
  induction k with
  | zero => exact fun _ => ⟨s, rfl, rfl, fun _ => rfl, fun _ => rfl, ⟨rfl, rfl, rfl⟩, rfl, rfl⟩
  | succ k ih =>
    intro hk
    obtain ⟨t, hrun, hwdt, hrest⟩ := ih (Nat.le_of_succ_le hk)
    have hcounting : 2 ^ 31 < t.wdt.toNat := by omega
    refine ⟨t.setWdt (t.wdt - 1#32), ?_, ?_, hrest⟩
    · rw [Nat.repeat, hrun]
      exact wdtTick_counting hcounting
    · rw [State.setWdt_wdt]
      bv_omega

end Sys2Proof.Machine
end

section
/-! PROOFS. The halt, 60_exceptions.md R349 and 10_state.md R46: which word halts, and what the halt leaves pending. -/

namespace Sys2Proof.Laws

/-- A word is its opcode followed by its IMM26 (30_encoding.md R111, R114). -/
theorem word_eq_fieldOp_append (w : Word) : w = fieldOp w ++ fieldImm26 w := by
  apply BitVec.eq_of_getLsbD_eq
  intro j hj
  simp only [fieldOp, fieldImm26_eq, BitVec.getLsbD_append, BitVec.getLsbD_extractLsb']
  by_cases h : j < 26
  · simp [h]
  · have hop : j - 26 < 6 := by omega
    have hsum : 26 + (j - 26) = j := by omega
    simp [h, hop, hsum]

theorem decodeFamily04_ne_int {w : Word} {imm : BitVec 26} : decodeFamily04 w ≠ .ok (.int imm) := by
  unfold decodeFamily04
  split <;> nofun

theorem decodeFamily21_ne_int {w : Word} {imm : BitVec 26} : decodeFamily21 w ≠ .ok (.int imm) := by
  unfold decodeFamily21
  split <;> nofun

/-- Only the entry of `int` gives an `int`. -/
theorem decodeAs_eq_int {o : Opcode} {w : Word} {imm : BitVec 26} (h : decodeAs o w = .ok (.int imm)) :
    o = .int ∧ fieldImm26 w = imm := by
  cases o with
  | int =>
    cases h
    exact ⟨rfl, rfl⟩
  | shiftMulDiv => exact absurd h decodeFamily04_ne_int
  | bitSetClear => exact absurd h decodeFamily21_ne_int
  | _ => nomatch h

/-- No bit of an `int` is ignored, so its word is its own encoding (30_encoding.md R121, R126). -/
theorem word_of_decode_int {w : Word} {imm : BitVec 26} (h : decode w = .ok (.int imm)) : w = 0x3f#6 ++ imm := by
  unfold decode decodeOp at h
  split at h
  next o ho =>
    obtain ⟨rfl, rfl⟩ := decodeAs_eq_int h
    have hop : fieldOp w = 0x3f#6 := eq_opcodeOf_of_opcodeAt ho
    rw [← hop]
    exact word_eq_fieldOp_append w
  next => cases h

end Sys2Proof.Laws

namespace Sys2Proof.Machine

section
variable {s t : State}

theorem hwEnter_sameControl {p : Prio} {cause ipcval : Word} (h : hwEnter p cause ipcval s = .ok t) : SameControl s t :=
  (hwEnter_updates (ds := []) h).sameControl

theorem schedule_halted {p : Nat} {cause saved : Word} (h : schedule p cause saved s = .ok t) : t.halted = s.halted := by
  obtain ⟨q, -, ⟨-, henter⟩ | ⟨-, rfl⟩⟩ := schedule_cases h
  · exact (hwEnter_sameControl henter).2.1
  · rfl

theorem drain_halted (h : drain s = .ok t) : t.halted = s.halted := by
  obtain ⟨rfl, -⟩ | ⟨e, rest, -, -, henter⟩ := drain_cases h
  · rfl
  · exact (hwEnter_sameControl henter).2.1

theorem wdtTick_halted (h : wdtTick s = .ok t) : t.halted = s.halted := by
  obtain ⟨-, rfl⟩ | ⟨-, -, rfl⟩ | ⟨-, -, u, hu, rfl⟩ := wdtTick_cases h
  · rfl
  · rfl
  · exact (State.setWdt_halted u _).trans (schedule_halted hu)

theorem fpuTick_halted (h : fpuTick s = .ok t) : t.halted = s.halted := by
  obtain rfl | ⟨q, hq⟩ := fpuTick_cases h
  · rfl
  · exact (schedule_halted hq).trans (State.setFpu_halted s _)

/-- Phases 5 to 8 do not write the run state. -/
theorem afterExecute_halted (h : afterExecute s = .ok t) : t.halted = s.halted := by
  obtain ⟨s1, s2, s3, hdrain, hwdt, hfpu, rfl⟩ := afterExecute_eq_ok.1 h
  exact (State.writeReg_halted ..).trans ((fpuTick_halted hfpu).trans ((wdtTick_halted hwdt).trans (drain_halted hdrain)))

/-- An execution that halts is `int 0`'s: every other instruction and the trap are elementary effects, and none of these
writes the run state. -/
theorem execute_halts {w : Word} (h : execute w s = .next t) (hrun : s.halted = false) (hhalt : t.halted = true) :
    decode w = .ok (.int 0#26) ∧ t.pending = s.pending := by
  have hchanged : ¬SameControl s t := fun ⟨_, hhalted, _⟩ => by simp [hrun, hhalt] at hhalted
  obtain ⟨i, hdecode, hexec⟩ | ⟨_, -, htrap⟩ := execute_cases h
  · by_cases hi : i = .int 0#26
    · exact ⟨hi ▸ hdecode, (exec_pending_fault hexec).1⟩
    · exact absurd (exec_updates hi hexec).sameControl hchanged
  · exact absurd (invalidTrap_updates (ds := []) htrap).sameControl hchanged

end

/-- Settles O56: a running step that ends halted halted in its execution, as phases 5 to 8 never do; what executed was `int 0`,
and the word fetched is its encoding. -/
theorem onlyIntZeroHalts : Obligations.OnlyIntZeroHalts := by
  intro s t hstep hrun hhalt
  obtain ⟨-, ⟨hhalted, -⟩ | ⟨-, w, s1, u, hfetch, hexec, hend⟩⟩ := step_cases hstep
  · exact absurd (hhalted.symm.trans hrun) (by decide)
  · obtain ⟨hpending1, hhalted1, -⟩ := (fetch_updates (ds := []) hfetch).sameControl
    obtain ⟨-, hw, -⟩ := fetch_eq_ok.1 hfetch
    obtain ⟨huhalt, rfl⟩ | ⟨hurun, hafter⟩ := hend
    · obtain ⟨hdecode, hpending⟩ := execute_halts hexec (hhalted1.trans hrun) huhalt
      rw [← Memory.loadWord_eq_wordAt, ← hw]
      exact ⟨Laws.word_of_decode_int hdecode, hpending.trans hpending1⟩
    · exact absurd ((afterExecute_halted hafter).symm.trans hhalt) (by simp [hurun])

/-- Settles O55: neither a mark nor a halt lets a cycle begin. -/
theorem haltedStatesStand : Obligations.HaltedStatesStand := by
  refine ⟨fun s hfault hhalted => ?_, fun s f hfault => by rw [step, hfault]⟩
  rw [step, hfault]
  exact if_pos hhalted

end Sys2Proof.Machine
end

section
/-! PROOFS. Loads and stores that reach a device word, 20_memory.md R95, R96 and 60_exceptions.md R357, R358. -/

namespace Sys2Proof.Machine

section
variable {n : Width} {z x : RegIdx} {imm : BitVec 16} {s t : State}

theorem finish_loadInto_ok {v : Word} (h : memRead (effectiveAddress s x imm) n s = .ok (v, t)) :
    finish (loadInto n z x imm s) = .next (t.writeReg z v) := by
  rw [loadInto, h]
  rfl

theorem finish_storeFrom_ok (h : memWrite (effectiveAddress s x imm) n (s.reg z) s = .ok t) :
    finish (storeFrom n z x imm s) = .next t := congrArg finish h

end

/-- Settles O30: each access is the load or store at the effective address, by the equation of the device that stands there. -/
theorem loadsAndStoresReachTheDevices : Obligations.LoadsAndStoresReachTheDevices := by
  intro s z x imm
  rw [← sext16_eq_ofInt]
  refine ⟨fun ha => ?_, fun p hp ha => ?_, fun ha => ?_⟩
  · have hread := memRead_addrWdt s
    have hwrite := memWrite_addrWdt s (s.reg z)
    have hea : effectiveAddress s x imm = Param.addrWdt := ha
    rw [← hea] at hread hwrite
    exact ⟨⟨_, finish_loadInto_ok hread, writeReg_wrote s z s.wdt⟩,
      ⟨_, finish_storeFrom_ok hwrite, rfl, fun _ => rfl, fun _ => rfl, ⟨rfl, rfl, rfl⟩, rfl, rfl⟩⟩
  · have hea : effectiveAddress s x imm = Param.addrFpu p.2 := ha.trans (addrFpu_of_mem p hp)
    have hread := memRead_addrFpu s p.2
    have hwrite := memWrite_addrFpu s (s.reg z) p.2
    rw [← hea] at hread hwrite
    have hregs (r : RegIdx) : ((fpuRead p.2 s).2.writeReg z (Param.fpuModel.read s.fpu p.2).1).reg r =
        lastWrite [(z, (Param.fpuModel.read s.fpu p.2).1)] r (s.reg r) :=
      (State.reg_writeReg ..).trans (lastWrite_concat [] z _ r _).symm
    obtain ⟨hmem, hcontrol, hwdt, hfpu, hevents⟩ :=
      writeReg_rest (fpuRead p.2 s).2 z (Param.fpuModel.read s.fpu p.2).1
    obtain ⟨hsame, hrest⟩ := setFpu_rest s (Param.fpuModel.write s.fpu p.2 (s.reg z))
    exact ⟨⟨_, finish_loadInto_ok hread, hregs, hfpu, hmem, hcontrol, hwdt, hevents⟩,
      ⟨_, finish_storeFrom_ok hwrite, hsame, rfl, hrest⟩⟩
  · have hwrite := memWrite_addrTerm s (s.reg z)
    have hea : effectiveAddress s x imm = Param.addrTerm := ha
    rw [← hea] at hwrite
    exact ⟨_, finish_storeFrom_ok hwrite, rfl, fun _ => rfl, fun _ => rfl, ⟨rfl, rfl, rfl⟩, rfl, rfl⟩

end Sys2Proof.Machine
end

section
/-! PROOFS. Loading an image, 70_reset_and_hazards.md R380: what each word of memory holds after it. -/

namespace Sys2Proof.Machine

/-- The words of memory after a word store at the address of word `k`. -/
theorem wordAt_storeWord (m : Memory) (k : Nat) (v : Word) (i : Nat) :
    wordAt (m.storeWord (4 * k) v) i = if i = k then v else wordAt m i := by
  have hk : 4 * k / 4 = k := by omega
  by_cases hi : i = k
  · rw [if_pos hi, hi]
    simpa only [hk] using Memory.wordAt_storeWord_self m (4 * k) v
  · rw [if_neg hi]
    exact wordAt_congr fun b hb => m.read_storeWord_of_ne (by rwa [hb, hk]) v

/-- The words of memory after an image is stored from word `k` on. -/
theorem wordAt_storeImage (ws : List Word) (k : Nat) (m : Memory) (i : Nat) :
    wordAt (storeImage ws (4 * k) m) i = if k ≤ i then ws.getD (i - k) (wordAt m i) else wordAt m i := by
  induction ws generalizing k m with
  | nil => simp [storeImage]
  | cons w ws ih =>
    rw [storeImage, show 4 * k + 4 = 4 * (k + 1) from rfl, ih, wordAt_storeWord]
    rcases Nat.lt_trichotomy i k with hlt | rfl | hgt
    · rw [if_neg (by omega), if_neg (by omega), if_neg (by omega)]
    · simp
    · obtain ⟨j, rfl⟩ : ∃ j, i = k + 1 + j := ⟨i - (k + 1), by omega⟩
      have hj : k + 1 + j - k = j + 1 := by omega
      rw [if_pos (by omega), if_neg (by omega), if_pos (by omega), hj, Nat.add_sub_cancel_left, List.getD_cons_succ]

theorem wordAt_reset (i : Nat) : wordAt State.reset.mem i = 0#32 := by
  have hbyte (a : Nat) : State.reset.mem.read a = 0#8 := rfl
  rw [wordAt, hbyte, hbyte, hbyte, hbyte]
  rfl

/-- Settles O8: an image that fits is stored from word 0 on over memory that holds zeros. -/
theorem imageIsLoadedSequentiallyFromAddressZero : Obligations.ImageIsLoadedSequentiallyFromAddressZero := by
  refine fun image => ⟨fun hfits => ?_, fun hlong => if_neg (by rw [memBytes_eq]; omega)⟩
  obtain ⟨hregs, hcontrol, hdevices⟩ := setMem_rest State.reset (storeImage image 0 State.reset.mem)
  have hword (i : Nat) : wordAt (storeImage image 0 State.reset.mem) i = image.getD i 0#32 := by
    have h := wordAt_storeImage image 0 State.reset.mem i
    rwa [if_pos (Nat.zero_le i), wordAt_reset] at h
  refine ⟨_, if_pos (by rw [memBytes_eq]; omega), fun i hi => ?_, fun i hi => ?_, hregs, hcontrol, hdevices⟩
  · exact (hword i).trans (List.getD_eq_getElem image 0#32 hi)
  · exact (hword i).trans (List.getD_eq_default image 0#32 hi)

end Sys2Proof.Machine
end
